-- ==== Sys2Proof/Word.lean ====
section
/-! DEFINITION. The word types of HUFFENG: bytes, 32-bit counts, 9-bit indices, 64-bit command and response words. -/

namespace Sys2Proof

/-- A symbol or a stream byte: SYM_BITS = 8 (00_scope.md R6). -/
abbrev Byte := BitVec 8

/-- A frequency, the total-symbol count, a command's ARG and a response's RESULT: COUNT_BITS = 32 (00_scope.md R6). -/
abbrev Word := BitVec 32

/-- An arena index, a NODE field, a TIE field: 9 bits (10_state.md R30, R33). -/
abbrev Idx := BitVec 9

/-- A command word or a response word: CMD_BITS = 64 (00_scope.md R6, 30_encoding.md R100, R103). -/
abbrev CmdWord := BitVec 64

end Sys2Proof
end

