-- ==== Sys2Proof/Config.lean ====
section
/-! DEFINITION. The parameters of 00_scope.md R6. The one open parameter, INBUF_CAP, is a field of State
(`State.inbufCap`), so that every statement over states speaks of every value of it (log 1); here stands only its
range and the value `State.reset` gives it. -/

namespace Sys2Proof.Config

/-- PQ_CAP: capacity of the heap array (R6, D14). -/
def pqCap : Nat := 256

/-- NODE_CAP: capacity of the node arena (R6, D19). -/
def nodeCap : Nat := 511

/-- CODE_MAX: longest code in bits (R6). -/
def codeMax : Nat := 255

/-- STACK_CAP: depth of the traversal stack (R6, R39, 90_conflicts.md C13). -/
def stackCap : Nat := 511

/-- The largest value R6 admits for the open parameter INBUF_CAP. -/
def inbufCapMax : Nat := 4294967295

/-- DESIGN CHOICE (log 1): the value of the open parameter INBUF_CAP in `State.reset`, the largest the spec admits.
Unsafe for a claim that rests on it; no statement does. -/
def inbufCapReset : Nat := inbufCapMax

end Sys2Proof.Config
end

