-- ==== Sys2Proof/Syntax.lean ====
section
/-! DEFINITION. The 24 commands of 30_encoding.md R104, with the operands R101 gives each. A field a command does not
use is no operand: R101 says it is ignored. -/

namespace Sys2Proof

/-- One command of HUFFENG, one constructor per row of spec/opcode_table.json. -/
inductive Instr where
  /-- INIT: ARG[0] selects the comparator (40_control.md R130). -/
  | init (desc : Bool)
  /-- STAT: ARG selects what is read (40_control.md R131). -/
  | stat (sel : Word)
  /-- GETBIT (41_bitstream.md R140). -/
  | getbit
  /-- GETCHAR (41_bitstream.md R141). -/
  | getchar
  /-- GETINT (41_bitstream.md R142). -/
  | getint
  /-- PUTBIT: ARG[0] (41_bitstream.md R143). -/
  | putbit (b : Bool)
  /-- PUTCHAR: ARG[7:0] (41_bitstream.md R144). -/
  | putchar (v : Byte)
  /-- PUTINT: ARG (41_bitstream.md R145). -/
  | putint (w : Word)
  /-- CLOSE (41_bitstream.md R146). -/
  | close
  /-- PUSH: freq = ARG, tie = TIE, node = NODE (42_priority_queue.md R170). -/
  | push (freq : Word) (tie node : Idx)
  /-- TOP (42_priority_queue.md R171). -/
  | top
  /-- POP (42_priority_queue.md R172). -/
  | pop
  /-- SIZE (42_priority_queue.md R173). -/
  | size
  /-- FREQ (43_tree_builder.md R190). -/
  | freq
  /-- BUILD (43_tree_builder.md R195). -/
  | build
  /-- CODES (44_codec_encode.md R210). -/
  | codes
  /-- WTREE (44_codec_encode.md R213). -/
  | wtree
  /-- WCOUNT (44_codec_encode.md R216). -/
  | wcount
  /-- WPAYLOAD (44_codec_encode.md R218). -/
  | wpayload
  /-- COMPRESS, a macro command (44_codec_encode.md R225). -/
  | compress
  /-- RTREE (45_codec_decode.md R240). -/
  | rtree
  /-- RCOUNT (45_codec_decode.md R245). -/
  | rcount
  /-- DECODE (45_codec_decode.md R248). -/
  | decode
  /-- DECOMPRESS, a macro command (45_codec_decode.md R255). -/
  | decompress
  deriving DecidableEq, Repr

end Sys2Proof
end

