-- ==== Sys2Proof/WellFormed.lean ====
section
/-! DEFINITION. The operand ranges the assembler syntax of 30_encoding.md R108 admits. The types of `Instr` already hold
every range but one: STAT's selector. A STAT with a selector above 4 can be encoded and decoded ("a legal encoding of an
illegal request", R105), so decoding does not ask for well-formedness; it is the request that is not well-formed. -/

namespace Sys2Proof

/-- R108: "STAT sel ; sel is 0 to 4"; every other operand range of R108 is the operand's type. -/
def Instr.wellFormed : Instr → Bool
  | .init _ => true
  | .stat sel => decide (sel.toNat ≤ 4)
  | .getbit => true
  | .getchar => true
  | .getint => true
  | .putbit _ => true
  | .putchar _ => true
  | .putint _ => true
  | .close => true
  | .push _ _ _ => true
  | .top => true
  | .pop => true
  | .size => true
  | .freq => true
  | .build => true
  | .codes => true
  | .wtree => true
  | .wcount => true
  | .wpayload => true
  | .compress => true
  | .rtree => true
  | .rcount => true
  | .decode => true
  | .decompress => true

end Sys2Proof
end

