-- ==== Sys2Proof/Decode.lean ====
section
/-! DEFINITION. The command decoder of 30_encoding.md R100 to R105, total on every 64-bit word, and after it the encoder,
written from the same table. A word that selects no command is reserved, and the decoder says why. -/

namespace Sys2Proof

/-- Why a word selects no command (30_encoding.md R102, R105). -/
inductive Reserved where
  /-- A bit of RSV[55:50] is set: "RSV is never ignored" (R101). -/
  | rsvNotZero
  /-- One of the 232 OP values R104 does not list. -/
  | opcode (op : BitVec 8)
  deriving DecidableEq, Repr

/-- What a word decodes to. -/
inductive Decoded where
  /-- The word selects this command. -/
  | instr (i : Instr)
  /-- The word is a reserved (illegal) command word. -/
  | reserved (why : Reserved)
  deriving DecidableEq, Repr

/-- OP = word[63:56] (R100). -/
def opField (w : CmdWord) : BitVec 8 := w.extractLsb' 56 8

/-- RSV = word[55:50] (R100). -/
def rsvField (w : CmdWord) : BitVec 6 := w.extractLsb' 50 6

/-- TIE = word[49:41] (R100). -/
def tieField (w : CmdWord) : Idx := w.extractLsb' 41 9

/-- NODE = word[40:32] (R100). -/
def nodeField (w : CmdWord) : Idx := w.extractLsb' 32 9

/-- ARG = word[31:0] (R100). -/
def argField (w : CmdWord) : Word := w.extractLsb' 0 32

/-- R104's rows: the command an OP value selects, with the operand fields R101 takes from the word. -/
def decodeRow (op : BitVec 8) (w : CmdWord) : Decoded :=
  match op.toNat with
  | 0x00 => .instr (.init ((argField w).getLsbD 0))
  | 0x01 => .instr (.stat (argField w))
  | 0x10 => .instr .getbit
  | 0x11 => .instr .getchar
  | 0x12 => .instr .getint
  | 0x18 => .instr (.putbit ((argField w).getLsbD 0))
  | 0x19 => .instr (.putchar ((argField w).setWidth 8))
  | 0x1A => .instr (.putint (argField w))
  | 0x1B => .instr .close
  | 0x20 => .instr (.push (argField w) (tieField w) (nodeField w))
  | 0x21 => .instr .top
  | 0x22 => .instr .pop
  | 0x23 => .instr .size
  | 0x30 => .instr .freq
  | 0x31 => .instr .build
  | 0x40 => .instr .codes
  | 0x41 => .instr .wtree
  | 0x42 => .instr .wcount
  | 0x43 => .instr .wpayload
  | 0x4F => .instr .compress
  | 0x50 => .instr .rtree
  | 0x51 => .instr .rcount
  | 0x52 => .instr .decode
  | 0x5F => .instr .decompress
  | _ => .reserved (.opcode op)

/-- Decoding (R102): OP and RSV select the command; no state is read. -/
def decode (w : CmdWord) : Decoded :=
  if rsvField w = 0 then decodeRow (opField w) w else .reserved .rsvNotZero

/-- The OP value of a command (R104). -/
def Instr.opcode : Instr → BitVec 8
  | .init _ => 0x00
  | .stat _ => 0x01
  | .getbit => 0x10
  | .getchar => 0x11
  | .getint => 0x12
  | .putbit _ => 0x18
  | .putchar _ => 0x19
  | .putint _ => 0x1A
  | .close => 0x1B
  | .push _ _ _ => 0x20
  | .top => 0x21
  | .pop => 0x22
  | .size => 0x23
  | .freq => 0x30
  | .build => 0x31
  | .codes => 0x40
  | .wtree => 0x41
  | .wcount => 0x42
  | .wpayload => 0x43
  | .compress => 0x4F
  | .rtree => 0x50
  | .rcount => 0x51
  | .decode => 0x52
  | .decompress => 0x5F

/-- ARG as the assembler fills it (R108: "an unused field assembles as 0"). -/
def Instr.argOf : Instr → Word
  | .init d => (BitVec.ofBool d).setWidth 32
  | .stat sel => sel
  | .putbit b => (BitVec.ofBool b).setWidth 32
  | .putchar v => v.setWidth 32
  | .putint w => w
  | .push f _ _ => f
  | .getbit | .getchar | .getint | .close | .top | .pop | .size | .freq | .build | .codes | .wtree | .wcount
  | .wpayload | .compress | .rtree | .rcount | .decode | .decompress => 0

/-- TIE as the assembler fills it: PUSH's tie key, else 0. -/
def Instr.tieOf : Instr → Idx
  | .push _ t _ => t
  | .init _ | .stat _ | .getbit | .getchar | .getint | .putbit _ | .putchar _ | .putint _ | .close | .top | .pop
  | .size | .freq | .build | .codes | .wtree | .wcount | .wpayload | .compress | .rtree | .rcount | .decode
  | .decompress => 0

/-- NODE as the assembler fills it: PUSH's node payload, else 0. -/
def Instr.nodeOf : Instr → Idx
  | .push _ _ n => n
  | .init _ | .stat _ | .getbit | .getchar | .getint | .putbit _ | .putchar _ | .putint _ | .close | .top | .pop
  | .size | .freq | .build | .codes | .wtree | .wcount | .wpayload | .compress | .rtree | .rcount | .decode
  | .decompress => 0

/-- The five fields of R100 side by side, OP most significant. -/
def packFields (op : BitVec 8) (rsv : BitVec 6) (tie node : Idx) (arg : Word) : CmdWord :=
  op ++ rsv ++ tie ++ node ++ arg

/-- The word the assembler writes for a command (R100, R108). -/
def encode (i : Instr) : CmdWord :=
  packFields i.opcode 0 i.tieOf i.nodeOf i.argOf

/-- An instruction's bits, numbered as spec/opcode_table.json numbers them, as the 64-bit command word they are; the bits
above `nbits` are 0. -/
def tableWord (nbits w : Nat) : CmdWord := BitVec.ofNat 64 (w % 2 ^ nbits)

/-- The command the decoder reads from a row's bits, if any. -/
def decodeTableWord (nbits w : Nat) : Option Instr :=
  match decode (tableWord nbits w) with
  | .instr i => some i
  | .reserved _ => none

end Sys2Proof
end

