-- ==== Sys2Proof/Machine/State.lean ====
section
/-! DEFINITION. Everything the spec gives the machine (10_state.md), with the streams, the host's coming moves and the
responses sent (the host interface, 20_memory.md, 30_encoding.md R103, 70_reset_and_hazards.md R305), as plain data; the
model's faults and refusals; the state after reset (10_state.md R40). -/

namespace Sys2Proof.Machine

/-- A queue element (10_state.md R30): 32-bit primary key, 9-bit secondary key, 9-bit payload. -/
structure Element where
  freq : Word
  tie  : Idx
  node : Idx
  deriving DecidableEq, Repr

/-- A node record (10_state.md R33): the discriminant `leaf`, the symbol of a leaf, the children of an internal node. -/
structure NodeRec where
  leaf  : Bool
  sym   : Byte
  left  : Idx
  right : Idx
  freq  : Word
  deriving DecidableEq, Repr

/-- The error kinds of 60_exceptions.md R271. An error ends the command that raises it; the machine goes on (R276). -/
inductive Err where
  /-- TOP or POP on an empty queue. -/
  | underflow
  /-- A `GetBit()` with no bit buffered and SRC empty. -/
  | endOfStream
  /-- Never raised by HUFFENG; the code is reserved for the host (R273). -/
  | fileAccess
  /-- A fixed-size memory is full: the queue, the input buffer or the arena. -/
  | capacity
  /-- A reserved word, a STAT selector above 4, a DECODE with no tree and symbols asked for. -/
  | illegal
  /-- A `PutBit()` or `Close()` on a closed writer. -/
  | closed
  deriving DecidableEq, Repr

/-- The result fields of a response (30_encoding.md R103): TIE, NODE, RESULT. -/
structure Result where
  tie    : Idx
  node   : Idx
  result : Word
  deriving DecidableEq, Repr

/-- One response (30_encoding.md R103). `result` is `none` exactly in the response of a failed command, whose TIE, NODE
and RESULT fields "carry no value" and of which "a model delivers none" (R103, R276; log 5). -/
structure Response where
  err    : BitVec 4
  phase  : BitVec 4
  result : Option Result
  deriving DecidableEq, Repr

/-- What the host can do while the engine is idle (70_reset_and_hazards.md R300, R305; log 2). -/
inductive HostEvent where
  /-- Issue a command word. -/
  | command (w : CmdWord)
  /-- Replace the content of SRC. -/
  | srcReplace (bytes : List Byte)
  /-- Append bytes to SRC. -/
  | srcAppend (bytes : List Byte)
  /-- Remove `len` bytes of SNK, from position `start`. -/
  | snkRemove (start len : Nat)
  /-- Clear SNK. -/
  | snkClear
  /-- Signal reset. -/
  | reset
  /-- Issue a command word and signal reset while it runs, after `accesses` of its accesses to the streams (R300; log 6). -/
  | resetDuring (w : CmdWord) (accesses : Nat)
  deriving DecidableEq, Repr

/-- The model's own stops. None is reachable from reset: each guards a read that 10_state.md R34, R39, R41 say no rule
makes, so each is SAFE (log 4). -/
inductive Fault where
  /-- CODES, WTREE or DECODE would read a node record that was never written (R41: "No rule reads a table entry that has
  not been written"). Safe. -/
  | unwrittenNode
  /-- WTREE or RTREE would nest deeper than STACK_CAP, or a DECODE walk deeper than the bits left (R39: no rule lets the
  stack overflow). Safe. -/
  | traversalStackOverflow
  /-- CODES would make a code longer than CODE_MAX (R37, R210: no path of a tree of at most 511 records is). Safe. -/
  | codeTooLong
  deriving DecidableEq, Repr

/-- Reasons for having no meaning. Only `exec`'s arm of an instruction not modelled yet would answer so; safe. -/
inductive Refusal where
  /-- The instruction of this mnemonic has no meaning in the model yet. Raised by `exec` only; safe. -/
  | notModelled (mnemonic : String)
  deriving DecidableEq, Repr

/-- The machine. Table memories are held as their valid entries (10_state.md R41; log 3): `in_len`, `pq_size`, `n_nodes`
and `code_len[s]` are the lengths of `inbuf`, `heap`, `node` and `code[s]`. -/
structure State where
  /-- `rbuf[7:0]`, the read buffer (R22). -/
  rbuf      : Byte
  /-- `rcnt`, 0 to 8: bits of `rbuf` not yet returned (R22). -/
  rcnt      : Fin 9
  /-- `wbuf[7:0]`, the write buffer (R23). -/
  wbuf      : Byte
  /-- `wcnt`, 0 to 7: bits put since the last byte left (R23). -/
  wcnt      : Fin 8
  /-- `wclosed` (R23, R26). -/
  wclosed   : Bool
  /-- `count[31:0]` (R25). -/
  count     : Word
  /-- `inbuf[0 .. in_len - 1]` (R25, R36). -/
  inbuf     : List Byte
  /-- `freq[0 .. 255]` (R35). -/
  freq      : Vector Word 256
  /-- `heap[0 .. pq_size - 1]` (R27, R30). -/
  heap      : List Element
  /-- `pq_desc` (R26). -/
  pqDesc    : Bool
  /-- `node[0 .. n_nodes - 1]` (R33); `none` is a record allocated and not yet written. -/
  node      : List (Option NodeRec)
  /-- `root[8:0]` (R33). -/
  root      : Idx
  /-- `tree_empty` (R26). -/
  treeEmpty : Bool
  /-- `code_bits[s][0 .. code_len[s] - 1]` for s = 0 to 255, first bit first (R37). -/
  code      : Vector (List Bool) 256
  /-- `last_err[3:0]` (R38). -/
  lastErr   : BitVec 4
  /-- `last_phase[3:0]` (R38). -/
  lastPhase : BitVec 4
  /-- The open parameter INBUF_CAP (00_scope.md R6; log 1); no step writes it. -/
  inbufCap  : Nat
  /-- SRC (20_memory.md R60, R61): the bytes not yet taken. -/
  src       : List Byte
  /-- SNK (20_memory.md R60, R62): the bytes written. -/
  snk       : List Byte
  /-- The host's coming moves, first to be served first (log 2). -/
  inputs    : List HostEvent
  /-- The responses sent, oldest first (30_encoding.md R103; log 2). -/
  resps     : List Response
  deriving DecidableEq, Repr

/-- The state after reset (10_state.md R40, 70_reset_and_hazards.md R300). SRC, SNK, the host's moves and the responses
are not HUFFENG's state and start empty (log 2); INBUF_CAP is the model's choice (log 1). -/
def State.reset : State where
  rbuf      := 0
  rcnt      := 0
  wbuf      := 0
  wcnt      := 0
  wclosed   := false
  count     := 0
  inbuf     := []
  freq      := Vector.replicate 256 0
  heap      := []
  pqDesc    := false
  node      := []
  root      := 0
  treeEmpty := true
  code      := Vector.replicate 256 []
  lastErr   := 0
  lastPhase := 0
  inbufCap  := Config.inbufCapReset
  src       := []
  snk       := []
  inputs    := []
  resps     := []

end Sys2Proof.Machine
end

