-- ==== Sys2Proof/Machine/Operands.lean ====
section
/-! DEFINITION. How multi-bit values meet the streams and the tables: bit order (20_memory.md R63, R64), one-bit shifts
(R140 to R145), index computation (R76), and the layout of a response word (30_encoding.md R103). -/

namespace Sys2Proof.Machine

/-- A value's bits, most significant first (R64: `v[7]` first, `v[0]` last). -/
def msbBits {w : Nat} (v : BitVec w) : List Bool := (List.range w).map fun k => v.getMsbD k

/-- The low `n` bits of a value, most significant of them first: the unreturned bits of `rbuf` (R22), the bits put in
`wbuf` (R24). -/
def lowBits {w : Nat} (n : Nat) (v : BitVec w) : List Bool := (List.range n).map fun k => v.getLsbD (n - 1 - k)

/-- `(v << 1)` cut to the width, with bit b in the low place (R141, R142, R143). -/
def shiftIn {w : Nat} (v : BitVec w) (b : Bool) : BitVec w := (v <<< 1) ||| (BitVec.ofBool b).setWidth w

/-- Index of a symbol's table entry: the unsigned byte value itself (R76, 90_conflicts.md C1). -/
def symIndex (b : Byte) : Fin 256 := ⟨b.toNat, b.isLt⟩

/-- Parent of heap index n ≥ 1 (R12): (n - 1) / 2, rounded down. -/
def parentIndex (n : Nat) : Nat := (n - 1) / 2

/-- Left child of heap index n (R12). -/
def leftIndex (n : Nat) : Nat := 2 * n + 1

/-- Right child of heap index n (R12). -/
def rightIndex (n : Nat) : Nat := 2 * n + 2

/-- All symbols in ascending order, the order of BUILD's leaf loop (R195). -/
def allSymbols : List Byte := (List.range 256).map (BitVec.ofNat 8)

/-- A response that carries only a RESULT (R103). -/
def resultWord (v : Word) : Result := { tie := 0, node := 0, result := v }

/-- A response with no result value: all result fields 0 (R103). -/
def resultNone : Result := resultWord 0

/-- A response that carries an element: TOP, POP (R103). -/
def resultElement (e : Element) : Result := { tie := e.tie, node := e.node, result := e.freq }

/-- The 64-bit response word of R103: ERR[63:60], PHASE[59:56], 0[55:50], TIE[49:41], NODE[40:32], RESULT[31:0]. The
low 50 bits of a failed command's word have no value (R276): they are whatever `undelivered` is (log 5). -/
def responseWord (r : Response) (undelivered : BitVec 50) : CmdWord :=
  let low : BitVec 50 :=
    match r.result with
    | some x => x.tie ++ x.node ++ x.result
    | none => undelivered
  r.err ++ r.phase ++ (0 : BitVec 6) ++ low

end Sys2Proof.Machine
end

