-- ==== Sys2Proof/Machine/Flags.lean ====
section
/-! DEFINITION. Keys and comparator of the queue (10_state.md R30, R31), error codes and phase numbers
(60_exceptions.md R271, 30_encoding.md R106), the views of state STAT shows and the status word (10_state.md R38). -/

namespace Sys2Proof.Machine

/-- `key(e) = e.freq ++ e.tie`, a 41-bit unsigned number (R31). -/
def elementKey (e : Element) : BitVec 41 := e.freq ++ e.tie

/-- The comparator (R31): ascending on the key when `desc` is 0, descending when it is 1. -/
def before (desc : Bool) (a b : Element) : Bool :=
  if desc then decide ((elementKey b).toNat < (elementKey a).toNat)
  else decide ((elementKey a).toNat < (elementKey b).toNat)

/-- Error codes (R271). -/
def errCode : Err → BitVec 4
  | .underflow => 1
  | .endOfStream => 2
  | .fileAccess => 3
  | .capacity => 4
  | .illegal => 5
  | .closed => 6

/-- Phase numbers of the macro commands (R106). -/
def phaseFreq : BitVec 4 := 1
/-- Phase 2 (R106). -/
def phaseBuild : BitVec 4 := 2
/-- Phase 3 (R106). -/
def phaseCodes : BitVec 4 := 3
/-- Phase 4 (R106). -/
def phaseWtree : BitVec 4 := 4
/-- Phase 5 (R106). -/
def phaseWcount : BitVec 4 := 5
/-- Phase 6 (R106). -/
def phaseWpayload : BitVec 4 := 6
/-- Phase 7: a macro command ran to its end without error (R106). -/
def phaseClose : BitVec 4 := 7
/-- Phase 8 (R106). -/
def phaseRtree : BitVec 4 := 8
/-- Phase 9 (R106). -/
def phaseRcount : BitVec 4 := 9
/-- Phase 10 (R106). -/
def phaseDecode : BitVec 4 := 10

/-- `in_len` (R25): the number of valid bytes of `inbuf`, as the 32-bit register. -/
def State.inLen (s : State) : Word := BitVec.ofNat 32 s.inbuf.length

/-- `pq_size` (R27), as the 9-bit register. -/
def State.pqSize (s : State) : BitVec 9 := BitVec.ofNat 9 s.heap.length

/-- `n_nodes` (R33), as the 9-bit register. -/
def State.nNodes (s : State) : BitVec 9 := BitVec.ofNat 9 s.node.length

/-- `freq[b]` (R35). -/
def State.freqAt (s : State) (b : Byte) : Word := s.freq.get (symIndex b)

/-- `code_bits[b]`, its `code_len[b]` meaningful bits (R37). -/
def State.codeAt (s : State) (b : Byte) : List Bool := s.code.get (symIndex b)

/-- `code_len[b]` (R37), as the 8-bit register. -/
def State.codeLen (s : State) (b : Byte) : BitVec 8 := BitVec.ofNat 8 (s.codeAt b).length

/-- `node[i]`, if that record is allocated and written (R33, R41). -/
def State.nodeAt (s : State) (i : Idx) : Option NodeRec := (s.node[i.toNat]?).join

/-- The status word of R38: LAST_ERR[3:0], LAST_PHASE[7:4], RCNT[11:8], WCNT[14:12], WCLOSED[15], PQ_DESC[16],
TREE_EMPTY[17], 0[31:18]. -/
def statusWord (s : State) : Word :=
  (0 : BitVec 14) ++ BitVec.ofBool s.treeEmpty ++ BitVec.ofBool s.pqDesc ++ BitVec.ofBool s.wclosed
    ++ BitVec.ofNat 3 s.wcnt.val ++ BitVec.ofNat 4 s.rcnt.val ++ s.lastPhase ++ s.lastErr

/-- The word STAT selects (40_control.md R131), or `none` for a selector above 4. -/
def statValue (sel : Word) (s : State) : Option Word :=
  match sel.toNat with
  | 0 => some (statusWord s)
  | 1 => some s.count
  | 2 => some s.inLen
  | 3 => some (s.nNodes.setWidth 32)
  | 4 => some (s.root.setWidth 32)
  | _ => none

end Sys2Proof.Machine
end

