-- ==== Sys2Proof/Machine/Ops.lean ====
section
/-! DEFINITION. The shared operations: the results of a procedure (00_scope.md R10, R11), the named updates of State, the
stream primitives (20_memory.md R61, R62), what ends a command (the common epilogue of 40_control.md R132 and what an
error does, 60_exceptions.md R276), the macro envelope (44_codec_encode.md R225, 45_codec_decode.md R255), INIT's
clearing (40_control.md R130), reset (70_reset_and_hazards.md R300) and the host's moves (R305). -/

namespace Sys2Proof.Machine

/-- How a procedure ends: with a value, by `raise` (every change made before it is in the state it carries, R10, R276),
or in one of the model's own faults. -/
inductive Res (α : Type) where
  | ok     (a : α) (s : State)
  | raised (e : Err) (s : State)
  | stuck  (f : Fault)
  deriving DecidableEq, Repr

/-- Run one procedure after another: a `raise` ends both (R10). -/
def Res.bind {α β : Type} (r : Res α) (k : α → State → Res β) : Res β :=
  match r with
  | .ok a s => k a s
  | .raised e s => .raised e s
  | .stuck f => .stuck f

/-! ### Named updates -/

/-- The bit reader's registers and what it has left of SRC. -/
def State.setReader (s : State) (rbuf : Byte) (rcnt : Fin 9) (src : List Byte) : State :=
  { s with rbuf := rbuf, rcnt := rcnt, src := src }

/-- The bit writer's buffer registers and SNK. -/
def State.setWriter (s : State) (wbuf : Byte) (wcnt : Fin 8) (snk : List Byte) : State :=
  { s with wbuf := wbuf, wcnt := wcnt, snk := snk }

/-- The queue's elements, hence `pq_size` too. -/
def State.setHeap (s : State) (heap : List Element) : State := { s with heap := heap }

/-- The arena, hence `n_nodes` too. -/
def State.setArena (s : State) (node : List (Option NodeRec)) : State := { s with node := node }

/-- `root` and `tree_empty`. -/
def State.setTree (s : State) (root : Idx) (empty : Bool) : State := { s with root := root, treeEmpty := empty }

/-- The code table, `code_len` and `code_bits` of every symbol. -/
def State.setCode (s : State) (code : Vector (List Bool) 256) : State := { s with code := code }

/-- What FREQ writes while it reads: the input buffer (hence `in_len`), the frequency table, SRC. -/
def State.setInput (s : State) (inbuf : List Byte) (freq : Vector Word 256) (src : List Byte) : State :=
  { s with inbuf := inbuf, freq := freq, src := src }

/-- `count`. -/
def State.setCount (s : State) (count : Word) : State := { s with count := count }

/-- The host's coming moves. -/
def State.setInputs (s : State) (inputs : List HostEvent) : State := { s with inputs := inputs }

/-! ### Stream primitives -/

/-- `SrcRead()` (R61): the first byte of SRC and the state without it, or `none` for EOS. -/
def srcRead (s : State) : Option (Byte × State) :=
  match s.src with
  | [] => none
  | b :: rest => some (b, s.setReader s.rbuf s.rcnt rest)

/-- `SnkWrite(b)` (R62). -/
def snkWrite (b : Byte) (s : State) : State := s.setWriter s.wbuf s.wcnt (s.snk ++ [b])

/-! ### The end of a command -/

/-- The common epilogue (R132): `last_err`, `last_phase`, then the response (R103). -/
def State.endCommand (s : State) (err phase : BitVec 4) (result : Option Result) : State :=
  { s with
    lastErr := err
    lastPhase := phase
    resps := s.resps ++ [{ err := err, phase := phase, result := result }] }

/-- A command that ended normally in phase `phase` (0 for a micro command). -/
def completeCommand (phase : BitVec 4) (result : Result) (s : State) : State :=
  s.endCommand 0 phase (some result)

/-- TAKING AN ERROR (R276): no result is delivered, `last_err` is the error's code, `last_phase` the failing phase of a
macro command and 0 otherwise; nothing else is saved or changed. There is no return from it (R281): the engine is idle
and accepts the next command. -/
def takeError (e : Err) (phase : BitVec 4) (s : State) : State :=
  s.endCommand (errCode e) phase none

/-- A micro command: its procedure, then the epilogue with phase 0 (R132, R276). -/
def finishMicro {α : Type} (r : Res α) (result : α → State → Result) : Host.Outcome State Fault Refusal :=
  match r with
  | .ok a s => .next (completeCommand 0 (result a s) s)
  | .raised e s => .next (takeError e 0 s)
  | .stuck f => .fault f

/-- A reserved word or another illegal request (30_encoding.md R105): only `last_err`, `last_phase` and the response. -/
def illegalCommand (s : State) : State := takeError .illegal 0 s

/-! ### INIT's clearing and reset -/

/-- The pseudocode of INIT (R130): every unit fresh, the queue's comparator selected; SRC and SNK untouched. The table
memories INIT does not clear hold no valid entry afterwards (R41; log 3). -/
def initUnits (desc : Bool) (s : State) : State :=
  { s with
    rbuf := 0, rcnt := 0
    wbuf := 0, wcnt := 0, wclosed := false
    heap := [], pqDesc := desc
    node := [], root := 0, treeEmpty := true
    count := 0, inbuf := []
    freq := Vector.replicate 256 0
    code := Vector.replicate 256 [] }

/-- Reset (R40, R300): the state INIT 0 leaves, with both status registers 0; SRC and SNK untouched, no response. -/
def resetUnits (s : State) : State :=
  { initUnits false s with lastErr := 0, lastPhase := 0 }

/-! ### The host's moves (R305) -/

/-- Remove `len` entries of a list from position `start`. -/
def removeRange {α : Type} (start len : Nat) (l : List α) : List α := l.take start ++ l.drop (start + len)

/-- What a move of the host other than issuing a command does. -/
def hostMove (e : HostEvent) (s : State) : State :=
  match e with
  | .command _ => s
  | .srcReplace bytes => s.setReader s.rbuf s.rcnt bytes
  | .srcAppend bytes => s.setReader s.rbuf s.rcnt (s.src ++ bytes)
  | .snkRemove start len => s.setWriter s.wbuf s.wcnt (removeRange start len s.snk)
  | .snkClear => s.setWriter s.wbuf s.wcnt []
  | .reset => resetUnits s
  | .resetDuring _ _ => s

/-! ### Arena access (R33, R76) -/

/-- The index the next allocated record gets: `n_nodes`. -/
def nextNode (s : State) : Idx := BitVec.ofNat 9 s.node.length

/-- Allocate a record and write it at once (BUILD: `node[n_nodes] <- r`, `n_nodes <- n_nodes + 1`). -/
def appendNode (r : NodeRec) (s : State) : State := s.setArena (s.node ++ [some r])

/-- Allocate a record that is written later (RTREE: `id <- n_nodes ; n_nodes <- n_nodes + 1`). -/
def allocNode (s : State) : State := s.setArena (s.node ++ [none])

/-- `node[id] <- r`. -/
def writeNode (id : Idx) (r : NodeRec) (s : State) : State := s.setArena (s.node.set id.toNat (some r))

/-- A leaf record; `left` and `right` are written as 0 and never read (R195, R240). -/
def leafRec (sym : Byte) (freq : Word) : NodeRec := { leaf := true, sym := sym, left := 0, right := 0, freq := freq }

/-- An internal record; `sym` is written as 0 and never read (R195, R240). -/
def innerRec (left right : Idx) (freq : Word) : NodeRec :=
  { leaf := false, sym := 0, left := left, right := right, freq := freq }

end Sys2Proof.Machine
end

