-- ==== Sys2Proof/Machine/Control.lean ====
section
/-! DEFINITION. The control commands INIT and STAT (40_control.md). -/

namespace Sys2Proof.Machine

/-- INIT (R130). -/
def execInit (desc : Bool) (s : State) : Host.Outcome State Fault Refusal :=
  .next (completeCommand 0 resultNone (initUnits desc s))

/-- STAT (R131, R132): on success no state changes and the response carries the present `last_phase`; a selector above 4
is treated as an illegal command. -/
def execStat (sel : Word) (s : State) : Host.Outcome State Fault Refusal :=
  match statValue sel s with
  | some v => .next { s with resps := s.resps ++ [{ err := 0, phase := s.lastPhase, result := some (resultWord v) }] }
  | none => .next (illegalCommand s)

end Sys2Proof.Machine
end

