-- ==== Sys2Proof/Machine/BitStream.lean ====
section
/-! DEFINITION. The bit reader and the bit writer, and the seven commands over them (41_bitstream.md). -/

namespace Sys2Proof.Machine

/-! ### Reader -/

/-- Bits the reader can still return: those buffered and those of SRC. -/
def bitsLeft (s : State) : Nat := s.rcnt.val + 8 * s.src.length

/-- The refill of `GetBit()` (R140): only when the buffer is exhausted, and only when a bit is wanted (D7). -/
def refill (s : State) : Res Unit :=
  if s.rcnt = 0 then
    match srcRead s with
    | none => .raised .endOfStream s
    | some (r, s') => .ok () (s'.setReader r 8 s'.src)
  else .ok () s

/-- `b <- rbuf[rcnt - 1] ; rcnt <- rcnt - 1` (R140). -/
def takeBit (s : State) : Res Bool :=
  .ok (s.rbuf.getLsbD (s.rcnt.val - 1))
    (s.setReader s.rbuf ⟨s.rcnt.val - 1, Nat.lt_of_le_of_lt (Nat.sub_le _ _) s.rcnt.isLt⟩ s.src)

/-- `GetBit()` (R140). -/
def getBit (s : State) : Res Bool := (refill s).bind fun _ s' => takeBit s'

/-- `n` turns of `v <- (v << 1) | GetBit()` (R141, R142). -/
def getBits {w : Nat} : Nat → BitVec w → State → Res (BitVec w)
  | 0, v, s => .ok v s
  | n + 1, v, s => (getBit s).bind fun b s' => getBits n (shiftIn v b) s'

/-- `GetChar()` (R141). -/
def getChar (s : State) : Res Byte := getBits 8 0 s

/-- `GetInt()` (R142). -/
def getInt (s : State) : Res Word := getBits 32 0 s

/-- GETBIT (R140): RESULT is the bit. -/
def execGetbit (s : State) : Host.Outcome State Fault Refusal :=
  finishMicro (getBit s) fun b _ => resultWord ((BitVec.ofBool b).setWidth 32)

/-- GETCHAR (R141): RESULT is the byte. -/
def execGetchar (s : State) : Host.Outcome State Fault Refusal :=
  finishMicro (getChar s) fun v _ => resultWord (v.setWidth 32)

/-- GETINT (R142): RESULT is the word. -/
def execGetint (s : State) : Host.Outcome State Fault Refusal :=
  finishMicro (getInt s) fun w _ => resultWord w

/-! ### Writer -/

/-- `PutBit(b)` (R143). The transient count 8 exists only here. -/
def putBit (b : Bool) (s : State) : Res Unit :=
  if s.wclosed then .raised .closed s
  else if h : s.wcnt.val + 1 < 8 then .ok () (s.setWriter (shiftIn s.wbuf b) ⟨s.wcnt.val + 1, h⟩ s.snk)
  else .ok () ((snkWrite (shiftIn s.wbuf b) s).setWriter 0 0 (snkWrite (shiftIn s.wbuf b) s).snk)

/-- `PutBit` for each bit of a sequence, in order. -/
def putBits : List Bool → State → Res Unit
  | [], s => .ok () s
  | b :: bs, s => (putBit b s).bind fun _ s' => putBits bs s'

/-- `PutChar(v)` (R144): `v[7]` first. -/
def putChar (v : Byte) (s : State) : Res Unit := putBits (msbBits v) s

/-- `PutInt(w)` (R145): `w[31]` first. -/
def putInt (w : Word) (s : State) : Res Unit := putBits (msbBits w) s

/-- `Close()` (R146): the partial group high, zeros low, one final byte; no byte when nothing is buffered. -/
def closeWriter (s : State) : Res Unit :=
  if s.wclosed then .raised .closed s
  else if s.wcnt.val = 0 then .ok () { s with wclosed := true }
  else .ok () { (snkWrite (s.wbuf <<< (8 - s.wcnt.val)) s) with wbuf := 0, wcnt := 0, wclosed := true }

/-- PUTBIT (R143). -/
def execPutbit (b : Bool) (s : State) : Host.Outcome State Fault Refusal :=
  finishMicro (putBit b s) fun _ _ => resultNone

/-- PUTCHAR (R144). -/
def execPutchar (v : Byte) (s : State) : Host.Outcome State Fault Refusal :=
  finishMicro (putChar v s) fun _ _ => resultNone

/-- PUTINT (R145). -/
def execPutint (w : Word) (s : State) : Host.Outcome State Fault Refusal :=
  finishMicro (putInt w s) fun _ _ => resultNone

/-- CLOSE (R146). -/
def execClose (s : State) : Host.Outcome State Fault Refusal :=
  finishMicro (closeWriter s) fun _ _ => resultNone

end Sys2Proof.Machine
end

