-- ==== Sys2Proof/Machine/Queue.lean ====
section
/-! DEFINITION. The priority queue and its four commands (42_priority_queue.md). -/

namespace Sys2Proof.Machine

/-- What a heap index outside the array would read; no rule forms one (20_memory.md R76), so the value is never used. -/
def noElement : Element := { freq := 0, tie := 0, node := 0 }

/-- `heap[n]`. -/
def heapGet (h : List Element) (n : Nat) : Element := h.getD n noElement

/-- `swap heap[i] and heap[j]`. -/
def heapSwap (h : List Element) (i j : Nat) : List Element := (h.set i (heapGet h j)).set j (heapGet h i)

/-- Sift-up from index n (R170): swap with the parent while strictly before it. `fuel` ≥ n is enough, because every turn
lowers the index. -/
def siftUp (desc : Bool) : Nat → List Element → Nat → List Element
  | 0, h, _ => h
  | fuel + 1, h, n =>
    if 0 < n ∧ before desc (heapGet h n) (heapGet h (parentIndex n)) = true then
      siftUp desc fuel (heapSwap h n (parentIndex n)) (parentIndex n)
    else h

/-- The child sift-down compares with (R172): the left one unless a right one exists and is strictly before it. -/
def chosenChild (desc : Bool) (h : List Element) (n : Nat) : Nat :=
  if rightIndex n < h.length ∧ before desc (heapGet h (rightIndex n)) (heapGet h (leftIndex n)) = true then rightIndex n
  else leftIndex n

/-- Sift-down from index n (R172). `fuel` ≥ the array's length is enough, because every turn raises the index. -/
def siftDown (desc : Bool) : Nat → List Element → Nat → List Element
  | 0, h, _ => h
  | fuel + 1, h, n =>
    if leftIndex n < h.length ∧ before desc (heapGet h (chosenChild desc h n)) (heapGet h n) = true then
      siftDown desc fuel (heapSwap h (chosenChild desc h n) n) (chosenChild desc h n)
    else h

/-- The array after inserting one element: append once, sift up (R170). -/
def heapInsert (desc : Bool) (h : List Element) (e : Element) : List Element :=
  siftUp desc h.length (h ++ [e]) h.length

/-- The array after removing the first element (R172): the last element into the root position, sift down. -/
def heapRemove (desc : Bool) (h : List Element) : List Element :=
  match h.dropLast with
  | [] => []
  | _ :: rest => siftDown desc h.length (heapGet h (h.length - 1) :: rest) 0

/-- `HeapPush(e)` (R170). -/
def heapPush (e : Element) (s : State) : Res Unit :=
  if Config.pqCap ≤ s.heap.length then .raised .capacity s
  else .ok () (s.setHeap (heapInsert s.pqDesc s.heap e))

/-- `Top()` (R171). -/
def heapTop (s : State) : Res Element :=
  match s.heap with
  | [] => .raised .underflow s
  | out :: _ => .ok out s

/-- `HeapPop()` (R172). -/
def heapPop (s : State) : Res Element :=
  match s.heap with
  | [] => .raised .underflow s
  | out :: _ => .ok out (s.setHeap (heapRemove s.pqDesc s.heap))

/-- PUSH (R170). -/
def execPush (freq : Word) (tie node : Idx) (s : State) : Host.Outcome State Fault Refusal :=
  finishMicro (heapPush { freq := freq, tie := tie, node := node } s) fun _ _ => resultNone

/-- TOP (R171). -/
def execTop (s : State) : Host.Outcome State Fault Refusal :=
  finishMicro (heapTop s) fun e _ => resultElement e

/-- POP (R172). -/
def execPop (s : State) : Host.Outcome State Fault Refusal :=
  finishMicro (heapPop s) fun e _ => resultElement e

/-- SIZE (R173): RESULT is `pq_size`. -/
def execSize (s : State) : Host.Outcome State Fault Refusal :=
  .next (completeCommand 0 (resultWord (s.pqSize.setWidth 32)) s)

end Sys2Proof.Machine
end

