-- ==== Sys2Proof/Machine/TreeBuilder.lean ====
section
/-! DEFINITION. The frequency analyzer FREQ and the tree builder BUILD (43_tree_builder.md). -/

namespace Sys2Proof.Machine

/-- `freq[b] <- freq[b] + 1`, on 32 bits (R190). -/
def bumpFreq (f : Vector Word 256) (b : Byte) : Vector Word 256 :=
  f.set (symIndex b).val (f.get (symIndex b) + 1) (symIndex b).isLt

/-- FREQ's loop over the bytes of SRC (R190), one `SrcRead()` a turn; the byte over INBUF_CAP is taken and dropped. -/
def freqLoop : List Byte → State → Res Unit
  | [], s => .ok () s
  | r :: rest, s =>
    if s.inbuf.length = s.inbufCap then .raised .capacity (s.setInput s.inbuf s.freq rest)
    else freqLoop rest (s.setInput (s.inbuf ++ [r]) (bumpFreq s.freq r) rest)

/-- The pseudocode of FREQ (R190). -/
def analyze (s : State) : Res Unit :=
  (freqLoop s.src ((s.setInput [] (Vector.replicate 256 0) s.src).setCount 0)).bind fun _ s' =>
    .ok () (s'.setCount s'.inLen)

/-- FREQ (R190): RESULT is `in_len`. -/
def execFreq (s : State) : Host.Outcome State Fault Refusal :=
  finishMicro (analyze s) fun _ s' => resultWord s'.inLen

/-- BUILD's first loop (R195): a leaf record and a queue element for every symbol of a nonzero frequency. -/
def buildLeaves : List Byte → State → Res Unit
  | [], s => .ok () s
  | b :: bs, s =>
    if s.freqAt b = 0 then buildLeaves bs s
    else
      (heapPush { freq := s.freqAt b, tie := b.setWidth 9, node := nextNode s }
        (appendNode (leafRec b (s.freqAt b)) s)).bind fun _ s' => buildLeaves bs s'

/-- One turn of BUILD's second loop (R195): pop two, make their parent, push it with tie key 256 + j (D11). -/
def buildPair (j : Nat) (s : State) : Res Unit :=
  (heapPop s).bind fun a s1 =>
    (heapPop s1).bind fun b s2 =>
      heapPush { freq := a.freq + b.freq, tie := BitVec.ofNat 9 (256 + j), node := nextNode s2 }
        (appendNode (innerRec a.node b.node (a.freq + b.freq)) s2)

/-- BUILD's second loop (R195), while more than one element is queued. `fuel` ≥ `pq_size` is enough, because every turn
takes two elements and gives one. -/
def buildPairs : Nat → Nat → State → Res Unit
  | 0, _, s => .ok () s
  | fuel + 1, j, s =>
    if s.heap.length ≤ 1 then .ok () s
    else (buildPair j s).bind fun _ s' => buildPairs fuel (j + 1) s'

/-- BUILD's start (R195): a fresh ascending queue, no tree. -/
def buildStart (s : State) : State :=
  ({ s with pqDesc := false, heap := [] }.setArena []).setTree 0 true

/-- The pseudocode of BUILD (R195). -/
def buildTree (s : State) : Res Unit :=
  (buildLeaves allSymbols (buildStart s)).bind fun _ s1 =>
    if s1.heap.length = 0 then .ok () s1
    else
      (buildPairs s1.heap.length 0 s1).bind fun _ s2 =>
        (heapPop s2).bind fun r s3 => .ok () (s3.setTree r.node false)

/-- BUILD (R195): RESULT is `n_nodes`, NODE is `root`. -/
def execBuild (s : State) : Host.Outcome State Fault Refusal :=
  finishMicro (buildTree s) fun _ s' => { tie := 0, node := s'.root, result := s'.nNodes.setWidth 32 }

end Sys2Proof.Machine
end

