-- ==== Sys2Proof/Machine/Encoder.lean ====
section
/-! DEFINITION. The encoder path: CODES, WTREE, WCOUNT, WPAYLOAD and the macro command COMPRESS
(44_codec_encode.md), with the envelope COMPRESS shares with DECOMPRESS. -/

namespace Sys2Proof.Machine

/-! ### Code table -/

/-- Write one symbol's code. -/
def putCode (sym : Byte) (path : List Bool) (s : State) : State :=
  s.setCode (s.code.set (symIndex sym).val path (symIndex sym).isLt)

/-- `Walk(n, path)` (R210). `fuel` is the number of steps a path may still take: CODE_MAX at the root (R37). -/
def walkCodes : Nat → Idx → List Bool → State → Res Unit
  | fuel, n, path, s =>
    match s.nodeAt n with
    | none => .stuck .unwrittenNode
    | some r =>
      if r.leaf then .ok () (putCode r.sym path s)
      else
        match fuel with
        | 0 => .stuck .codeTooLong
        | k + 1 =>
          (walkCodes k r.left (path ++ [false]) s).bind fun _ s' => walkCodes k r.right (path ++ [true]) s'

/-- The pseudocode of CODES (R210): the table is cleared first; a single-leaf tree gives its symbol the code `<0>`. -/
def makeCodes (s : State) : Res Unit :=
  let s0 := s.setCode (Vector.replicate 256 [])
  if s0.treeEmpty then .ok () s0
  else
    match s0.nodeAt s0.root with
    | none => .stuck .unwrittenNode
    | some r => if r.leaf then .ok () (putCode r.sym [false] s0) else walkCodes Config.codeMax s0.root [] s0

/-- CODES (R210). -/
def execCodes (s : State) : Host.Outcome State Fault Refusal :=
  finishMicro (makeCodes s) fun _ _ => resultNone

/-! ### Tree, count, payload -/

/-- A leaf's bits (R70, R213): `PutBit(1) ; PutChar(sym)`. -/
def putLeaf (sym : Byte) (s : State) : Res Unit := (putBit true s).bind fun _ s' => putChar sym s'

/-- `Ser(n)` (R213). `fuel` is the number of entries the traversal stack still takes: STACK_CAP at the root (R39). -/
def serialize : Nat → Idx → State → Res Unit
  | fuel, n, s =>
    match s.nodeAt n with
    | none => .stuck .unwrittenNode
    | some r =>
      if r.leaf then putLeaf r.sym s
      else
        match fuel with
        | 0 => .stuck .traversalStackOverflow
        | k + 1 =>
          (putBit false s).bind fun _ s1 =>
            (serialize k r.left s1).bind fun _ s2 => serialize k r.right s2

/-- The pseudocode of WTREE (R213): the marker when there is no tree (D16). -/
def writeTree (s : State) : Res Unit :=
  if s.treeEmpty then putLeaf 0 s else serialize Config.stackCap s.root s

/-- WTREE (R213). -/
def execWtree (s : State) : Host.Outcome State Fault Refusal :=
  finishMicro (writeTree s) fun _ _ => resultNone

/-- The pseudocode of WCOUNT (R216). -/
def writeCount (s : State) : Res Unit := putInt s.count s

/-- WCOUNT (R216). -/
def execWcount (s : State) : Host.Outcome State Fault Refusal :=
  finishMicro (writeCount s) fun _ _ => resultNone

/-- WPAYLOAD's loop (R218): the code of each symbol of a sequence, bit by bit. -/
def payloadLoop : List Byte → State → Res Unit
  | [], s => .ok () s
  | b :: bs, s => (putBits (s.codeAt b) s).bind fun _ s' => payloadLoop bs s'

/-- The pseudocode of WPAYLOAD (R218). -/
def writePayload (s : State) : Res Unit := payloadLoop s.inbuf s

/-- WPAYLOAD (R218). -/
def execWpayload (s : State) : Host.Outcome State Fault Refusal :=
  finishMicro (writePayload s) fun _ _ => resultNone

/-! ### The macro envelope -/

/-- One phase of a macro command: its number (30_encoding.md R106) and its procedure. -/
structure Phase where
  number : BitVec 4
  run    : State → Res Unit

/-- How the phases of a macro command ended: the error and the phase that raised it, if any, and the state. -/
inductive PhasesEnd where
  | done   (s : State)
  | failed (e : Err) (phase : BitVec 4) (s : State)
  | stuck  (f : Fault)
  deriving DecidableEq, Repr

/-- "try in this order, stopping at the first that raises" (R225, R255). -/
def runPhases : List Phase → State → PhasesEnd
  | [], s => .done s
  | p :: ps, s =>
    match p.run s with
    | .ok _ s' => runPhases ps s'
    | .raised e s' => .failed e p.number s'
    | .stuck f => .stuck f

/-- The `Close()` at the end of a macro command (R225, R255). It cannot raise there, because the command's INIT opened the
writer; if it did, nothing would have changed (R146). -/
def closeAtEnd (s : State) : State :=
  match closeWriter s with
  | .ok _ s' => s'
  | .raised _ s' => s'
  | .stuck _ => s

/-- The envelope of COMPRESS and DECOMPRESS (R225, R255, D22): INIT 0, the phases, `Close()` on every path, the epilogue
with phase 7 or the failing phase's number. RESULT is `count`. -/
def runMacro (phases : List Phase) (s : State) : Host.Outcome State Fault Refusal :=
  match runPhases phases (initUnits false s) with
  | .done s' => .next (completeCommand phaseClose (resultWord (closeAtEnd s').count) (closeAtEnd s'))
  | .failed e p s' => .next (takeError e p (closeAtEnd s'))
  | .stuck f => .fault f

/-- COMPRESS's phases 1 to 6 (R225). -/
def compressPhases : List Phase :=
  [⟨phaseFreq, analyze⟩, ⟨phaseBuild, buildTree⟩, ⟨phaseCodes, makeCodes⟩, ⟨phaseWtree, writeTree⟩,
   ⟨phaseWcount, writeCount⟩, ⟨phaseWpayload, writePayload⟩]

/-- COMPRESS (R225). -/
def execCompress (s : State) : Host.Outcome State Fault Refusal := runMacro compressPhases s

end Sys2Proof.Machine
end

