-- ==== Sys2Proof/Machine/Decoder.lean ====
section
/-! DEFINITION. The decoder path: RTREE, RCOUNT, DECODE and the macro command DECOMPRESS (45_codec_decode.md). -/

namespace Sys2Proof.Machine

/-- `ReadNode()` (R240). `fuel` is the number of entries the traversal stack still takes, STACK_CAP at the root (R39);
every entry is a record allocated, so the Capacity check comes first and the stack never overflows. -/
def readNode : Nat → State → Res Idx
  | fuel, s =>
    (getBit s).bind fun b s1 =>
      if s1.node.length = Config.nodeCap then .raised .capacity s1
      else if b then
        (getChar (allocNode s1)).bind fun v s2 => .ok (nextNode s1) (writeNode (nextNode s1) (leafRec v 0) s2)
      else
        match fuel with
        | 0 => .stuck .traversalStackOverflow
        | k + 1 =>
          (readNode k (allocNode s1)).bind fun l s2 =>
            (readNode k s2).bind fun r s3 => .ok (nextNode s1) (writeNode (nextNode s1) (innerRec l r 0) s3)

/-- The pseudocode of RTREE (R240): `root` keeps its value until the whole tree is read. -/
def readTree (s : State) : Res Unit :=
  (readNode Config.stackCap ((s.setArena []).setTree s.root true)).bind fun r s' => .ok () (s'.setTree r false)

/-- RTREE (R240): RESULT is `n_nodes`, NODE is `root`. -/
def execRtree (s : State) : Host.Outcome State Fault Refusal :=
  finishMicro (readTree s) fun _ s' => { tie := 0, node := s'.root, result := s'.nNodes.setWidth 32 }

/-- The pseudocode of RCOUNT (R245): `count` is written only after the whole `GetInt()` (D28). -/
def readCount (s : State) : Res Unit := (getInt s).bind fun w s' => .ok () (s'.setCount w)

/-- RCOUNT (R245): RESULT is `count`. -/
def execRcount (s : State) : Host.Outcome State Fault Refusal :=
  finishMicro (readCount s) fun _ s' => resultWord s'.count

/-- The inner loop of DECODE (R248): from node n, one bit a step, until a leaf. Every step takes a bit, so a `fuel` of
`bitsLeft` never runs out: with no bit left `GetBit()` raises EndOfStream. -/
def descend : Nat → Idx → State → Res Byte
  | fuel, n, s =>
    match s.nodeAt n with
    | none => .stuck .unwrittenNode
    | some r =>
      if r.leaf then .ok r.sym s
      else
        (getBit s).bind fun b s' =>
          match fuel with
          | 0 => .stuck .traversalStackOverflow
          | k + 1 => descend k (if b then r.right else r.left) s'

/-- The symbol one turn of DECODE finds (R248): a single-leaf tree takes one bit and ignores it (D17). -/
def nextSymbol (s : State) : Res Byte :=
  match s.nodeAt s.root with
  | none => .stuck .unwrittenNode
  | some r => if r.leaf then (getBit s).bind fun _ s' => .ok r.sym s' else descend (bitsLeft s) s.root s

/-- One turn of DECODE's outer loop (R248): find a symbol, emit it. -/
def emitSymbol (s : State) : Res Unit := (nextSymbol s).bind putChar

/-- DECODE's outer loop (R248). -/
def decodeLoop : Nat → State → Res Unit
  | 0, s => .ok () s
  | n + 1, s => (emitSymbol s).bind fun _ s' => decodeLoop n s'

/-- The pseudocode of DECODE (R248). -/
def decodeSymbols (s : State) : Res Unit :=
  if s.count ≠ 0 ∧ s.treeEmpty = true then .raised .illegal s else decodeLoop s.count.toNat s

/-- DECODE (R248): RESULT is `count`. -/
def execDecode (s : State) : Host.Outcome State Fault Refusal :=
  finishMicro (decodeSymbols s) fun _ s' => resultWord s'.count

/-- DECOMPRESS's phases 8 to 10 (R255). -/
def decompressPhases : List Phase :=
  [⟨phaseRtree, readTree⟩, ⟨phaseRcount, readCount⟩, ⟨phaseDecode, decodeSymbols⟩]

/-- DECOMPRESS (R255). -/
def execDecompress (s : State) : Host.Outcome State Fault Refusal := runMacro decompressPhases s

end Sys2Proof.Machine
end

