-- ==== Sys2Proof/Machine/Dispatch.lean ====
section
/-! DEFINITION. One arm per command. -/

namespace Sys2Proof.Machine

def exec (i : Instr) (s : State) : Host.Outcome State Fault Refusal :=
  match i with
  | .init desc => Sys2Proof.Machine.execInit desc s
  | .stat sel => Sys2Proof.Machine.execStat sel s
  | .getbit => Sys2Proof.Machine.execGetbit s
  | .getchar => Sys2Proof.Machine.execGetchar s
  | .getint => Sys2Proof.Machine.execGetint s
  | .putbit b => Sys2Proof.Machine.execPutbit b s
  | .putchar v => Sys2Proof.Machine.execPutchar v s
  | .putint w => Sys2Proof.Machine.execPutint w s
  | .close => Sys2Proof.Machine.execClose s
  | .push freq tie node => Sys2Proof.Machine.execPush freq tie node s
  | .top => Sys2Proof.Machine.execTop s
  | .pop => Sys2Proof.Machine.execPop s
  | .size => Sys2Proof.Machine.execSize s
  | .freq => Sys2Proof.Machine.execFreq s
  | .build => Sys2Proof.Machine.execBuild s
  | .codes => Sys2Proof.Machine.execCodes s
  | .wtree => Sys2Proof.Machine.execWtree s
  | .wcount => Sys2Proof.Machine.execWcount s
  | .wpayload => Sys2Proof.Machine.execWpayload s
  | .compress => Sys2Proof.Machine.execCompress s
  | .rtree => Sys2Proof.Machine.execRtree s
  | .rcount => Sys2Proof.Machine.execRcount s
  | .decode => Sys2Proof.Machine.execDecode s
  | .decompress => Sys2Proof.Machine.execDecompress s

end Sys2Proof.Machine
end

