-- ==== Sys2Proof/Machine/Abandon.lean ====
section
/-! DEFINITION. A reset during a command (70_reset_and_hazards.md R300): "A reset during a command abandons the command
without a response; the bytes it had already taken from SRC or written to SNK stay taken and written." Every register is
reset, so what is left of the command is how far it had got in the streams: how many of its `SrcRead()`s that found a byte
and of its `SnkWrite()`s came before the reset (log 6). A number larger than the command's accesses is a reset after the
last access and before the response. -/

namespace Sys2Proof.Machine

/-- How many accesses to the streams lie between two states of one command: bytes taken and bytes written. -/
def streamAccesses (s u : State) : Nat := (s.src.length - u.src.length) + (u.snk.length - s.snk.length)

/-- The streams after the first n accesses of a piece of a command that starts in `s`, ends in `u`, and takes all its bytes
from SRC before it writes one to SNK. -/
def cutStreams (n : Nat) (s u : State) : State :=
  { s with
    src := s.src.drop (min n (s.src.length - u.src.length))
    snk := u.snk.take (s.snk.length + (n - (s.src.length - u.src.length))) }

/-- A piece of a command, cut after n accesses; if it makes fewer and ends without error, the rest of the command follows. -/
def cutPiece {α : Type} (n : Nat) (s : State) (r : Res α) (rest : Nat → State → Host.Outcome State Fault Refusal) :
    Host.Outcome State Fault Refusal :=
  match r with
  | .ok _ u => if n ≤ streamAccesses s u then .next (cutStreams n s u) else rest (n - streamAccesses s u) u
  | .raised _ u => .next (cutStreams n s u)
  | .stuck f => .fault f

/-- DECODE's outer loop (R248), cut: a symbol's bits are taken before the symbol is written, and it is written before the
next symbol's bits are taken. -/
def cutDecodeLoop : Nat → Nat → State → Host.Outcome State Fault Refusal
  | 0, _, s => .next s
  | k + 1, n, s => cutPiece n s (emitSymbol s) (cutDecodeLoop k)

/-- DECODE (R248), cut. -/
def cutDecode (n : Nat) (s : State) : Host.Outcome State Fault Refusal :=
  if s.count ≠ 0 ∧ s.treeEmpty = true then .next s else cutDecodeLoop s.count.toNat n s

/-- DECOMPRESS (R255), cut: RTREE and RCOUNT only take bytes, DECODE follows, the final `Close()` writes none. -/
def cutDecompress (n : Nat) (s : State) : Host.Outcome State Fault Refusal :=
  cutPiece n s (readTree (initUnits false s)) fun n1 s1 => cutPiece n1 s1 (readCount s1) cutDecode

/-- Any other command, cut: the readers and FREQ only take bytes, the writers only write bytes, COMPRESS takes all its bytes
in phase 1 and writes after it (R225), the rest touch no stream. -/
def cutWhole (i : Instr) (n : Nat) (s : State) : Host.Outcome State Fault Refusal :=
  match exec i s with
  | .next t => .next (cutStreams n s t)
  | .fault f => .fault f
  | .refused r => .refused r

/-- A command, cut after n accesses to the streams. -/
def cutCommand (i : Instr) (n : Nat) (s : State) : Host.Outcome State Fault Refusal :=
  match i with
  | .decode => cutDecode n s
  | .decompress => cutDecompress n s
  | .init _ | .stat _ | .getbit | .getchar | .getint | .putbit _ | .putchar _ | .putint _ | .close | .push _ _ _ | .top
  | .pop | .size | .freq | .build | .codes | .wtree | .wcount | .wpayload | .compress | .rtree | .rcount => cutWhole i n s

/-- Reset in the middle of a command that had got as far as `u` in the streams (R300): the state of R40, no response. -/
def resetAt (u s : State) : State :=
  resetUnits ((s.setReader s.rbuf s.rcnt u.src).setWriter s.wbuf s.wcnt u.snk)

/-- A command word arrives and is abandoned by a reset after n accesses to the streams (R300). A reserved word makes none. -/
def abandon (w : CmdWord) (n : Nat) (s : State) : Host.Outcome State Fault Refusal :=
  match Sys2Proof.decode w with
  | .reserved _ => .next (resetAt s s)
  | .instr i =>
    match cutCommand i n s with
    | .next u => .next (resetAt u s)
    | .fault f => .fault f
    | .refused r => .refused r

end Sys2Proof.Machine
end

