-- ==== Sys2Proof/Machine/Step.lean ====
section
/-! DEFINITION. One step of the machine: the host's next move, if any (70_reset_and_hazards.md R305; log 2). A command
word is decoded and run to completion, unless a reset abandons it (R300); a reserved word is an illegal command
(30_encoding.md R105). -/

namespace Sys2Proof.Machine

/-- A command word arrives (30_encoding.md R102, R105). -/
def issue (w : CmdWord) (s : State) : Host.Outcome State Fault Refusal :=
  match Sys2Proof.decode w with
  | .instr i => exec i s
  | .reserved _ => .next (illegalCommand s)

/-- One step: the first of the host's coming moves is taken off the queue and served. With none pending the engine is
idle and all state survives (60_exceptions.md R283). -/
def step (s : State) : Host.Outcome State Fault Refusal :=
  match s.inputs with
  | [] => .next s
  | .command w :: rest => issue w (s.setInputs rest)
  | .srcReplace bytes :: rest => .next (hostMove (.srcReplace bytes) (s.setInputs rest))
  | .srcAppend bytes :: rest => .next (hostMove (.srcAppend bytes) (s.setInputs rest))
  | .snkRemove start len :: rest => .next (hostMove (.snkRemove start len) (s.setInputs rest))
  | .snkClear :: rest => .next (hostMove .snkClear (s.setInputs rest))
  | .reset :: rest => .next (hostMove .reset (s.setInputs rest))
  | .resetDuring w n :: rest => abandon w n (s.setInputs rest)

/-- The state in which the host's very next move is this command word (the bits above `nbits` are 0). -/
def State.withFetchWord (s : State) (nbits w : Nat) : State :=
  s.setInputs (.command (Sys2Proof.tableWord nbits w) :: s.inputs)

end Sys2Proof.Machine
end

