-- ==== Sys2Proof/Safety.lean ====
section
/-! DEFINITION. The terms the claims use: the bit sequences still to be read and already written (20_memory.md R63,
41_bitstream.md R147, R148), the tree an arena holds (10_state.md R34) with its serialization (20_memory.md R70) and its
codes (44_codec_encode.md R210), a sequence of commands, and the invariants of the machine (R24, R32, R34, R191, the
ranges of 10_state.md). Nothing here is part of the machine; the machine never calls it. -/

namespace Sys2Proof.Machine

/-! ### Bits -/

/-- The number a sequence of bits stands for, most significant bit first (R64). -/
def bitsValue (bits : List Bool) : Nat := bits.foldl (fun v b => 2 * v + b.toNat) 0

/-- The bits the reader will return, in order: the unreturned bits of `rbuf`, then those of SRC (R22, R63). -/
def readerBits (s : State) : List Bool := lowBits s.rcnt.val s.rbuf ++ s.src.flatMap msbBits

/-- The bits put in SNK's bytes and in the partial group, in order (R24, R63). -/
def writerBits (s : State) : List Bool := s.snk.flatMap msbBits ++ lowBits s.wcnt.val s.wbuf

/-- `u` is `s` with these bits taken by the reader (R22, R140): only the reader and SRC change, the bits left are the rest,
and no byte is taken from SRC ahead of need. -/
def ConsumesBits (s u : State) (bits : List Bool) : Prop :=
  u = { s with rbuf := u.rbuf, rcnt := u.rcnt, src := u.src } ∧ u.src <:+ s.src
    ∧ readerBits s = bits ++ readerBits u ∧ (bits ≠ [] → u.rcnt.val < 8)

/-- `u` is `s` with these bits put by the writer (R23, R143): only the writer's buffer and SNK change, SNK only grows, and
the bits follow those already put. -/
def AppendsBits (s u : State) (bits : List Bool) : Prop :=
  u = { s with wbuf := u.wbuf, wcnt := u.wcnt, snk := u.snk } ∧ s.snk <+: u.snk
    ∧ writerBits u = writerBits s ++ bits

/-- The bits a put command gives the writer (R143 to R145). -/
def putBitsOf : Instr → List Bool
  | .putbit b => [b]
  | .putchar v => msbBits v
  | .putint w => msbBits w
  | .init _ | .stat _ | .getbit | .getchar | .getint | .close | .push _ _ _ | .top | .pop | .size | .freq | .build | .codes
  | .wtree | .wcount | .wpayload | .compress | .rtree | .rcount | .decode | .decompress => []

/-- The command is PUTBIT, PUTCHAR or PUTINT. -/
def isPut : Instr → Bool
  | .putbit _ | .putchar _ | .putint _ => true
  | .init _ | .stat _ | .getbit | .getchar | .getint | .close | .push _ _ _ | .top | .pop | .size | .freq | .build | .codes
  | .wtree | .wcount | .wpayload | .compress | .rtree | .rcount | .decode | .decompress => false

/-! ### Trees -/

/-- A binary tree with symbols at its leaves; every node carries its arena index (R33, R34). -/
inductive Tree where
  | leaf (index : Idx) (sym : Byte)
  | inner (index : Idx) (left right : Tree)
  deriving DecidableEq, Repr

/-- The arena index of the top node. -/
def Tree.index : Tree → Idx
  | .leaf i _ => i
  | .inner i _ _ => i

/-- The arena indices of all nodes, in preorder. -/
def Tree.indices : Tree → List Idx
  | .leaf i _ => [i]
  | .inner i l r => i :: (l.indices ++ r.indices)

/-- The symbols of the leaves, from left to right. -/
def Tree.symbols : Tree → List Byte
  | .leaf _ b => [b]
  | .inner _ l r => l.symbols ++ r.symbols

/-- The number of nodes. -/
def Tree.size : Tree → Nat
  | .leaf _ _ => 1
  | .inner _ l r => l.size + r.size + 1

/-- The longest root-to-leaf path. -/
def Tree.height : Tree → Nat
  | .leaf _ _ => 0
  | .inner _ l r => max l.height r.height + 1

/-- The tree is a single leaf. -/
def Tree.isLeaf : Tree → Bool
  | .leaf _ _ => true
  | .inner _ _ _ => false

/-- The serialized tree (R70). -/
def Tree.bits : Tree → List Bool
  | .leaf _ b => true :: msbBits b
  | .inner _ l r => false :: (l.bits ++ r.bits)

/-- The bits of each node alone, in preorder: flag and symbol of a leaf, the flag of an internal node (R70). -/
def Tree.heads : Tree → List (List Bool)
  | .leaf _ b => [true :: msbBits b]
  | .inner _ l r => [false] :: (l.heads ++ r.heads)

/-- Every leaf's symbol with its path from the top, left before right; `false` is left, `true` is right (R13, R210). -/
def Tree.paths : Tree → List (Byte × List Bool)
  | .leaf _ b => [(b, [])]
  | .inner _ l r => l.paths.map (fun p => (p.1, false :: p.2)) ++ r.paths.map (fun p => (p.1, true :: p.2))

/-- The code of a symbol (R210): the path of the last leaf that carries it, `<0>` in a single-leaf tree, nothing if no
leaf does. -/
def Tree.code (t : Tree) (b : Byte) : List Bool :=
  match t with
  | .leaf _ c => if b = c then [false] else []
  | .inner _ _ _ => (((t.paths.filter fun p => p.1 = b).getLast?).map Prod.snd).getD []

/-- The bits DECODE takes for one occurrence of a symbol (R248): a path from the top to a leaf that carries it; any one bit
if the tree is a single leaf. -/
def Tree.reads (t : Tree) (b : Byte) (bits : List Bool) : Prop :=
  match t with
  | .leaf _ c => b = c ∧ bits.length = 1
  | .inner _ _ _ => (b, bits) ∈ t.paths

/-- A reader with `buffered` bits that has taken `taken` bytes from SRC, in a command that takes `start` bits and then, symbol by
symbol, the bits of `l`, of which it has written the first `written` symbols (R248): the bits of every symbol written have
been taken, and no byte that the next symbol does not need (R140). -/
def DecodesInTurn (l : List (Byte × List Bool)) (buffered start taken written : Nat) : Prop :=
  (0 < written → written ≤ l.length → start + ((l.take written).flatMap Prod.snd).length ≤ buffered + 8 * taken)
  ∧ (0 < taken → written < l.length →
    buffered + 8 * (taken - 1) < start + ((l.take (written + 1)).flatMap Prod.snd).length)

/-- Same shape and same symbols; indices may differ (R34: "Node identity is irrelevant"). -/
def Tree.sameShape : Tree → Tree → Bool
  | .leaf _ b, .leaf _ c => decide (b = c)
  | .inner _ l r, .inner _ l' r' => l.sameShape l' && r.sameShape r'
  | .leaf _ _, .inner _ _ _ => false
  | .inner _ _ _, .leaf _ _ => false

/-- The tree and all trees below it. -/
def Tree.subtrees : Tree → List Tree
  | .leaf i b => [.leaf i b]
  | .inner i l r => .inner i l r :: (l.subtrees ++ r.subtrees)

/-- The arena's records at the tree's indices are written and spell the tree. -/
def represents (node : List (Option NodeRec)) : Tree → Bool
  | .leaf i b =>
    match (node[i.toNat]?).join with
    | some r => r.leaf && decide (r.sym = b)
    | none => false
  | .inner i l r =>
    (match (node[i.toNat]?).join with
    | some q => !q.leaf && decide (q.left = l.index) && decide (q.right = r.index)
    | none => false)
    && represents node l && represents node r

/-- The machine holds the tree T (R34): T's top is at `root`, its records are in the arena, and no record is reached
twice. -/
structure HoldsTree (s : State) (t : Tree) : Prop where
  present : s.treeEmpty = false
  top     : t.index = s.root
  records : represents s.node t = true
  owned   : t.indices.Nodup

/-! ### The tree BUILD makes, by the least-key rule alone

43_tree_builder.md R197: "A model may therefore replace the heap inside BUILD by any structure that returns the least key,
without changing any output". Here the structure is a list kept in ascending key order (10_state.md R31). -/

/-- A queued element with the tree its `node` field stands for. -/
abbrev Entry := Element × Tree

/-- Put an entry into its place in ascending key order. -/
def insertEntry (p : Entry) : List Entry → List Entry
  | [] => [p]
  | q :: qs => if (elementKey p.1).toNat < (elementKey q.1).toNat then p :: q :: qs else q :: insertEntry p qs

/-- The leaves, in the order of the symbols, numbered from n (R195). -/
def leafEntries (f : Vector Word 256) : List Byte → Nat → List Entry → List Entry
  | [], _, q => q
  | b :: bs, n, q =>
    if f.get (symIndex b) = 0 then leafEntries f bs n q
    else
      leafEntries f bs (n + 1)
        (insertEntry ({ freq := f.get (symIndex b), tie := b.setWidth 9, node := BitVec.ofNat 9 n },
          .leaf (BitVec.ofNat 9 n) b) q)

/-- Merge the two entries of least key until one is left; the j-th internal node has tie key 256 + j (R195, D11). -/
def mergeEntries : Nat → Nat → Nat → List Entry → List Entry
  | 0, _, _, q => q
  | fuel + 1, j, n, a :: b :: q =>
    mergeEntries fuel (j + 1) (n + 1)
      (insertEntry ({ freq := a.1.freq + b.1.freq, tie := BitVec.ofNat 9 (256 + j), node := BitVec.ofNat 9 n },
        .inner (BitVec.ofNat 9 n) a.2 b.2) q)
  | _ + 1, _, _, q => q

/-- The symbols of nonzero frequency, ascending. -/
def usedSymbols (f : Vector Word 256) : List Byte := allSymbols.filter fun b => f.get (symIndex b) ≠ 0

/-- The tree of a frequency table, if any symbol is used. -/
def huffmanTree (f : Vector Word 256) : Option Tree :=
  match mergeEntries (usedSymbols f).length 0 (usedSymbols f).length (leafEntries f allSymbols 0 []) with
  | [] => none
  | p :: _ => some p.2

/-- The frequency table of an input (R190). -/
def inputFreq (input : List Byte) : Vector Word 256 :=
  Vector.ofFn fun i => BitVec.ofNat 32 (input.count (BitVec.ofNat 8 i.val))

/-- The sum of the frequencies of a list of symbols, on 32 bits (R195). -/
def weight (f : Vector Word 256) (symbols : List Byte) : Word :=
  symbols.foldr (fun b w => f.get (symIndex b) + w) 0

/-- The record BUILD writes for the top node of a tree it makes (R195). -/
def recordOf (f : Vector Word 256) : Tree → NodeRec
  | .leaf _ b => leafRec b (f.get (symIndex b))
  | .inner _ l r => innerRec l.index r.index (weight f (l.symbols ++ r.symbols))

/-- Before padding, the artifact of an input (20_memory.md R69 to R72): the tree (the marker if the input is empty), the
32-bit count, the codes. -/
def artifactBits (input : List Byte) : List Bool :=
  match huffmanTree (inputFreq input) with
  | none => (true :: msbBits (0 : Byte)) ++ msbBits (BitVec.ofNat 32 input.length)
  | some t => t.bits ++ msbBits (BitVec.ofNat 32 input.length) ++ input.flatMap t.code

/-! ### Command words -/

/-- The bits of a command word that matter to a command: OP, RSV and the operand bits R101 takes (30_encoding.md R101). -/
def usedBits : Instr → CmdWord
  | .init _ | .putbit _ => packFields 0xFF 0x3F 0 0 1
  | .putchar _ => packFields 0xFF 0x3F 0 0 0xFF
  | .stat _ | .putint _ => packFields 0xFF 0x3F 0 0 0xFFFFFFFF
  | .push _ _ _ => packFields 0xFF 0x3F 0x1FF 0x1FF 0xFFFFFFFF
  | .getbit | .getchar | .getint | .close | .top | .pop | .size | .freq | .build | .codes | .wtree | .wcount
  | .wpayload | .compress | .rtree | .rcount | .decode | .decompress => packFields 0xFF 0x3F 0 0 0

/-- The 24 OP values of the opcode map (30_encoding.md R104). -/
def listedOps : List Nat :=
  [0x00, 0x01, 0x10, 0x11, 0x12, 0x18, 0x19, 0x1A, 0x1B, 0x20, 0x21, 0x22, 0x23, 0x30, 0x31, 0x40, 0x41, 0x42, 0x43,
   0x4F, 0x50, 0x51, 0x52, 0x5F]

/-! ### Command sequences -/

/-- Run commands one after another, the host leaving the streams alone. -/
def runCommands : List Instr → State → Host.Outcome State Fault Refusal
  | [], s => .next s
  | i :: is, s =>
    match exec i s with
    | .next t => runCommands is t
    | .fault f => .fault f
    | .refused r => .refused r

/-- A successful micro command's response carrying a result (R103). -/
def okResponse (x : Result) : Response := { err := 0, phase := 0, result := some x }

/-- A failed command's response (R103, R276). -/
def errResponse (e : Err) (phase : BitVec 4) : Response := { err := errCode e, phase := phase, result := none }

/-! ### Invariants -/

/-- The writer invariant (R24), and that a closed writer holds no partial group (R146). -/
def WriterInv (s : State) : Prop := s.wbuf.toNat < 2 ^ s.wcnt.val ∧ (s.wclosed = true → s.wcnt = 0)

/-- Every table memory holds at most the entries it has room for, and the open parameter is in its range (R6, R25, R27,
R33, R37). -/
def State.tablesWf (s : State) : Bool :=
  decide (1 ≤ s.inbufCap) && decide (s.inbufCap ≤ Config.inbufCapMax)
    && decide (s.inbuf.length ≤ s.inbufCap) && decide (s.heap.length ≤ Config.pqCap)
    && decide (s.node.length ≤ Config.nodeCap) && s.code.toList.all fun c => decide (c.length ≤ Config.codeMax)

/-- The heap order (R32): no element is before its parent. -/
def heapOrdered (desc : Bool) (h : List Element) : Prop :=
  ∀ n, 1 ≤ n → n < h.length → before desc (heapGet h n) (heapGet h (parentIndex n)) = false

/-- The heap invariant (R32). -/
def HeapInv (s : State) : Prop := heapOrdered s.pqDesc s.heap

/-- The tree invariant (R34). -/
def TreeInv (s : State) : Prop := s.treeEmpty = false → ∃ t, HoldsTree s t

/-- The frequency table counts the buffered input (R191). -/
def FreqInv (s : State) : Prop := ∀ b, (s.freqAt b).toNat = s.inbuf.count b

/-- The status registers hold codes the machine produces (R106: "11 to 15 never produced", R271: "7 to 15 never
produced"; FileAccess, code 3, is never raised, R273). -/
def StatusInv (s : State) : Prop := s.lastErr ∈ [0, 1, 2, 4, 5, 6] ∧ s.lastPhase.toNat ≤ 10

/-- All of them together. -/
structure Inv (s : State) : Prop where
  writer : WriterInv s
  tables : s.tablesWf = true
  heap   : HeapInv s
  tree   : TreeInv s
  freq   : FreqInv s
  status : StatusInv s

end Sys2Proof.Machine
end

