-- ==== Sys2Proof/Certificates/Slice0/Obligations.lean ====
section
/-! DEFINITION. The statements for the provers. Each says which rule of spec/ it formalises; the terms are those of
Sys2Proof/Safety.lean. A statement that ends in `exec i s = .next …` is the instruction's completion statement. -/

open Sys2Proof Sys2Proof.Machine

/-! ### Command words (30_encoding.md) -/

/-- R100, R104, R108: no operand bit is lost between the assembler's word and the decoded command. -/
def Obligations.DecodeOfEncode : Prop := ∀ i : Instr, decode (encode i) = .instr i

/-- R101, R102: a word that selects a command is the command's word on the bits the command uses, and the other bits are
ignored. -/
def Obligations.EncodeOfDecode : Prop :=
  ∀ (w : CmdWord) (i : Instr), decode w = .instr i →
    encode i = w &&& usedBits i ∧ ∀ v : CmdWord, v &&& usedBits i = w &&& usedBits i → decode v = .instr i

/-- R105: every word with an OP value not listed or a nonzero RSV is an illegal command, and so is a STAT selector above 4;
every other word is a command; 232 OP values are reserved. -/
def Obligations.ReservedWordIsIllegal : Prop :=
  (∀ (s : State) (w : CmdWord), rsvField w ≠ 0 ∨ (opField w).toNat ∉ listedOps →
      issue w s = .next { s with
        lastErr := 5, lastPhase := 0, resps := s.resps ++ [{ err := 5, phase := 0, result := none }] })
  ∧ (∀ w : CmdWord, rsvField w = 0 → (opField w).toNat ∈ listedOps → ∃ i, decode w = .instr i)
  ∧ (∀ (s : State) (sel : Word), 4 < sel.toNat →
      exec (.stat sel) s = .next { s with
        lastErr := 5, lastPhase := 0, resps := s.resps ++ [{ err := 5, phase := 0, result := none }] })
  ∧ ((List.range 256).filter fun op => op ∉ listedOps).length = 232

/-- R100, R104, R108: words written out from the encoding decode to the commands they stand for; the PUSH word is R108's
own example. -/
def Obligations.WordsDecode : Prop :=
  decode 0x0000000000000001 = .instr (.init true) ∧ decode 0x0100000000000004 = .instr (.stat 4)
  ∧ decode 0x1900000000000061 = .instr (.putchar 0x61) ∧ decode 0x2000C40100000002 = .instr (.push 2 0x62 1)
  ∧ decode 0x3100000000000000 = .instr .build ∧ decode 0x4F00000000000000 = .instr .compress
  ∧ decode 0x5F00000000000000 = .instr .decompress ∧ decode 0x1004000000000000 = .reserved .rsvNotZero

/-- R75, R102, R105: a step whose next input is a command word takes it off the queue and runs the decoded command; an
undecodable word is the illegal command. -/
def Obligations.StepRunsDecodedCommand : Prop :=
  ∀ (s : State) (w : CmdWord) (rest : List HostEvent), s.inputs = .command w :: rest →
    (∀ i, decode w = .instr i → step s = exec i { s with inputs := rest })
    ∧ ∀ y, decode w = .reserved y → step s = .next (illegalCommand { s with inputs := rest })

/-- R283, R300, R305 (and log 2: the host's moves stand in a queue, the model's choice): with no move pending all state
survives; a move of the host on SRC or SNK changes that stream only; the reset signal leaves the reset state and touches
neither stream. A reset during a command (and log 6: the move says how many accesses to the streams came before it, the
model's choice) leaves the reset state too, with no response; the bytes taken and written before it stay so: together as many
as the accesses, all taken before one is written, but that DECODE takes and writes symbol by symbol. -/
def Obligations.StepServesHost : Prop :=
  ∀ (s : State) (rest : List HostEvent),
    (s.inputs = [] → step s = .next s)
    ∧ (∀ l, s.inputs = .srcReplace l :: rest → step s = .next { s with inputs := rest, src := l })
    ∧ (∀ l, s.inputs = .srcAppend l :: rest → step s = .next { s with inputs := rest, src := s.src ++ l })
    ∧ (∀ a n, s.inputs = .snkRemove a n :: rest →
        step s = .next { s with inputs := rest, snk := s.snk.take a ++ s.snk.drop (a + n) })
    ∧ (s.inputs = .snkClear :: rest → step s = .next { s with inputs := rest, snk := [] })
    ∧ (s.inputs = .reset :: rest → step s = .next { State.reset with
        inbufCap := s.inbufCap, src := s.src, snk := s.snk, inputs := rest, resps := s.resps })
    ∧ ∀ (w : CmdWord) (n : Nat), s.inputs = .resetDuring w n :: rest →
      (∀ y, decode w = .reserved y → step s = .next { State.reset with
        inbufCap := s.inbufCap, src := s.src, snk := s.snk, inputs := rest, resps := s.resps })
      ∧ ∀ (i : Instr) (t : State), decode w = .instr i → exec i { s with inputs := rest } = .next t →
        ∃ taken written : Nat, step s = .next { State.reset with
            inbufCap := s.inbufCap, src := s.src.drop taken, snk := t.snk.take (s.snk.length + written), inputs := rest,
            resps := s.resps }
          ∧ taken ≤ s.src.length - t.src.length ∧ written ≤ t.snk.length - s.snk.length
          ∧ taken + written = min n ((s.src.length - t.src.length) + (t.snk.length - s.snk.length))
          ∧ (i ≠ .decode → i ≠ .decompress → 0 < written → taken = s.src.length - t.src.length)
          ∧ (i = .decode → ∀ (tree : Tree) (l : List (Byte × List Bool)) (more : List Bool), HoldsTree s tree →
            (∀ p ∈ l, tree.reads p.1 p.2) → readerBits s = l.flatMap Prod.snd ++ more → l.length ≤ s.count.toNat →
            s.wclosed = false → DecodesInTurn l s.rcnt.val 0 taken written)
          ∧ (i = .decompress → ∀ (tree : Tree) (c : Word) (l : List (Byte × List Bool)) (more : List Bool),
            s.src.flatMap msbBits = tree.bits ++ msbBits c ++ l.flatMap Prod.snd ++ more → tree.size ≤ Config.nodeCap →
            (∀ p ∈ l, tree.reads p.1 p.2) → l.length ≤ c.toNat →
            DecodesInTurn l 0 (tree.bits.length + 32) taken written)

/-! ### Reset, INIT, STAT, the epilogue (10_state.md, 40_control.md, 30_encoding.md) -/

/-- R40, R300: the state after reset, that `INIT 0` leaves the same state, and that a reset leaves it and touches neither
stream. The streams, the host's moves and the responses are not HUFFENG's state, and INBUF_CAP is a parameter of it. -/
def Obligations.ResetState : Prop :=
  (State.reset.rbuf = 0 ∧ State.reset.rcnt = 0 ∧ State.reset.wbuf = 0 ∧ State.reset.wcnt = 0
    ∧ State.reset.wclosed = false ∧ State.reset.pqSize = 0 ∧ State.reset.pqDesc = false ∧ State.reset.nNodes = 0
    ∧ State.reset.root = 0 ∧ State.reset.treeEmpty = true ∧ State.reset.count = 0 ∧ State.reset.inLen = 0
    ∧ State.reset.lastErr = 0 ∧ State.reset.lastPhase = 0
    ∧ (∀ b, State.reset.freqAt b = 0) ∧ ∀ b, State.reset.codeLen b = 0)
  ∧ (∀ s : State, exec (.init false) s = .next { State.reset with
      inbufCap := s.inbufCap, src := s.src, snk := s.snk, inputs := s.inputs, resps := s.resps ++ [okResponse resultNone] })
  ∧ (∀ (s : State) (rest : List HostEvent), s.inputs = .reset :: rest → step s = .next { State.reset with
      inbufCap := s.inbufCap, src := s.src, snk := s.snk, inputs := rest, resps := s.resps })

/-- R130: INIT, every register and table it writes; everything else stays. -/
def Obligations.InitClearsUnits : Prop :=
  ∀ (desc : Bool) (s : State), exec (.init desc) s = .next { s with
    rbuf := 0, rcnt := 0, wbuf := 0, wcnt := 0, wclosed := false, heap := [], pqDesc := desc, node := [], root := 0,
    treeEmpty := true, count := 0, inbuf := [], freq := Vector.replicate 256 0, code := Vector.replicate 256 [],
    lastErr := 0, lastPhase := 0, resps := s.resps ++ [okResponse resultNone] }

/-- R131: the five words STAT shows; a selector above 4 is an illegal command. -/
def Obligations.StatReadsStatus : Prop :=
  ∀ s : State,
    (∀ (sel v : Word), (sel, v) ∈ [((0 : Word), statusWord s), (1, s.count), (2, BitVec.ofNat 32 s.inbuf.length),
        (3, (BitVec.ofNat 9 s.node.length).setWidth 32), (4, s.root.setWidth 32)] →
      exec (.stat sel) s = .next { s with
        resps := s.resps ++ [{ err := 0, phase := s.lastPhase, result := some (resultWord v) }] })
    ∧ ∀ sel : Word, 4 < sel.toNat → exec (.stat sel) s = .next (illegalCommand s)

/-- R38: the fields of the status word. -/
def Obligations.StatusWordFields : Prop :=
  ∀ s : State,
    (statusWord s).extractLsb' 0 4 = s.lastErr ∧ (statusWord s).extractLsb' 4 4 = s.lastPhase
    ∧ ((statusWord s).extractLsb' 8 4).toNat = s.rcnt.val ∧ ((statusWord s).extractLsb' 12 3).toNat = s.wcnt.val
    ∧ (statusWord s).getLsbD 15 = s.wclosed ∧ (statusWord s).getLsbD 16 = s.pqDesc
    ∧ (statusWord s).getLsbD 17 = s.treeEmpty ∧ (statusWord s).extractLsb' 18 14 = 0

/-- R103: the fields of a response word; bits 55 to 50 are 0 in every response; the low 50 bits of a failed command's
have no value. -/
def Obligations.ResponseWordFields : Prop :=
  ∀ (r : Response) (undelivered : BitVec 50),
    (responseWord r undelivered).extractLsb' 60 4 = r.err ∧ (responseWord r undelivered).extractLsb' 56 4 = r.phase
    ∧ (responseWord r undelivered).extractLsb' 50 6 = 0
    ∧ ∀ x, r.result = some x → (responseWord r undelivered).extractLsb' 41 9 = x.tie
      ∧ (responseWord r undelivered).extractLsb' 32 9 = x.node ∧ (responseWord r undelivered).extractLsb' 0 32 = x.result

/-- R132, R103: every command that ends sends exactly one response, with its error code and the present `last_phase`; all
but a successful STAT record them; `last_phase` is 0 after a micro command and 7 exactly after a macro command that ran to
its end; a failed command delivers no result. -/
def Obligations.CommandEpilogue : Prop :=
  ∀ (i : Instr) (s t : State), exec i s = .next t → ∃ r : Response,
    t.resps = s.resps ++ [r] ∧ r.phase = t.lastPhase ∧ (r.result = none ↔ r.err ≠ 0)
    ∧ ((∀ sel, i ≠ .stat sel) ∨ r.err ≠ 0 → t.lastErr = r.err)
    ∧ ((∃ sel, i = .stat sel) → r.err = 0 → t = { s with resps := t.resps })
    ∧ ((∀ sel, i ≠ .stat sel) ∨ r.err ≠ 0 → i ≠ .compress → i ≠ .decompress → t.lastPhase = 0)
    ∧ (i = .compress ∨ i = .decompress → (r.err = 0 ↔ t.lastPhase = 7))

/-! ### Bit reader (41_bitstream.md) -/

/-- R140: GETBIT. -/
def Obligations.GetbitReturnsNextBit : Prop :=
  ∀ s : State,
    (s.rcnt = 0 → s.src = [] → exec .getbit s = .next (takeError .endOfStream 0 s))
    ∧ (∀ r rest, s.rcnt = 0 → s.src = r :: rest → exec .getbit s = .next
        (completeCommand 0 (resultWord ((BitVec.ofBool (r.getLsbD 7)).setWidth 32)) { s with rbuf := r, rcnt := 7, src := rest }))
    ∧ ∀ n : Fin 8, s.rcnt = n.succ → exec .getbit s = .next
        (completeCommand 0 (resultWord ((BitVec.ofBool (s.rbuf.getLsbD n.val)).setWidth 32)) { s with rcnt := n.castSucc })

/-- R141: GETCHAR, from every reader position, the error included. -/
def Obligations.GetcharReturnsNextByte : Prop :=
  ∀ s : State,
    (∀ c rest, s.rcnt.val < 8 → s.src = c :: rest → exec .getchar s = .next
        (completeCommand 0 (resultWord (((s.rbuf <<< (8 - s.rcnt.val)) ||| (c >>> s.rcnt.val)).setWidth 32))
          { s with rbuf := c, src := rest }))
    ∧ (s.rcnt = 8 → exec .getchar s = .next (completeCommand 0 (resultWord (s.rbuf.setWidth 32)) { s with rcnt := 0 }))
    ∧ (s.rcnt.val < 8 → s.src = [] → exec .getchar s = .next (takeError .endOfStream 0 { s with rcnt := 0 }))

/-- R142: GETINT, from every reader position, the error included. -/
def Obligations.GetintReturnsNextWord : Prop :=
  ∀ s : State,
    (32 ≤ (readerBits s).length → ∃ (w : Word) (u : State),
        exec .getint s = .next (completeCommand 0 (resultWord w) u) ∧ ConsumesBits s u (msbBits w))
    ∧ (∀ b0 b1 b2 b3 rest, s.rcnt = 0 → s.src = b0 :: b1 :: b2 :: b3 :: rest → exec .getint s = .next
        (completeCommand 0 (resultWord (b0 ++ b1 ++ b2 ++ b3)) { s with rbuf := b3, src := rest }))
    ∧ ((readerBits s).length < 32 → ∃ u : State,
        exec .getint s = .next (takeError .endOfStream 0 u) ∧ u = { s with rbuf := u.rbuf, rcnt := 0, src := [] })

/-- R148 (an inference of the spec): k GETBITs from an exhausted buffer return the first k bits of SRC and take
ceil(k / 8) bytes; the call after the last bit fails. -/
def Obligations.ReaderLaw : Prop :=
  ∀ (s : State) (k : Nat), s.rcnt = 0 → k ≤ 8 * s.src.length → ∃ t : State,
    runCommands (List.replicate k .getbit) s = .next t
    ∧ t.resps = s.resps ++ ((List.range k).map fun j =>
        okResponse (resultWord ((BitVec.ofBool ((s.src.getD (j / 8) 0).getLsbD (7 - j % 8))).setWidth 32)))
    ∧ t.src = s.src.drop ((k + 7) / 8)
    ∧ (k = 8 * s.src.length → exec .getbit t = .next (takeError .endOfStream 0 t))

/-! ### Bit writer (41_bitstream.md) -/

/-- R143: PUTBIT. -/
def Obligations.PutbitAppendsBit : Prop :=
  ∀ (b : Bool) (s : State),
    (s.wclosed = true → exec (.putbit b) s = .next (takeError .closed 0 s))
    ∧ (∀ n : Fin 7, s.wclosed = false → s.wcnt = n.castSucc → exec (.putbit b) s = .next
        (completeCommand 0 resultNone
          { s with wbuf := (s.wbuf <<< 1) ||| (BitVec.ofBool b).setWidth 8, wcnt := n.succ }))
    ∧ (s.wclosed = false → s.wcnt = 7 → exec (.putbit b) s = .next
        (completeCommand 0 resultNone
          { s with wbuf := 0, wcnt := 0, snk := s.snk ++ [(s.wbuf <<< 1) ||| (BitVec.ofBool b).setWidth 8] }))

/-- R144: PUTCHAR: the buffered bits and the high bits of the byte leave as one byte, the low bits stay. -/
def Obligations.PutcharAppendsByte : Prop :=
  ∀ (v : Byte) (s : State),
    (s.wclosed = true → exec (.putchar v) s = .next (takeError .closed 0 s))
    ∧ (s.wclosed = false → exec (.putchar v) s = .next (completeCommand 0 resultNone
        { s with
          wbuf := BitVec.ofNat 8 (v.toNat % 2 ^ s.wcnt.val)
          snk := s.snk ++ [((s.wbuf ++ v) >>> s.wcnt.val).setWidth 8] }))

/-- R145: PUTINT: four bytes leave, most significant first, after the buffered bits. -/
def Obligations.PutintAppendsWord : Prop :=
  ∀ (w : Word) (s : State),
    (s.wclosed = true → exec (.putint w) s = .next (takeError .closed 0 s))
    ∧ (s.wclosed = false → exec (.putint w) s = .next (completeCommand 0 resultNone
        { s with
          wbuf := BitVec.ofNat 8 (w.toNat % 2 ^ s.wcnt.val)
          snk := s.snk ++ [24, 16, 8, 0].map fun k => ((s.wbuf ++ w) >>> (s.wcnt.val + k)).setWidth 8 }))

/-- R146: CLOSE. -/
def Obligations.CloseFlushesOnce : Prop :=
  ∀ s : State,
    (s.wclosed = true → exec .close s = .next (takeError .closed 0 s))
    ∧ (s.wclosed = false → s.wcnt = 0 → exec .close s = .next (completeCommand 0 resultNone { s with wclosed := true }))
    ∧ (s.wclosed = false → s.wcnt ≠ 0 → exec .close s = .next (completeCommand 0 resultNone
        { s with wbuf := 0, wcnt := 0, wclosed := true, snk := s.snk ++ [s.wbuf <<< (8 - s.wcnt.val)] }))

/-- R147 (an inference of the spec): any mixture of puts and then CLOSE leaves SNK with the bits put, first in bit 7 of the
first byte, padded with zeros to ceil(T / 8) bytes. -/
def Obligations.WriterLaw : Prop :=
  ∀ (is : List Instr) (s : State), (∀ i ∈ is, isPut i = true) → s.wclosed = false → s.wcnt = 0 →
    ∃ (t : State) (bytes : List Byte), runCommands (is ++ [.close]) s = .next t
    ∧ t.snk = s.snk ++ bytes ∧ bytes.length = ((is.flatMap putBitsOf).length + 7) / 8
    ∧ (∀ k, k < 8 * bytes.length →
        (bytes.getD (k / 8) 0).getLsbD (7 - k % 8) = (is.flatMap putBitsOf).getD k false)
    ∧ t.wclosed = true ∧ t.wcnt = 0

/-- R24 (an inference of the spec), and that a closed writer holds no partial group: every step keeps it. -/
def Obligations.WriterInvariantKept : Prop :=
  ∀ s t : State, WriterInv s → step s = .next t → WriterInv t

/-! ### Priority queue (10_state.md section 6, 42_priority_queue.md) -/

/-- R31: the comparator: primary key, then secondary key, never the payload; a strict weak ordering. -/
def Obligations.ComparatorOrder : Prop :=
  (∀ a b : Element, before false a b = true ↔
      a.freq.toNat < b.freq.toNat ∨ a.freq = b.freq ∧ a.tie.toNat < b.tie.toNat)
  ∧ (∀ a b : Element, before true a b = before false b a)
  ∧ (∀ (d : Bool) (a : Element), before d a a = false)
  ∧ (∀ (d : Bool) (a b c : Element), before d a b = true → before d b c = true → before d a c = true)
  ∧ ∀ (d : Bool) (a b : Element), (before d a b = false ∧ before d b a = false) ↔ a.freq = b.freq ∧ a.tie = b.tie

/-- R170, R32: PUSH on a full queue changes nothing; otherwise the element is inserted once and the heap stays a heap. -/
def Obligations.PushInsertsOnce : Prop :=
  ∀ (f : Word) (tie node : Idx) (s : State),
    (s.heap.length = Config.pqCap → exec (.push f tie node) s = .next (takeError .capacity 0 s))
    ∧ (s.heap.length < Config.pqCap → ∃ h : List Element,
        exec (.push f tie node) s = .next (completeCommand 0 resultNone { s with heap := h })
        ∧ h.Perm ({ freq := f, tie := tie, node := node } :: s.heap)
        ∧ (heapOrdered s.pqDesc s.heap → heapOrdered s.pqDesc h))

/-- R171: TOP. -/
def Obligations.TopReturnsRoot : Prop :=
  ∀ s : State,
    (s.heap = [] → exec .top s = .next (takeError .underflow 0 s))
    ∧ ∀ e rest, s.heap = e :: rest → exec .top s = .next
        (completeCommand 0 { tie := e.tie, node := e.node, result := e.freq } s)

/-- R172, R32: POP returns the root and removes that one element; the heap stays a heap. -/
def Obligations.PopRemovesRoot : Prop :=
  ∀ s : State,
    (s.heap = [] → exec .pop s = .next (takeError .underflow 0 s))
    ∧ ∀ e rest, s.heap = e :: rest → ∃ h : List Element,
        exec .pop s = .next (completeCommand 0 { tie := e.tie, node := e.node, result := e.freq } { s with heap := h })
        ∧ h.Perm rest ∧ (heapOrdered s.pqDesc s.heap → heapOrdered s.pqDesc h)

/-- R170: PUSH on a full queue changes nothing; otherwise the element is appended once and moves up, past exactly the
parents it is strictly before, at most 8 of them; every other element stays where it was. `slot j` is where it stands after
j swaps. -/
def Obligations.PushSiftsUp : Prop :=
  ∀ (e : Element) (s : State) (slot : Nat → Nat), slot = (fun j => parentIndex^[j] s.heap.length) →
    (s.heap.length = Config.pqCap → exec (.push e.freq e.tie e.node) s = .next (takeError .capacity 0 s))
    ∧ (s.heap.length < Config.pqCap → ∃ (h : List Element) (k : Nat),
      exec (.push e.freq e.tie e.node) s = .next (completeCommand 0 resultNone { s with heap := h })
      ∧ h.length = s.heap.length + 1 ∧ k ≤ 8 ∧ heapGet h (slot k) = e
      ∧ (∀ j, j < k → 0 < slot j ∧ before s.pqDesc e (heapGet s.heap (slot (j + 1))) = true
        ∧ heapGet h (slot j) = heapGet s.heap (slot (j + 1)))
      ∧ (0 < slot k → before s.pqDesc e (heapGet s.heap (slot (k + 1))) = false)
      ∧ ∀ i, i < s.heap.length → (∀ j, j ≤ k → i ≠ slot j) → heapGet h i = heapGet s.heap i)

/-- R172: POP returns the root; the last element takes its place and moves down, each time to the child R172 chooses, past
exactly the children strictly before it, at most 8 of them; every other element stays where it was. `child i` is the child
chosen at index i. -/
def Obligations.PopSiftsDown : Prop :=
  ∀ (s : State) (child : Nat → Nat),
    (child = fun i =>
      if rightIndex i < s.heap.length - 1
          ∧ before s.pqDesc (heapGet s.heap (rightIndex i)) (heapGet s.heap (leftIndex i)) = true
      then rightIndex i else leftIndex i) →
    (s.heap = [] → exec .pop s = .next (takeError .underflow 0 s))
    ∧ (∀ e, s.heap = [e] → exec .pop s = .next
        (completeCommand 0 { tie := e.tie, node := e.node, result := e.freq } { s with heap := [] }))
    ∧ ∀ e b rest, s.heap = e :: b :: rest → ∃ (h : List Element) (k : Nat),
      exec .pop s = .next (completeCommand 0 { tie := e.tie, node := e.node, result := e.freq } { s with heap := h })
      ∧ h.length = s.heap.length - 1 ∧ (s.heap.length ≤ Config.pqCap → k ≤ 8)
      ∧ child^[k] 0 < h.length ∧ heapGet h (child^[k] 0) = heapGet s.heap h.length
      ∧ (∀ j, j < k → leftIndex (child^[j] 0) < h.length
        ∧ before s.pqDesc (heapGet s.heap (child^[j + 1] 0)) (heapGet s.heap h.length) = true
        ∧ heapGet h (child^[j] 0) = heapGet s.heap (child^[j + 1] 0))
      ∧ (leftIndex (child^[k] 0) < h.length →
        before s.pqDesc (heapGet s.heap (child^[k + 1] 0)) (heapGet s.heap h.length) = false)
      ∧ ∀ i, i < h.length → (∀ j, j ≤ k → i ≠ child^[j] 0) → heapGet h i = heapGet s.heap i

/-- R173: SIZE. -/
def Obligations.SizeCountsElements : Prop :=
  ∀ s : State, s.heap.length ≤ Config.pqCap → ∃ v : Word,
    exec .size s = .next (completeCommand 0 (resultWord v) s) ∧ v.toNat = s.heap.length

/-- R32 (an inference of the spec): every step keeps the heap order. -/
def Obligations.HeapInvariantKept : Prop :=
  ∀ s t : State, HeapInv s → step s = .next t → HeapInv t

/-- R174 (an inference of the spec): pushing elements into an empty queue and popping as many returns them all, no later one
before an earlier one. -/
def Obligations.QueueLaw : Prop :=
  ∀ (es : List Element) (s : State), s.heap = [] → es.length ≤ Config.pqCap → ∃ (t : State) (out : List Element),
    runCommands (es.map (fun e => .push e.freq e.tie e.node) ++ List.replicate es.length .pop) s = .next t
    ∧ t.resps = s.resps ++ List.replicate es.length (okResponse resultNone)
        ++ out.map (fun e => okResponse { tie := e.tie, node := e.node, result := e.freq })
    ∧ out.Perm es ∧ (out.Pairwise fun a b => before s.pqDesc b a = false) ∧ t.heap = []

/-! ### FREQ and BUILD (43_tree_builder.md) -/

/-- R190: FREQ on an input that fits, and on one that does not. -/
def Obligations.FreqCountsInput : Prop :=
  ∀ s : State,
    (s.src.length ≤ s.inbufCap → exec .freq s = .next
      (completeCommand 0 (resultWord (BitVec.ofNat 32 s.src.length))
        { s with inbuf := s.src, freq := inputFreq s.src, count := BitVec.ofNat 32 s.src.length, src := [] }))
    ∧ (s.inbufCap < s.src.length → exec .freq s = .next (takeError .capacity 0
        { s with
          inbuf := s.src.take s.inbufCap, freq := inputFreq (s.src.take s.inbufCap), count := 0,
          src := s.src.drop (s.inbufCap + 1) }))

/-- R191 (an inference of the spec): after FREQ the 256 frequencies, added as numbers, are `in_len`, none exceeds it, and
`count` is the same number; after Capacity the frequencies still add up to `in_len`, and `count` is 0. -/
def Obligations.FrequencySum : Prop :=
  ∀ s : State, s.tablesWf = true → ∃ t : State, exec .freq s = .next t
    ∧ (allSymbols.map fun b => (t.freqAt b).toNat).sum = t.inLen.toNat
    ∧ (∀ b, (t.freqAt b).toNat ≤ t.inLen.toNat)
    ∧ (s.src.length ≤ s.inbufCap → t.lastErr = 0 ∧ t.count = t.inLen ∧ t.inLen.toNat = s.src.length)
    ∧ (s.inbufCap < s.src.length → t.lastErr = 4 ∧ t.count = 0 ∧ t.inLen.toNat = s.inbufCap)

/-- R191 (an inference of the spec): every step keeps the frequency table counting the buffered input. -/
def Obligations.FrequencyInvariantKept : Prop :=
  ∀ s t : State, s.tablesWf = true → FreqInv s → step s = .next t → FreqInv t

/-- R195: BUILD from every frequency table: nothing for the empty one; else the tree of the least-key rule, leaves first in
ascending symbol order, root last, every record of the tree as BUILD writes it, with the sum of the frequencies below. -/
def Obligations.BuildMakesTree : Prop :=
  ∀ s : State,
    (usedSymbols s.freq = [] → exec .build s = .next (completeCommand 0 resultNone
      { s with pqDesc := false, heap := [], node := [], root := 0, treeEmpty := true }))
    ∧ (usedSymbols s.freq ≠ [] → ∃ (t : Tree) (u : State), huffmanTree s.freq = some t
      ∧ exec .build s = .next (completeCommand 0 { tie := 0, node := u.root, result := u.nNodes.setWidth 32 } u)
      ∧ u = { s with pqDesc := false, heap := [], node := u.node, root := u.root, treeEmpty := false }
      ∧ HoldsTree u t ∧ t.symbols.Perm (usedSymbols s.freq)
      ∧ u.node.length = 2 * (usedSymbols s.freq).length - 1
      ∧ u.root.toNat = 2 * (usedSymbols s.freq).length - 2
      ∧ u.node.take (usedSymbols s.freq).length
          = (usedSymbols s.freq).map (fun b => some (leafRec b (s.freqAt b)))
      ∧ ∀ v ∈ t.subtrees, u.nodeAt v.index = some (recordOf s.freq v))

/-- R196 (an inference of the spec): in the tree BUILD makes from a counted input, the record of every node holds as `freq`
the number of input bytes whose symbol is a leaf below it; the root's is `in_len`; no sum wraps. -/
def Obligations.BuildSumLaw : Prop :=
  ∀ (s : State) (t : Tree), s.tablesWf = true → FreqInv s → huffmanTree s.freq = some t → ∃ u : State,
    exec .build s = .next (completeCommand 0 { tie := 0, node := u.root, result := u.nNodes.setWidth 32 } u)
    ∧ HoldsTree u t
    ∧ (∀ v ∈ t.subtrees, ∃ r : NodeRec, u.nodeAt v.index = some r
      ∧ r.freq.toNat = (s.inbuf.filter fun b => b ∈ v.symbols).length)
    ∧ ∃ r : NodeRec, u.nodeAt u.root = some r ∧ r.freq.toNat = s.inbuf.length

/-! ### Encoder (44_codec_encode.md) -/

/-- R210: CODES: no code without a tree; else every symbol's path, the later of two leaves of one symbol winning, `<0>` for
a single-leaf tree. -/
def Obligations.CodesAreTreePaths : Prop :=
  ∀ s : State,
    (s.treeEmpty = true → exec .codes s = .next (completeCommand 0 resultNone { s with code := Vector.replicate 256 [] }))
    ∧ ∀ t : Tree, HoldsTree s t → s.node.length ≤ Config.nodeCap → ∃ c : Vector (List Bool) 256,
        exec .codes s = .next (completeCommand 0 resultNone { s with code := c })
        ∧ ∀ b : Byte, c.get (symIndex b) = t.code b

/-- R211 (an inference of the spec): after BUILD and CODES exactly the symbols of the input have a code, and no code is the
beginning of another. -/
def Obligations.PrefixLaw : Prop :=
  ∀ s : State, ∃ t : State, runCommands [.build, .codes] s = .next t
    ∧ (∀ b, t.codeAt b ≠ [] ↔ s.freqAt b ≠ 0)
    ∧ ∀ b c, t.codeAt b ≠ [] → t.codeAt b <+: t.codeAt c → b = c

/-- R213: WTREE. -/
def Obligations.WtreeWritesPreorder : Prop :=
  ∀ s : State,
    (s.treeEmpty = true → s.wclosed = false → ∃ u, exec .wtree s = .next (completeCommand 0 resultNone u)
      ∧ AppendsBits s u [true, false, false, false, false, false, false, false, false])
    ∧ (∀ t : Tree, HoldsTree s t → s.node.length ≤ Config.nodeCap → s.wclosed = false →
      ∃ u, exec .wtree s = .next (completeCommand 0 resultNone u) ∧ AppendsBits s u t.bits)
    ∧ (s.treeEmpty = true ∨ (∃ t, HoldsTree s t) ∧ s.node.length ≤ Config.nodeCap → s.wclosed = true →
      exec .wtree s = .next (takeError .closed 0 s))

/-- R216: WCOUNT. -/
def Obligations.WcountWritesCount : Prop :=
  ∀ s : State,
    (s.wclosed = false → ∃ u, exec .wcount s = .next (completeCommand 0 resultNone u) ∧ AppendsBits s u (msbBits s.count))
    ∧ (s.wclosed = true → exec .wcount s = .next (takeError .closed 0 s))

/-- R218: WPAYLOAD; on a closed writer it fails exactly if a bit is to be put. -/
def Obligations.WpayloadWritesCodes : Prop :=
  ∀ s : State,
    (s.wclosed = false → ∃ u, exec .wpayload s = .next (completeCommand 0 resultNone u)
      ∧ AppendsBits s u (s.inbuf.flatMap s.codeAt))
    ∧ (s.wclosed = true → (∀ b ∈ s.inbuf, s.codeAt b = []) →
      exec .wpayload s = .next (completeCommand 0 resultNone s))
    ∧ (s.wclosed = true → (∃ b ∈ s.inbuf, s.codeAt b ≠ []) → exec .wpayload s = .next (takeError .closed 0 s))

/-- R226 (an inference of the spec), R225: COMPRESS of an input that fits ends without error and appends the padded
artifact of that input; the rest of the state is INIT's, the input's tables and a closed writer. -/
def Obligations.CompressionLaw : Prop :=
  ∀ s : State, s.src.length ≤ s.inbufCap → ∃ (u : State) (artifact : List Byte),
    exec .compress s = .next (completeCommand 7 (resultWord (BitVec.ofNat 32 s.src.length)) u)
    ∧ u.snk = s.snk ++ artifact
    ∧ artifact.flatMap msbBits = artifactBits s.src
        ++ List.replicate ((8 - (artifactBits s.src).length % 8) % 8) false
    ∧ u = { s with
        rbuf := 0, rcnt := 0, wbuf := u.wbuf, wcnt := 0, wclosed := true, count := BitVec.ofNat 32 s.src.length,
        inbuf := s.src, freq := inputFreq s.src, heap := [], pqDesc := false, node := u.node, root := u.root,
        treeEmpty := u.treeEmpty, code := u.code, src := [], snk := u.snk }
    ∧ (huffmanTree (inputFreq s.src) = none → u.treeEmpty = true ∧ ∀ b, u.codeAt b = [])
    ∧ ∀ t, huffmanTree (inputFreq s.src) = some t → HoldsTree u t ∧ ∀ b, u.codeAt b = t.code b

/-- R225: COMPRESS of an input that is too long: Capacity in phase 1, the writer closed, nothing appended. -/
def Obligations.CompressTooLong : Prop :=
  ∀ s : State, s.inbufCap < s.src.length → exec .compress s = .next (takeError .capacity 1
    { s with
      rbuf := 0, rcnt := 0, wbuf := 0, wcnt := 0, wclosed := true, count := 0, inbuf := s.src.take s.inbufCap,
      freq := inputFreq (s.src.take s.inbufCap), heap := [], pqDesc := false, node := [], root := 0, treeEmpty := true,
      code := Vector.replicate 256 [], src := s.src.drop (s.inbufCap + 1) })

/-- R226 (an inference of the spec): compressing the same input twice yields the same bytes, whatever the rest of the
state. -/
def Obligations.CompressionDeterministic : Prop :=
  ∀ (s s' t t' : State), s.src = s'.src → s.src.length ≤ s.inbufCap → s'.src.length ≤ s'.inbufCap →
    exec .compress s = .next t → exec .compress s' = .next t' →
    ∃ artifact : List Byte, t.snk = s.snk ++ artifact ∧ t'.snk = s'.snk ++ artifact

/-- R109, with the abort rule of R225 and R255: a macro command whose phases raise no error leaves what its sequence of
micro commands leaves, but for `last_phase` and the responses; if one raises an error, the later phases are skipped, CLOSE
runs, and the one response carries the error and that phase's number. The four phases named are all that can fail: "No other
phase can fail" (R225). -/
def Obligations.MacroIsItsSequence : Prop :=
  (∀ (s t : State) (m : Instr) (seq : List Instr),
    (m, seq) ∈ [(Instr.compress, [.init false, .freq, .build, .codes, .wtree, .wcount, .wpayload, .close]),
        (Instr.decompress, [.init false, .rtree, .rcount, .decode, .close])] →
    runCommands seq s = .next t → (∀ r ∈ t.resps.drop s.resps.length, r.err = 0) →
    exec m s = .next { t with
      lastPhase := 7, resps := s.resps ++ [{ err := 0, phase := 7, result := some (resultWord t.count) }] })
  ∧ ∀ (s t u v : State) (m i : Instr) (earlier : List Instr) (p : BitVec 4),
    (m, earlier, i, p) ∈ [(Instr.compress, [.init false], .freq, 1), (Instr.decompress, [.init false], .rtree, 8),
        (Instr.decompress, [.init false, .rtree], .rcount, 9),
        (Instr.decompress, [.init false, .rtree, .rcount], .decode, 10)] →
    runCommands earlier s = .next t → (∀ r ∈ t.resps.drop s.resps.length, r.err = 0) →
    exec i t = .next u → u.lastErr ≠ 0 → exec .close u = .next v →
    exec m s = .next { v with
      lastErr := u.lastErr, lastPhase := p, resps := s.resps ++ [{ err := u.lastErr, phase := p, result := none }] }

/-! ### Decoder (45_codec_decode.md) -/

/-- R240, R241: from the bits of any tree of at most 511 nodes RTREE consumes them and no more, and builds that tree,
numbered in preorder, with no frequencies. Else it fails after the bits of the first k nodes of a larger tree and `part` of
the next node, and `root` keeps its value: with EndOfStream, every bit consumed, at a flag bit (of the 512th node too: the
flag is read before the arena is looked at, R278) or inside a leaf's symbol; with Capacity at the 512th node, its flag bit
consumed and no more. -/
def Obligations.RtreeRebuildsTree : Prop :=
  ∀ s : State,
    (∀ (t : Tree) (rest : List Bool), readerBits s = t.bits ++ rest → t.size ≤ Config.nodeCap → ∃ (u : State) (v : Tree),
      exec .rtree s = .next (completeCommand 0 { tie := 0, node := 0, result := BitVec.ofNat 32 t.size } u)
      ∧ u = { s with rbuf := u.rbuf, rcnt := u.rcnt, src := u.src, node := u.node, root := 0, treeEmpty := false }
      ∧ readerBits u = rest ∧ u.rcnt.val < 8 ∧ u.src <:+ s.src
      ∧ HoldsTree u v ∧ v.sameShape t = true ∧ v.indices = (List.range t.size).map (BitVec.ofNat 9)
      ∧ u.node.length = t.size ∧ ∀ i r, u.nodeAt i = some r → r.freq = 0)
    ∧ ((∀ t : Tree, t.size ≤ Config.nodeCap → ¬ t.bits <+: readerBits s) →
      ∃ (e : Err) (u : State) (t : Tree) (k : Nat) (part : List Bool), exec .rtree s = .next (takeError e 0 u)
      ∧ k < t.size ∧ readerBits s = (t.heads.take k).flatten ++ part ++ readerBits u
      ∧ (e = .endOfStream ∧ readerBits u = []
          ∧ (part = [] ∧ k ≤ Config.nodeCap ∧ u.node.length = k
            ∨ (∃ bits : List Bool, part = true :: bits ∧ bits.length < 8) ∧ k < Config.nodeCap ∧ u.node.length = k + 1)
        ∨ e = .capacity ∧ part.length = 1 ∧ k = Config.nodeCap ∧ u.node.length = Config.nodeCap)
      ∧ u = { s with rbuf := u.rbuf, rcnt := u.rcnt, src := u.src, node := u.node, treeEmpty := true })

/-- R245: RCOUNT. -/
def Obligations.RcountReadsCount : Prop :=
  ∀ s : State,
    (∀ (w : Word) (rest : List Bool), readerBits s = msbBits w ++ rest → ∃ u : State,
      exec .rcount s = .next (completeCommand 0 (resultWord w) { u with count := w })
      ∧ ConsumesBits s u (msbBits w) ∧ readerBits u = rest)
    ∧ ((readerBits s).length < 32 → ∃ u : State, exec .rcount s = .next (takeError .endOfStream 0 u)
      ∧ u = { s with rbuf := u.rbuf, rcnt := 0, src := [] })

/-- R248: DECODE: nothing for a count of 0; Illegal with no tree; else the symbols whose bits come next, one after another,
until `count` are emitted, or EndOfStream when the bits left hold no further symbol, or, on a closed writer, Closed after the
first symbol's bits. -/
def Obligations.DecodeWalksTree : Prop :=
  ∀ s : State,
    (s.count = 0 → exec .decode s = .next (completeCommand 0 (resultWord 0) s))
    ∧ (s.count ≠ 0 → s.treeEmpty = true → exec .decode s = .next (takeError .illegal 0 s))
    ∧ ∀ (t : Tree) (l : List (Byte × List Bool)) (rest : List Bool), HoldsTree s t → (∀ p ∈ l, t.reads p.1 p.2) →
      readerBits s = l.flatMap Prod.snd ++ rest →
      (l.length = s.count.toNat → s.wclosed = false → ∃ u : State,
        exec .decode s = .next (completeCommand 0 (resultWord s.count) u)
        ∧ u = { s with
            rbuf := u.rbuf, rcnt := u.rcnt, src := u.src, wbuf := u.wbuf, wcnt := u.wcnt, snk := u.snk }
        ∧ readerBits u = rest ∧ u.src <:+ s.src ∧ (s.rcnt.val < 8 → u.rcnt.val < 8)
        ∧ writerBits u = writerBits s ++ l.flatMap (fun p => msbBits p.1) ∧ s.snk <+: u.snk)
      ∧ (l.length < s.count.toNat → s.wclosed = false ∨ l = [] → (∀ b bits, t.reads b bits → ¬ bits <+: rest) →
        ∃ u : State,
        exec .decode s = .next (takeError .endOfStream 0 u)
        ∧ u = { s with rbuf := u.rbuf, rcnt := 0, src := [], wbuf := u.wbuf, wcnt := u.wcnt, snk := u.snk }
        ∧ writerBits u = writerBits s ++ l.flatMap (fun p => msbBits p.1) ∧ s.snk <+: u.snk)
      ∧ (∀ p, l = [p] → s.count ≠ 0 → s.wclosed = true → ∃ u : State,
        exec .decode s = .next (takeError .closed 0 u) ∧ ConsumesBits s u p.2)

/-- R255, R306: DECOMPRESS of a tree, a count and that many symbols ends without error, appends the symbols to SNK, closes
the writer and takes no byte of SRC beyond the one that holds the last bit. -/
def Obligations.DecompressDecodesArtifact : Prop :=
  ∀ (s : State) (t : Tree) (n : Word) (l : List (Byte × List Bool)) (rest : List Bool),
    s.src.flatMap msbBits = t.bits ++ msbBits n ++ l.flatMap Prod.snd ++ rest → t.size ≤ Config.nodeCap →
    l.length = n.toNat → (∀ p ∈ l, t.reads p.1 p.2) → ∃ (u : State) (v : Tree),
    exec .decompress s = .next (completeCommand 7 (resultWord n) u)
    ∧ u.snk = s.snk ++ l.map Prod.fst
    ∧ readerBits u = rest ∧ u.rcnt.val < 8 ∧ u.src <:+ s.src
    ∧ HoldsTree u v ∧ v.sameShape t = true
    ∧ u = { s with
        rbuf := u.rbuf, rcnt := u.rcnt, wbuf := 0, wcnt := 0, wclosed := true, count := n, inbuf := [],
        freq := Vector.replicate 256 0, heap := [], pqDesc := false, node := u.node, root := 0, treeEmpty := false,
        code := Vector.replicate 256 [], src := u.src, snk := u.snk }

/-- R73: DECOMPRESS has a defined result for every byte sequence and from every state: an output, or EndOfStream in phase 8,
9 or 10, or Capacity in phase 8. The writer is closed, there is a tree unless it failed in phase 8 (R255), and the queue, the
frequencies, the input buffer and the code table are as INIT leaves them. -/
def Obligations.DecompressAlwaysDefined : Prop :=
  ∀ s : State, ∃ t : State, exec .decompress s = .next t ∧ t.wclosed = true ∧ t.wcnt = 0
    ∧ (t.lastErr, t.lastPhase) ∈ [((0 : BitVec 4), (7 : BitVec 4)), (2, 8), (2, 9), (2, 10), (4, 8)]
    ∧ (t.treeEmpty = true ↔ t.lastPhase = 8)
    ∧ t = { s with
        rbuf := t.rbuf, rcnt := t.rcnt, wbuf := t.wbuf, wcnt := 0, wclosed := true, count := t.count, inbuf := [],
        freq := Vector.replicate 256 0, heap := [], pqDesc := false, node := t.node, root := t.root,
        treeEmpty := t.treeEmpty, code := Vector.replicate 256 [], src := t.src, snk := t.snk, lastErr := t.lastErr,
        lastPhase := t.lastPhase, resps := t.resps }

/-- R256 (an inference of the spec): what COMPRESS appends for an input, DECOMPRESS turns back into exactly that input,
whatever bytes follow, and takes no more than the artifact. -/
def Obligations.RoundTrip : Prop :=
  ∀ (s t s2 : State) (artifact more : List Byte), s.tablesWf = true → s.src.length ≤ s.inbufCap →
    exec .compress s = .next t → t.snk = s.snk ++ artifact → s2.src = artifact ++ more → ∃ t2 : State,
    exec .decompress s2 = .next t2 ∧ t2.snk = s2.snk ++ s.src ∧ t2.lastErr = 0 ∧ t2.lastPhase = 7
    ∧ t2.count.toNat = s.src.length ∧ t2.src = more

/-! ### The whole machine -/

/-- R310 (an inference of the spec): from every state that holds a tree where it says so, within its table bounds, every step
ends in a next state; no command hangs, faults or is refused. -/
def Obligations.EveryStepAnswers : Prop :=
  ∀ s : State, s.tablesWf = true → TreeInv s → ∃ t : State, step s = .next t

/-- R6, R25, R27, R33, R37: every step keeps the bounds of the table memories. -/
def Obligations.TableBoundsKept : Prop :=
  ∀ s t : State, s.tablesWf = true → step s = .next t → t.tablesWf = true

/-- R34 (an inference of the spec): every step keeps the tree invariant. -/
def Obligations.TreeInvariantKept : Prop :=
  ∀ s t : State, TreeInv s → step s = .next t → TreeInv t

/-- R106, R271: every step keeps the status registers to the codes and phase numbers that are ever produced. -/
def Obligations.StatusCodesKept : Prop :=
  ∀ s t : State, StatusInv s → step s = .next t → StatusInv t

/-- The state after reset meets every invariant. -/
def Obligations.ResetMeetsInvariants : Prop := Inv State.reset

/-- R61, R62: a command only takes bytes from the front of SRC and only appends to SNK; INBUF_CAP and the host's coming moves
(log 1, log 2) it leaves alone. -/
def Obligations.StreamsMoveForward : Prop :=
  ∀ (i : Instr) (s t : State), exec i s = .next t →
    t.src <:+ s.src ∧ s.snk <+: t.snk ∧ t.inbufCap = s.inbufCap ∧ t.inputs = s.inputs

/-- R22, R23 ("Written by"): the frames of the commands that read SRC or write SNK, errors included. -/
def Obligations.StreamCommandFrames : Prop :=
  ∀ s t : State,
    (∀ i ∈ [Instr.getbit, .getchar, .getint], exec i s = .next t →
      t = { s with
        rbuf := t.rbuf, rcnt := t.rcnt, src := t.src, lastErr := t.lastErr, lastPhase := 0, resps := t.resps })
    ∧ (∀ i, isPut i = true ∨ i ∈ [Instr.wtree, .wcount, .wpayload] → exec i s = .next t →
      t = { s with
        wbuf := t.wbuf, wcnt := t.wcnt, snk := t.snk, lastErr := t.lastErr, lastPhase := 0, resps := t.resps })
    ∧ (exec .close s = .next t →
      t = { s with
        wbuf := t.wbuf, wcnt := t.wcnt, wclosed := true, snk := t.snk, lastErr := t.lastErr, lastPhase := 0,
        resps := t.resps })
    ∧ (exec .decode s = .next t →
      t = { s with
        rbuf := t.rbuf, rcnt := t.rcnt, src := t.src, wbuf := t.wbuf, wcnt := t.wcnt, snk := t.snk,
        lastErr := t.lastErr, lastPhase := 0, resps := t.resps })
    ∧ (exec .rcount s = .next t →
      t = { s with
        rbuf := t.rbuf, rcnt := t.rcnt, src := t.src, count := t.count, lastErr := t.lastErr, lastPhase := 0,
        resps := t.resps })
    ∧ (exec .rtree s = .next t →
      t = { s with
        rbuf := t.rbuf, rcnt := t.rcnt, src := t.src, node := t.node, root := t.root, treeEmpty := t.treeEmpty,
        lastErr := t.lastErr, lastPhase := 0, resps := t.resps })

/-- R27, R33, R35, R36, R37 ("Written by"): the frames of the queue commands and of FREQ, BUILD and CODES, errors included. -/
def Obligations.TableCommandFrames : Prop :=
  ∀ s t : State,
    (∀ i, i ∈ [Instr.top, .size] → exec i s = .next t →
      t = { s with lastErr := t.lastErr, lastPhase := 0, resps := t.resps })
    ∧ (∀ i, i = .pop ∨ (∃ f tie node, i = .push f tie node) → exec i s = .next t →
      t = { s with heap := t.heap, lastErr := t.lastErr, lastPhase := 0, resps := t.resps })
    ∧ (exec .freq s = .next t →
      t = { s with
        inbuf := t.inbuf, freq := t.freq, count := t.count, src := t.src, lastErr := t.lastErr, lastPhase := 0,
        resps := t.resps })
    ∧ (exec .build s = .next t →
      t = { s with
        pqDesc := false, heap := [], node := t.node, root := t.root, treeEmpty := t.treeEmpty, lastErr := 0,
        lastPhase := 0, resps := t.resps })
    ∧ (exec .codes s = .next t → t = { s with code := t.code, lastErr := 0, lastPhase := 0, resps := t.resps })

/-- R277 (an inference of the spec): the errors each command can end with. -/
def Obligations.ErrorsOfCommands : Prop :=
  ∀ (i : Instr) (s t : State), exec i s = .next t → ∃ r : Response, t.resps = s.resps ++ [r] ∧
    match i with
    | .init _ | .size | .build | .codes => r.err = 0
    | .stat sel => r.err = if sel.toNat ≤ 4 then 0 else 5
    | .getbit | .getchar | .getint | .rcount => r.err ∈ [0, 2]
    | .putbit _ | .putchar _ | .putint _ | .close | .wtree | .wcount | .wpayload =>
      r.err ∈ [0, 6] ∧ (r.err = 6 → s.wclosed = true)
    | .push _ _ _ => r.err = if s.heap.length < Config.pqCap then 0 else 4
    | .top | .pop => r.err = if s.heap = [] then 1 else 0
    | .freq | .compress => r.err = if s.src.length ≤ s.inbufCap then 0 else 4
    | .rtree => r.err ∈ [0, 2, 4]
    | .decode => r.err ∈ [0, 2, 5, 6] ∧ (r.err = 5 ↔ s.count ≠ 0 ∧ s.treeEmpty = true) ∧ (r.err = 6 → s.wclosed = true)
    | .decompress => r.err ∈ [0, 2, 4]
end

