-- ==== Sys2Proof/Laws/State.lean ====
section
/-! SUPPORT. What each named update of State leaves in each field, by `rfl`, so that no later proof unfolds a record
update. -/

namespace Sys2Proof.Machine

variable (s : State)

/-! ### setReader -/

@[simp] theorem State.setReader_rbuf (a : Byte) (n : Fin 9) (l : List Byte) : (s.setReader a n l).rbuf = a := rfl
@[simp] theorem State.setReader_rcnt (a : Byte) (n : Fin 9) (l : List Byte) : (s.setReader a n l).rcnt = n := rfl
@[simp] theorem State.setReader_wbuf (a : Byte) (n : Fin 9) (l : List Byte) : (s.setReader a n l).wbuf = s.wbuf := rfl
@[simp] theorem State.setReader_wcnt (a : Byte) (n : Fin 9) (l : List Byte) : (s.setReader a n l).wcnt = s.wcnt := rfl
@[simp] theorem State.setReader_wclosed (a : Byte) (n : Fin 9) (l : List Byte) : (s.setReader a n l).wclosed = s.wclosed := rfl
@[simp] theorem State.setReader_count (a : Byte) (n : Fin 9) (l : List Byte) : (s.setReader a n l).count = s.count := rfl
@[simp] theorem State.setReader_inbuf (a : Byte) (n : Fin 9) (l : List Byte) : (s.setReader a n l).inbuf = s.inbuf := rfl
@[simp] theorem State.setReader_freq (a : Byte) (n : Fin 9) (l : List Byte) : (s.setReader a n l).freq = s.freq := rfl
@[simp] theorem State.setReader_heap (a : Byte) (n : Fin 9) (l : List Byte) : (s.setReader a n l).heap = s.heap := rfl
@[simp] theorem State.setReader_pqDesc (a : Byte) (n : Fin 9) (l : List Byte) : (s.setReader a n l).pqDesc = s.pqDesc := rfl
@[simp] theorem State.setReader_node (a : Byte) (n : Fin 9) (l : List Byte) : (s.setReader a n l).node = s.node := rfl
@[simp] theorem State.setReader_root (a : Byte) (n : Fin 9) (l : List Byte) : (s.setReader a n l).root = s.root := rfl
@[simp] theorem State.setReader_treeEmpty (a : Byte) (n : Fin 9) (l : List Byte) : (s.setReader a n l).treeEmpty = s.treeEmpty := rfl
@[simp] theorem State.setReader_code (a : Byte) (n : Fin 9) (l : List Byte) : (s.setReader a n l).code = s.code := rfl
@[simp] theorem State.setReader_lastErr (a : Byte) (n : Fin 9) (l : List Byte) : (s.setReader a n l).lastErr = s.lastErr := rfl
@[simp] theorem State.setReader_lastPhase (a : Byte) (n : Fin 9) (l : List Byte) : (s.setReader a n l).lastPhase = s.lastPhase := rfl
@[simp] theorem State.setReader_inbufCap (a : Byte) (n : Fin 9) (l : List Byte) : (s.setReader a n l).inbufCap = s.inbufCap := rfl
@[simp] theorem State.setReader_src (a : Byte) (n : Fin 9) (l : List Byte) : (s.setReader a n l).src = l := rfl
@[simp] theorem State.setReader_snk (a : Byte) (n : Fin 9) (l : List Byte) : (s.setReader a n l).snk = s.snk := rfl
@[simp] theorem State.setReader_inputs (a : Byte) (n : Fin 9) (l : List Byte) : (s.setReader a n l).inputs = s.inputs := rfl
@[simp] theorem State.setReader_resps (a : Byte) (n : Fin 9) (l : List Byte) : (s.setReader a n l).resps = s.resps := rfl

/-! ### setWriter -/

@[simp] theorem State.setWriter_rbuf (a : Byte) (n : Fin 8) (l : List Byte) : (s.setWriter a n l).rbuf = s.rbuf := rfl
@[simp] theorem State.setWriter_rcnt (a : Byte) (n : Fin 8) (l : List Byte) : (s.setWriter a n l).rcnt = s.rcnt := rfl
@[simp] theorem State.setWriter_wbuf (a : Byte) (n : Fin 8) (l : List Byte) : (s.setWriter a n l).wbuf = a := rfl
@[simp] theorem State.setWriter_wcnt (a : Byte) (n : Fin 8) (l : List Byte) : (s.setWriter a n l).wcnt = n := rfl
@[simp] theorem State.setWriter_wclosed (a : Byte) (n : Fin 8) (l : List Byte) : (s.setWriter a n l).wclosed = s.wclosed := rfl
@[simp] theorem State.setWriter_count (a : Byte) (n : Fin 8) (l : List Byte) : (s.setWriter a n l).count = s.count := rfl
@[simp] theorem State.setWriter_inbuf (a : Byte) (n : Fin 8) (l : List Byte) : (s.setWriter a n l).inbuf = s.inbuf := rfl
@[simp] theorem State.setWriter_freq (a : Byte) (n : Fin 8) (l : List Byte) : (s.setWriter a n l).freq = s.freq := rfl
@[simp] theorem State.setWriter_heap (a : Byte) (n : Fin 8) (l : List Byte) : (s.setWriter a n l).heap = s.heap := rfl
@[simp] theorem State.setWriter_pqDesc (a : Byte) (n : Fin 8) (l : List Byte) : (s.setWriter a n l).pqDesc = s.pqDesc := rfl
@[simp] theorem State.setWriter_node (a : Byte) (n : Fin 8) (l : List Byte) : (s.setWriter a n l).node = s.node := rfl
@[simp] theorem State.setWriter_root (a : Byte) (n : Fin 8) (l : List Byte) : (s.setWriter a n l).root = s.root := rfl
@[simp] theorem State.setWriter_treeEmpty (a : Byte) (n : Fin 8) (l : List Byte) : (s.setWriter a n l).treeEmpty = s.treeEmpty := rfl
@[simp] theorem State.setWriter_code (a : Byte) (n : Fin 8) (l : List Byte) : (s.setWriter a n l).code = s.code := rfl
@[simp] theorem State.setWriter_lastErr (a : Byte) (n : Fin 8) (l : List Byte) : (s.setWriter a n l).lastErr = s.lastErr := rfl
@[simp] theorem State.setWriter_lastPhase (a : Byte) (n : Fin 8) (l : List Byte) : (s.setWriter a n l).lastPhase = s.lastPhase := rfl
@[simp] theorem State.setWriter_inbufCap (a : Byte) (n : Fin 8) (l : List Byte) : (s.setWriter a n l).inbufCap = s.inbufCap := rfl
@[simp] theorem State.setWriter_src (a : Byte) (n : Fin 8) (l : List Byte) : (s.setWriter a n l).src = s.src := rfl
@[simp] theorem State.setWriter_snk (a : Byte) (n : Fin 8) (l : List Byte) : (s.setWriter a n l).snk = l := rfl
@[simp] theorem State.setWriter_inputs (a : Byte) (n : Fin 8) (l : List Byte) : (s.setWriter a n l).inputs = s.inputs := rfl
@[simp] theorem State.setWriter_resps (a : Byte) (n : Fin 8) (l : List Byte) : (s.setWriter a n l).resps = s.resps := rfl

/-! ### setHeap -/

@[simp] theorem State.setHeap_rbuf (h : List Element) : (s.setHeap h).rbuf = s.rbuf := rfl
@[simp] theorem State.setHeap_rcnt (h : List Element) : (s.setHeap h).rcnt = s.rcnt := rfl
@[simp] theorem State.setHeap_wbuf (h : List Element) : (s.setHeap h).wbuf = s.wbuf := rfl
@[simp] theorem State.setHeap_wcnt (h : List Element) : (s.setHeap h).wcnt = s.wcnt := rfl
@[simp] theorem State.setHeap_wclosed (h : List Element) : (s.setHeap h).wclosed = s.wclosed := rfl
@[simp] theorem State.setHeap_count (h : List Element) : (s.setHeap h).count = s.count := rfl
@[simp] theorem State.setHeap_inbuf (h : List Element) : (s.setHeap h).inbuf = s.inbuf := rfl
@[simp] theorem State.setHeap_freq (h : List Element) : (s.setHeap h).freq = s.freq := rfl
@[simp] theorem State.setHeap_heap (h : List Element) : (s.setHeap h).heap = h := rfl
@[simp] theorem State.setHeap_pqDesc (h : List Element) : (s.setHeap h).pqDesc = s.pqDesc := rfl
@[simp] theorem State.setHeap_node (h : List Element) : (s.setHeap h).node = s.node := rfl
@[simp] theorem State.setHeap_root (h : List Element) : (s.setHeap h).root = s.root := rfl
@[simp] theorem State.setHeap_treeEmpty (h : List Element) : (s.setHeap h).treeEmpty = s.treeEmpty := rfl
@[simp] theorem State.setHeap_code (h : List Element) : (s.setHeap h).code = s.code := rfl
@[simp] theorem State.setHeap_lastErr (h : List Element) : (s.setHeap h).lastErr = s.lastErr := rfl
@[simp] theorem State.setHeap_lastPhase (h : List Element) : (s.setHeap h).lastPhase = s.lastPhase := rfl
@[simp] theorem State.setHeap_inbufCap (h : List Element) : (s.setHeap h).inbufCap = s.inbufCap := rfl
@[simp] theorem State.setHeap_src (h : List Element) : (s.setHeap h).src = s.src := rfl
@[simp] theorem State.setHeap_snk (h : List Element) : (s.setHeap h).snk = s.snk := rfl
@[simp] theorem State.setHeap_inputs (h : List Element) : (s.setHeap h).inputs = s.inputs := rfl
@[simp] theorem State.setHeap_resps (h : List Element) : (s.setHeap h).resps = s.resps := rfl

/-! ### setArena -/

@[simp] theorem State.setArena_rbuf (l : List (Option NodeRec)) : (s.setArena l).rbuf = s.rbuf := rfl
@[simp] theorem State.setArena_rcnt (l : List (Option NodeRec)) : (s.setArena l).rcnt = s.rcnt := rfl
@[simp] theorem State.setArena_wbuf (l : List (Option NodeRec)) : (s.setArena l).wbuf = s.wbuf := rfl
@[simp] theorem State.setArena_wcnt (l : List (Option NodeRec)) : (s.setArena l).wcnt = s.wcnt := rfl
@[simp] theorem State.setArena_wclosed (l : List (Option NodeRec)) : (s.setArena l).wclosed = s.wclosed := rfl
@[simp] theorem State.setArena_count (l : List (Option NodeRec)) : (s.setArena l).count = s.count := rfl
@[simp] theorem State.setArena_inbuf (l : List (Option NodeRec)) : (s.setArena l).inbuf = s.inbuf := rfl
@[simp] theorem State.setArena_freq (l : List (Option NodeRec)) : (s.setArena l).freq = s.freq := rfl
@[simp] theorem State.setArena_heap (l : List (Option NodeRec)) : (s.setArena l).heap = s.heap := rfl
@[simp] theorem State.setArena_pqDesc (l : List (Option NodeRec)) : (s.setArena l).pqDesc = s.pqDesc := rfl
@[simp] theorem State.setArena_node (l : List (Option NodeRec)) : (s.setArena l).node = l := rfl
@[simp] theorem State.setArena_root (l : List (Option NodeRec)) : (s.setArena l).root = s.root := rfl
@[simp] theorem State.setArena_treeEmpty (l : List (Option NodeRec)) : (s.setArena l).treeEmpty = s.treeEmpty := rfl
@[simp] theorem State.setArena_code (l : List (Option NodeRec)) : (s.setArena l).code = s.code := rfl
@[simp] theorem State.setArena_lastErr (l : List (Option NodeRec)) : (s.setArena l).lastErr = s.lastErr := rfl
@[simp] theorem State.setArena_lastPhase (l : List (Option NodeRec)) : (s.setArena l).lastPhase = s.lastPhase := rfl
@[simp] theorem State.setArena_inbufCap (l : List (Option NodeRec)) : (s.setArena l).inbufCap = s.inbufCap := rfl
@[simp] theorem State.setArena_src (l : List (Option NodeRec)) : (s.setArena l).src = s.src := rfl
@[simp] theorem State.setArena_snk (l : List (Option NodeRec)) : (s.setArena l).snk = s.snk := rfl
@[simp] theorem State.setArena_inputs (l : List (Option NodeRec)) : (s.setArena l).inputs = s.inputs := rfl
@[simp] theorem State.setArena_resps (l : List (Option NodeRec)) : (s.setArena l).resps = s.resps := rfl

/-! ### setTree -/

@[simp] theorem State.setTree_rbuf (r : Idx) (e : Bool) : (s.setTree r e).rbuf = s.rbuf := rfl
@[simp] theorem State.setTree_rcnt (r : Idx) (e : Bool) : (s.setTree r e).rcnt = s.rcnt := rfl
@[simp] theorem State.setTree_wbuf (r : Idx) (e : Bool) : (s.setTree r e).wbuf = s.wbuf := rfl
@[simp] theorem State.setTree_wcnt (r : Idx) (e : Bool) : (s.setTree r e).wcnt = s.wcnt := rfl
@[simp] theorem State.setTree_wclosed (r : Idx) (e : Bool) : (s.setTree r e).wclosed = s.wclosed := rfl
@[simp] theorem State.setTree_count (r : Idx) (e : Bool) : (s.setTree r e).count = s.count := rfl
@[simp] theorem State.setTree_inbuf (r : Idx) (e : Bool) : (s.setTree r e).inbuf = s.inbuf := rfl
@[simp] theorem State.setTree_freq (r : Idx) (e : Bool) : (s.setTree r e).freq = s.freq := rfl
@[simp] theorem State.setTree_heap (r : Idx) (e : Bool) : (s.setTree r e).heap = s.heap := rfl
@[simp] theorem State.setTree_pqDesc (r : Idx) (e : Bool) : (s.setTree r e).pqDesc = s.pqDesc := rfl
@[simp] theorem State.setTree_node (r : Idx) (e : Bool) : (s.setTree r e).node = s.node := rfl
@[simp] theorem State.setTree_root (r : Idx) (e : Bool) : (s.setTree r e).root = r := rfl
@[simp] theorem State.setTree_treeEmpty (r : Idx) (e : Bool) : (s.setTree r e).treeEmpty = e := rfl
@[simp] theorem State.setTree_code (r : Idx) (e : Bool) : (s.setTree r e).code = s.code := rfl
@[simp] theorem State.setTree_lastErr (r : Idx) (e : Bool) : (s.setTree r e).lastErr = s.lastErr := rfl
@[simp] theorem State.setTree_lastPhase (r : Idx) (e : Bool) : (s.setTree r e).lastPhase = s.lastPhase := rfl
@[simp] theorem State.setTree_inbufCap (r : Idx) (e : Bool) : (s.setTree r e).inbufCap = s.inbufCap := rfl
@[simp] theorem State.setTree_src (r : Idx) (e : Bool) : (s.setTree r e).src = s.src := rfl
@[simp] theorem State.setTree_snk (r : Idx) (e : Bool) : (s.setTree r e).snk = s.snk := rfl
@[simp] theorem State.setTree_inputs (r : Idx) (e : Bool) : (s.setTree r e).inputs = s.inputs := rfl
@[simp] theorem State.setTree_resps (r : Idx) (e : Bool) : (s.setTree r e).resps = s.resps := rfl

/-! ### setCode -/

@[simp] theorem State.setCode_rbuf (c : Vector (List Bool) 256) : (s.setCode c).rbuf = s.rbuf := rfl
@[simp] theorem State.setCode_rcnt (c : Vector (List Bool) 256) : (s.setCode c).rcnt = s.rcnt := rfl
@[simp] theorem State.setCode_wbuf (c : Vector (List Bool) 256) : (s.setCode c).wbuf = s.wbuf := rfl
@[simp] theorem State.setCode_wcnt (c : Vector (List Bool) 256) : (s.setCode c).wcnt = s.wcnt := rfl
@[simp] theorem State.setCode_wclosed (c : Vector (List Bool) 256) : (s.setCode c).wclosed = s.wclosed := rfl
@[simp] theorem State.setCode_count (c : Vector (List Bool) 256) : (s.setCode c).count = s.count := rfl
@[simp] theorem State.setCode_inbuf (c : Vector (List Bool) 256) : (s.setCode c).inbuf = s.inbuf := rfl
@[simp] theorem State.setCode_freq (c : Vector (List Bool) 256) : (s.setCode c).freq = s.freq := rfl
@[simp] theorem State.setCode_heap (c : Vector (List Bool) 256) : (s.setCode c).heap = s.heap := rfl
@[simp] theorem State.setCode_pqDesc (c : Vector (List Bool) 256) : (s.setCode c).pqDesc = s.pqDesc := rfl
@[simp] theorem State.setCode_node (c : Vector (List Bool) 256) : (s.setCode c).node = s.node := rfl
@[simp] theorem State.setCode_root (c : Vector (List Bool) 256) : (s.setCode c).root = s.root := rfl
@[simp] theorem State.setCode_treeEmpty (c : Vector (List Bool) 256) : (s.setCode c).treeEmpty = s.treeEmpty := rfl
@[simp] theorem State.setCode_code (c : Vector (List Bool) 256) : (s.setCode c).code = c := rfl
@[simp] theorem State.setCode_lastErr (c : Vector (List Bool) 256) : (s.setCode c).lastErr = s.lastErr := rfl
@[simp] theorem State.setCode_lastPhase (c : Vector (List Bool) 256) : (s.setCode c).lastPhase = s.lastPhase := rfl
@[simp] theorem State.setCode_inbufCap (c : Vector (List Bool) 256) : (s.setCode c).inbufCap = s.inbufCap := rfl
@[simp] theorem State.setCode_src (c : Vector (List Bool) 256) : (s.setCode c).src = s.src := rfl
@[simp] theorem State.setCode_snk (c : Vector (List Bool) 256) : (s.setCode c).snk = s.snk := rfl
@[simp] theorem State.setCode_inputs (c : Vector (List Bool) 256) : (s.setCode c).inputs = s.inputs := rfl
@[simp] theorem State.setCode_resps (c : Vector (List Bool) 256) : (s.setCode c).resps = s.resps := rfl

/-! ### setInput -/

@[simp] theorem State.setInput_rbuf (i : List Byte) (f : Vector Word 256) (l : List Byte) : (s.setInput i f l).rbuf = s.rbuf := rfl
@[simp] theorem State.setInput_rcnt (i : List Byte) (f : Vector Word 256) (l : List Byte) : (s.setInput i f l).rcnt = s.rcnt := rfl
@[simp] theorem State.setInput_wbuf (i : List Byte) (f : Vector Word 256) (l : List Byte) : (s.setInput i f l).wbuf = s.wbuf := rfl
@[simp] theorem State.setInput_wcnt (i : List Byte) (f : Vector Word 256) (l : List Byte) : (s.setInput i f l).wcnt = s.wcnt := rfl
@[simp] theorem State.setInput_wclosed (i : List Byte) (f : Vector Word 256) (l : List Byte) : (s.setInput i f l).wclosed = s.wclosed := rfl
@[simp] theorem State.setInput_count (i : List Byte) (f : Vector Word 256) (l : List Byte) : (s.setInput i f l).count = s.count := rfl
@[simp] theorem State.setInput_inbuf (i : List Byte) (f : Vector Word 256) (l : List Byte) : (s.setInput i f l).inbuf = i := rfl
@[simp] theorem State.setInput_freq (i : List Byte) (f : Vector Word 256) (l : List Byte) : (s.setInput i f l).freq = f := rfl
@[simp] theorem State.setInput_heap (i : List Byte) (f : Vector Word 256) (l : List Byte) : (s.setInput i f l).heap = s.heap := rfl
@[simp] theorem State.setInput_pqDesc (i : List Byte) (f : Vector Word 256) (l : List Byte) : (s.setInput i f l).pqDesc = s.pqDesc := rfl
@[simp] theorem State.setInput_node (i : List Byte) (f : Vector Word 256) (l : List Byte) : (s.setInput i f l).node = s.node := rfl
@[simp] theorem State.setInput_root (i : List Byte) (f : Vector Word 256) (l : List Byte) : (s.setInput i f l).root = s.root := rfl
@[simp] theorem State.setInput_treeEmpty (i : List Byte) (f : Vector Word 256) (l : List Byte) : (s.setInput i f l).treeEmpty = s.treeEmpty := rfl
@[simp] theorem State.setInput_code (i : List Byte) (f : Vector Word 256) (l : List Byte) : (s.setInput i f l).code = s.code := rfl
@[simp] theorem State.setInput_lastErr (i : List Byte) (f : Vector Word 256) (l : List Byte) : (s.setInput i f l).lastErr = s.lastErr := rfl
@[simp] theorem State.setInput_lastPhase (i : List Byte) (f : Vector Word 256) (l : List Byte) : (s.setInput i f l).lastPhase = s.lastPhase := rfl
@[simp] theorem State.setInput_inbufCap (i : List Byte) (f : Vector Word 256) (l : List Byte) : (s.setInput i f l).inbufCap = s.inbufCap := rfl
@[simp] theorem State.setInput_src (i : List Byte) (f : Vector Word 256) (l : List Byte) : (s.setInput i f l).src = l := rfl
@[simp] theorem State.setInput_snk (i : List Byte) (f : Vector Word 256) (l : List Byte) : (s.setInput i f l).snk = s.snk := rfl
@[simp] theorem State.setInput_inputs (i : List Byte) (f : Vector Word 256) (l : List Byte) : (s.setInput i f l).inputs = s.inputs := rfl
@[simp] theorem State.setInput_resps (i : List Byte) (f : Vector Word 256) (l : List Byte) : (s.setInput i f l).resps = s.resps := rfl

/-! ### setCount -/

@[simp] theorem State.setCount_rbuf (c : Word) : (s.setCount c).rbuf = s.rbuf := rfl
@[simp] theorem State.setCount_rcnt (c : Word) : (s.setCount c).rcnt = s.rcnt := rfl
@[simp] theorem State.setCount_wbuf (c : Word) : (s.setCount c).wbuf = s.wbuf := rfl
@[simp] theorem State.setCount_wcnt (c : Word) : (s.setCount c).wcnt = s.wcnt := rfl
@[simp] theorem State.setCount_wclosed (c : Word) : (s.setCount c).wclosed = s.wclosed := rfl
@[simp] theorem State.setCount_count (c : Word) : (s.setCount c).count = c := rfl
@[simp] theorem State.setCount_inbuf (c : Word) : (s.setCount c).inbuf = s.inbuf := rfl
@[simp] theorem State.setCount_freq (c : Word) : (s.setCount c).freq = s.freq := rfl
@[simp] theorem State.setCount_heap (c : Word) : (s.setCount c).heap = s.heap := rfl
@[simp] theorem State.setCount_pqDesc (c : Word) : (s.setCount c).pqDesc = s.pqDesc := rfl
@[simp] theorem State.setCount_node (c : Word) : (s.setCount c).node = s.node := rfl
@[simp] theorem State.setCount_root (c : Word) : (s.setCount c).root = s.root := rfl
@[simp] theorem State.setCount_treeEmpty (c : Word) : (s.setCount c).treeEmpty = s.treeEmpty := rfl
@[simp] theorem State.setCount_code (c : Word) : (s.setCount c).code = s.code := rfl
@[simp] theorem State.setCount_lastErr (c : Word) : (s.setCount c).lastErr = s.lastErr := rfl
@[simp] theorem State.setCount_lastPhase (c : Word) : (s.setCount c).lastPhase = s.lastPhase := rfl
@[simp] theorem State.setCount_inbufCap (c : Word) : (s.setCount c).inbufCap = s.inbufCap := rfl
@[simp] theorem State.setCount_src (c : Word) : (s.setCount c).src = s.src := rfl
@[simp] theorem State.setCount_snk (c : Word) : (s.setCount c).snk = s.snk := rfl
@[simp] theorem State.setCount_inputs (c : Word) : (s.setCount c).inputs = s.inputs := rfl
@[simp] theorem State.setCount_resps (c : Word) : (s.setCount c).resps = s.resps := rfl

/-! ### setInputs -/

@[simp] theorem State.setInputs_rbuf (l : List HostEvent) : (s.setInputs l).rbuf = s.rbuf := rfl
@[simp] theorem State.setInputs_rcnt (l : List HostEvent) : (s.setInputs l).rcnt = s.rcnt := rfl
@[simp] theorem State.setInputs_wbuf (l : List HostEvent) : (s.setInputs l).wbuf = s.wbuf := rfl
@[simp] theorem State.setInputs_wcnt (l : List HostEvent) : (s.setInputs l).wcnt = s.wcnt := rfl
@[simp] theorem State.setInputs_wclosed (l : List HostEvent) : (s.setInputs l).wclosed = s.wclosed := rfl
@[simp] theorem State.setInputs_count (l : List HostEvent) : (s.setInputs l).count = s.count := rfl
@[simp] theorem State.setInputs_inbuf (l : List HostEvent) : (s.setInputs l).inbuf = s.inbuf := rfl
@[simp] theorem State.setInputs_freq (l : List HostEvent) : (s.setInputs l).freq = s.freq := rfl
@[simp] theorem State.setInputs_heap (l : List HostEvent) : (s.setInputs l).heap = s.heap := rfl
@[simp] theorem State.setInputs_pqDesc (l : List HostEvent) : (s.setInputs l).pqDesc = s.pqDesc := rfl
@[simp] theorem State.setInputs_node (l : List HostEvent) : (s.setInputs l).node = s.node := rfl
@[simp] theorem State.setInputs_root (l : List HostEvent) : (s.setInputs l).root = s.root := rfl
@[simp] theorem State.setInputs_treeEmpty (l : List HostEvent) : (s.setInputs l).treeEmpty = s.treeEmpty := rfl
@[simp] theorem State.setInputs_code (l : List HostEvent) : (s.setInputs l).code = s.code := rfl
@[simp] theorem State.setInputs_lastErr (l : List HostEvent) : (s.setInputs l).lastErr = s.lastErr := rfl
@[simp] theorem State.setInputs_lastPhase (l : List HostEvent) : (s.setInputs l).lastPhase = s.lastPhase := rfl
@[simp] theorem State.setInputs_inbufCap (l : List HostEvent) : (s.setInputs l).inbufCap = s.inbufCap := rfl
@[simp] theorem State.setInputs_src (l : List HostEvent) : (s.setInputs l).src = s.src := rfl
@[simp] theorem State.setInputs_snk (l : List HostEvent) : (s.setInputs l).snk = s.snk := rfl
@[simp] theorem State.setInputs_inputs (l : List HostEvent) : (s.setInputs l).inputs = l := rfl
@[simp] theorem State.setInputs_resps (l : List HostEvent) : (s.setInputs l).resps = s.resps := rfl

/-! ### endCommand -/

@[simp] theorem State.endCommand_rbuf (e p : BitVec 4) (x : Option Result) : (s.endCommand e p x).rbuf = s.rbuf := rfl
@[simp] theorem State.endCommand_rcnt (e p : BitVec 4) (x : Option Result) : (s.endCommand e p x).rcnt = s.rcnt := rfl
@[simp] theorem State.endCommand_wbuf (e p : BitVec 4) (x : Option Result) : (s.endCommand e p x).wbuf = s.wbuf := rfl
@[simp] theorem State.endCommand_wcnt (e p : BitVec 4) (x : Option Result) : (s.endCommand e p x).wcnt = s.wcnt := rfl
@[simp] theorem State.endCommand_wclosed (e p : BitVec 4) (x : Option Result) : (s.endCommand e p x).wclosed = s.wclosed := rfl
@[simp] theorem State.endCommand_count (e p : BitVec 4) (x : Option Result) : (s.endCommand e p x).count = s.count := rfl
@[simp] theorem State.endCommand_inbuf (e p : BitVec 4) (x : Option Result) : (s.endCommand e p x).inbuf = s.inbuf := rfl
@[simp] theorem State.endCommand_freq (e p : BitVec 4) (x : Option Result) : (s.endCommand e p x).freq = s.freq := rfl
@[simp] theorem State.endCommand_heap (e p : BitVec 4) (x : Option Result) : (s.endCommand e p x).heap = s.heap := rfl
@[simp] theorem State.endCommand_pqDesc (e p : BitVec 4) (x : Option Result) : (s.endCommand e p x).pqDesc = s.pqDesc := rfl
@[simp] theorem State.endCommand_node (e p : BitVec 4) (x : Option Result) : (s.endCommand e p x).node = s.node := rfl
@[simp] theorem State.endCommand_root (e p : BitVec 4) (x : Option Result) : (s.endCommand e p x).root = s.root := rfl
@[simp] theorem State.endCommand_treeEmpty (e p : BitVec 4) (x : Option Result) : (s.endCommand e p x).treeEmpty = s.treeEmpty := rfl
@[simp] theorem State.endCommand_code (e p : BitVec 4) (x : Option Result) : (s.endCommand e p x).code = s.code := rfl
@[simp] theorem State.endCommand_lastErr (e p : BitVec 4) (x : Option Result) : (s.endCommand e p x).lastErr = e := rfl
@[simp] theorem State.endCommand_lastPhase (e p : BitVec 4) (x : Option Result) : (s.endCommand e p x).lastPhase = p := rfl
@[simp] theorem State.endCommand_inbufCap (e p : BitVec 4) (x : Option Result) : (s.endCommand e p x).inbufCap = s.inbufCap := rfl
@[simp] theorem State.endCommand_src (e p : BitVec 4) (x : Option Result) : (s.endCommand e p x).src = s.src := rfl
@[simp] theorem State.endCommand_snk (e p : BitVec 4) (x : Option Result) : (s.endCommand e p x).snk = s.snk := rfl
@[simp] theorem State.endCommand_inputs (e p : BitVec 4) (x : Option Result) : (s.endCommand e p x).inputs = s.inputs := rfl
@[simp] theorem State.endCommand_resps (e p : BitVec 4) (x : Option Result) : (s.endCommand e p x).resps = s.resps ++ [{ err := e, phase := p, result := x }] := rfl

end Sys2Proof.Machine
end

