-- ==== Sys2Proof/Laws/Queue.lean ====
section
/-! SUPPORT. The queue: what a swap does, that inserting and removing keep the multiset of elements (42_priority_queue.md
R174) and the heap order (10_state.md R32), and that a heap's first element is before no other's rank. -/

namespace Sys2Proof.Machine

/-- A number that orders elements as the comparator does (R31). -/
def rank (desc : Bool) (e : Element) : Int :=
  if desc then -((elementKey e).toNat : Int) else ((elementKey e).toNat : Int)

theorem before_eq (desc : Bool) (a b : Element) : before desc a b = decide (rank desc a < rank desc b) := by
  cases desc <;> simp [before, rank]

theorem elementKey_toNat (e : Element) : (elementKey e).toNat = e.freq.toNat * 512 + e.tie.toNat := by
  rw [elementKey, BitVec.toNat_append, ← Nat.shiftLeft_add_eq_or_of_lt e.tie.isLt, Nat.shiftLeft_eq]

theorem heapOrdered_iff {desc : Bool} {h : List Element} :
    heapOrdered desc h ↔ ∀ n, 1 ≤ n → n < h.length →
      rank desc (heapGet h (parentIndex n)) ≤ rank desc (heapGet h n) := by
  simp only [heapOrdered, before_eq, decide_eq_false_iff_not, not_lt]

/-! ### Array access and swap -/

theorem heapGet_eq {h : List Element} {n : Nat} (hn : n < h.length) : heapGet h n = h[n] := by
  simp [heapGet, List.getD_eq_getElem?_getD, hn]

@[simp] theorem heapSwap_length (h : List Element) (i j : Nat) : (heapSwap h i j).length = h.length := by
  simp [heapSwap]

theorem heapGet_heapSwap {h : List Element} {i j : Nat} (hi : i < h.length) (hj : j < h.length) (k : Nat) :
    heapGet (heapSwap h i j) k = if k = j then heapGet h i else if k = i then heapGet h j else heapGet h k := by
  by_cases hkj : j = k
  · subst hkj
    simp [heapSwap, heapGet, List.getD_eq_getElem?_getD, hj]
  · by_cases hki : i = k
    · subst hki
      simp [heapSwap, heapGet, List.getD_eq_getElem?_getD, hi, hkj, Ne.symm hkj]
    · simp [heapSwap, heapGet, List.getD_eq_getElem?_getD, hkj, hki, Ne.symm hkj, Ne.symm hki]

theorem heapSwap_perm {h : List Element} {i j : Nat} (hi : i < h.length) (hj : j < h.length) :
    (heapSwap h i j).Perm h := by
  rw [heapSwap, heapGet_eq hi, heapGet_eq hj]
  exact List.set_set_perm hi hj

theorem parentIndex_lt {n : Nat} (h : 0 < n) : parentIndex n < n := by simp only [parentIndex]; omega

/-! ### Sift-up -/

theorem siftUp_perm (desc : Bool) (fuel : Nat) :
    ∀ {h : List Element} {n : Nat}, n < h.length → (siftUp desc fuel h n).Perm h := by
  induction fuel with
  | zero => intro h n _; exact List.Perm.refl _
  | succ k ih =>
    intro h n hn
    rw [siftUp]
    split
    · next hc =>
      have hp := parentIndex_lt hc.1
      exact (ih (by simp; omega)).trans (heapSwap_perm hn (by omega))
    · exact List.Perm.refl _

/-- Sift-up restores the heap order that holds everywhere but at index n (R170). -/
theorem siftUp_ordered (desc : Bool) (fuel : Nat) :
    ∀ {h : List Element} {n : Nat}, n < h.length → n ≤ fuel →
      (∀ m, 1 ≤ m → m < h.length → m ≠ n → rank desc (heapGet h (parentIndex m)) ≤ rank desc (heapGet h m)) →
      (∀ m, 1 ≤ m → m < h.length → parentIndex m = n → 1 ≤ n →
        rank desc (heapGet h (parentIndex n)) ≤ rank desc (heapGet h m)) →
      heapOrdered desc (siftUp desc fuel h n) := by
  induction fuel with
  | zero =>
    intro h n hn hf h1 h2
    rw [siftUp, heapOrdered_iff]
    intro m hm hl
    exact h1 m hm hl (by omega)
  | succ k ih =>
    intro h n hn hf h1 h2
    rw [siftUp]
    split
    · next hc =>
      obtain ⟨hpos, hb⟩ := hc
      rw [before_eq, decide_eq_true_iff] at hb
      have hp := parentIndex_lt hpos
      have hpl : parentIndex n < h.length := by omega
      refine ih (by simpa using hpl) (by omega) ?_ ?_
      · intro m hm hl hne
        rw [heapSwap_length] at hl
        rw [heapGet_heapSwap hn hpl, heapGet_heapSwap hn hpl]
        have hm1 := h1 m hm hl
        have hm2 := h2 m hm hl
        by_cases e1 : m = n
        · subst e1; simp [hne]; omega
        · by_cases e2 : parentIndex m = n
          · have := hm2 e2 hpos
            have hnp : n ≠ parentIndex n := by omega
            simp [hne, e1, e2, hnp]; omega
          · by_cases e3 : parentIndex m = parentIndex n
            · have := hm1 e1
              rw [e3] at this
              simp [hne, e1, e3]; omega
            · have := hm1 e1
              simp [hne, e1, e2, e3]; omega
      · intro m hm hl hpm hp1
        rw [heapSwap_length] at hl
        have hpp := parentIndex_lt (n := parentIndex n) (by omega)
        have hbase := h1 (parentIndex n) hp1 hpl (by omega)
        rw [heapGet_heapSwap hn hpl, heapGet_heapSwap hn hpl]
        have a1 : parentIndex (parentIndex n) ≠ parentIndex n := by omega
        have a2 : parentIndex (parentIndex n) ≠ n := by omega
        have a3 : m ≠ parentIndex n := by have := parentIndex_lt (n := m) (by omega); omega
        by_cases e1 : m = n
        · simp [a1, a2, e1]
          have : n ≠ parentIndex n := by omega
          simp [this]; omega
        · have := h1 m hm hl e1
          rw [hpm] at this
          simp [a1, a2, a3, e1]; omega
    · next hc =>
      rw [heapOrdered_iff]
      intro m hm hl
      by_cases e : m = n
      · subst e
        simp only [before_eq, decide_eq_true_iff, not_and, not_lt] at hc
        exact hc (by omega)
      · exact h1 m hm hl e

/-! ### Sift-down -/

theorem chosenChild_or (desc : Bool) (h : List Element) (n : Nat) :
    chosenChild desc h n = leftIndex n ∨ (chosenChild desc h n = rightIndex n ∧ rightIndex n < h.length) := by
  rw [chosenChild]
  split
  · next hc => exact .inr ⟨rfl, hc.1⟩
  · exact .inl rfl

theorem chosenChild_lt {desc : Bool} {h : List Element} {n : Nat} (hl : leftIndex n < h.length) :
    chosenChild desc h n < h.length := by
  rcases chosenChild_or desc h n with e | ⟨e, hr⟩ <;> omega

theorem chosenChild_parent (desc : Bool) (h : List Element) (n : Nat) : parentIndex (chosenChild desc h n) = n := by
  rcases chosenChild_or desc h n with e | ⟨e, -⟩ <;> rw [e] <;> simp only [parentIndex, leftIndex, rightIndex] <;> omega

theorem chosenChild_gt (desc : Bool) (h : List Element) (n : Nat) : n < chosenChild desc h n := by
  rcases chosenChild_or desc h n with e | ⟨e, -⟩ <;> rw [e] <;> simp only [leftIndex, rightIndex] <;> omega

/-- The chosen child is before no other child (R172). -/
theorem chosenChild_least {desc : Bool} {h : List Element} {n m : Nat} (hm : 1 ≤ m) (hl : m < h.length)
    (hp : parentIndex m = n) : rank desc (heapGet h (chosenChild desc h n)) ≤ rank desc (heapGet h m) := by
  have hcase : m = leftIndex n ∨ m = rightIndex n := by
    simp only [parentIndex, leftIndex, rightIndex] at *; omega
  rw [chosenChild, before_eq]
  split
  · next hc =>
    rcases hcase with rfl | rfl
    · exact le_of_lt (by simpa using hc.2)
    · exact le_refl _
  · next hc =>
    rcases hcase with rfl | rfl
    · exact le_refl _
    · simpa [hl] using hc

theorem siftDown_perm (desc : Bool) (fuel : Nat) :
    ∀ {h : List Element} {n : Nat}, n < h.length → (siftDown desc fuel h n).Perm h := by
  induction fuel with
  | zero => intro h n _; exact List.Perm.refl _
  | succ k ih =>
    intro h n hn
    rw [siftDown]
    split
    · next hc =>
      have hl := chosenChild_lt (desc := desc) hc.1
      exact (ih (by simpa using hl)).trans (heapSwap_perm hl hn)
    · exact List.Perm.refl _

/-- Sift-down restores the heap order that holds everywhere but between n and its children (R172). -/
theorem siftDown_ordered (desc : Bool) (fuel : Nat) :
    ∀ {h : List Element} {n : Nat}, n < h.length → h.length ≤ n + fuel →
      (∀ m, 1 ≤ m → m < h.length → parentIndex m ≠ n →
        rank desc (heapGet h (parentIndex m)) ≤ rank desc (heapGet h m)) →
      (∀ m, 1 ≤ m → m < h.length → parentIndex m = n → 1 ≤ n →
        rank desc (heapGet h (parentIndex n)) ≤ rank desc (heapGet h m)) →
      heapOrdered desc (siftDown desc fuel h n) := by
  induction fuel with
  | zero => intro h n hn hf; omega
  | succ k ih =>
    intro h n hn hf h1 h2
    rw [siftDown]
    split
    · next hc =>
      obtain ⟨hll, hb⟩ := hc
      rw [before_eq, decide_eq_true_iff] at hb
      have hcl := chosenChild_lt (desc := desc) hll
      have hcp := chosenChild_parent desc h n
      have hcg := chosenChild_gt desc h n
      have hleast := fun m a b c => chosenChild_least (desc := desc) (h := h) (n := n) (m := m) a b c
      generalize chosenChild desc h n = c at *
      refine ih (by simpa using hcl) (by simp; omega) ?_ ?_
      · intro m hm hl hne
        rw [heapSwap_length] at hl
        rw [heapGet_heapSwap hcl hn, heapGet_heapSwap hcl hn]
        have hpm := parentIndex_lt (n := m) (by omega)
        by_cases e1 : m = n
        · subst e1
          have a1 : parentIndex m ≠ m := by omega
          have := h2 c (by omega) hcl hcp hm
          simp [a1, hne]; omega
        · by_cases e2 : parentIndex m = n
          · by_cases e3 : m = c
            · subst e3; simp [e1, e2]; omega
            · have := hleast m hm hl e2
              simp [e1, e2, e3]; omega
          · have := h1 m hm hl e2
            by_cases e3 : m = c
            · exact absurd (by rw [e3]; exact hcp) e2
            · simp [e1, e2, e3, hne]; omega
      · intro m hm hl hpm _
        rw [heapSwap_length] at hl
        rw [heapGet_heapSwap hcl hn, heapGet_heapSwap hcl hn, hcp]
        have hpm' := parentIndex_lt (n := m) (by omega)
        have := h1 m hm hl (by omega)
        rw [hpm] at this
        have a1 : m ≠ n := by omega
        have a2 : m ≠ c := by omega
        simp [a1, a2]; omega
    · next hc =>
      rw [heapOrdered_iff]
      intro m hm hl
      by_cases e : parentIndex m = n
      · have hll : leftIndex n < h.length := by simp only [parentIndex, leftIndex] at *; omega
        simp only [before_eq, decide_eq_true_iff, not_and, not_lt] at hc
        rw [e]
        exact le_trans (hc hll) (chosenChild_least hm hl e)
      · exact h1 m hm hl e

/-! ### Insert and remove -/

theorem heapInsert_perm (desc : Bool) (h : List Element) (e : Element) : (heapInsert desc h e).Perm (e :: h) :=
  (siftUp_perm desc _ (by simp)).trans (List.perm_append_singleton e h)

theorem heapInsert_ordered {desc : Bool} {h : List Element} (e : Element) (ho : heapOrdered desc h) :
    heapOrdered desc (heapInsert desc h e) := by
  have hget : ∀ m, m < h.length → heapGet (h ++ [e]) m = heapGet h m := fun m hm => by
    rw [heapGet_eq hm, heapGet_eq (by simp; omega), List.getElem_append_left hm]
  refine siftUp_ordered desc _ (by simp) (le_refl _) ?_ ?_
  · intro m hm hl hne
    have hl' : m < h.length := by simp at hl; omega
    have hp := parentIndex_lt (n := m) (by omega)
    rw [hget m hl', hget _ (by omega)]
    exact heapOrdered_iff.1 ho m hm hl'
  · intro m hm hl hp _
    have := parentIndex_lt (n := m) (by omega)
    simp at hl
    omega

/-- The array `POP` sifts: the last element over the others but the first. -/
theorem heapRemove_cons (desc : Bool) (a b : Element) (rest : List Element) :
    heapRemove desc (a :: b :: rest) =
      siftDown desc (rest.length + 2) (heapGet (b :: rest) rest.length :: (b :: rest).dropLast) 0 := by
  simp [heapRemove, heapGet]

theorem getLast_cons_dropLast_perm (l : List Element) (h : l ≠ []) :
    (heapGet l (l.length - 1) :: l.dropLast).Perm l := by
  have hl : l.length - 1 < l.length := by have := List.length_pos_iff.2 h; omega
  rw [heapGet_eq hl, ← List.getLast_eq_getElem h]
  exact (List.perm_append_singleton _ _).symm.trans (by rw [List.dropLast_append_getLast h])

theorem heapRemove_perm (desc : Bool) (a : Element) (rest : List Element) : (heapRemove desc (a :: rest)).Perm rest := by
  cases rest with
  | nil => rfl
  | cons b rest =>
    rw [heapRemove_cons]
    exact (siftDown_perm desc _ (by simp)).trans (getLast_cons_dropLast_perm (b :: rest) (by simp))

theorem heapRemove_ordered {desc : Bool} {h : List Element} (ho : heapOrdered desc h) :
    heapOrdered desc (heapRemove desc h) := by
  rcases h with _ | ⟨a, _ | ⟨b, rest⟩⟩
  · simpa [heapRemove] using ho
  · intro n h1 h2; simp [heapRemove] at h2
  · rw [heapRemove_cons]
    have hget : ∀ m, 1 ≤ m → m < rest.length + 1 →
        heapGet (heapGet (b :: rest) rest.length :: (b :: rest).dropLast) m = heapGet (a :: b :: rest) m := by
      intro m h1 h2
      obtain ⟨k, rfl⟩ : ∃ k, m = k + 1 := ⟨m - 1, by omega⟩
      have hk : k + 1 < (a :: b :: rest).length := by simp; omega
      have hk' : k + 1 < (heapGet (b :: rest) rest.length :: (b :: rest).dropLast).length := by simpa using h2
      rw [heapGet_eq hk, heapGet_eq hk']
      simp [List.getElem_dropLast]
    refine siftDown_ordered desc _ (by simp) (by simp) ?_ (fun m _ _ _ h0 => by omega)
    intro m hm hl hp
    have hl' : m < rest.length + 1 := by simpa using hl
    have hpm := parentIndex_lt (n := m) (by omega)
    rw [hget m hm hl', hget _ (by omega) (by omega)]
    exact heapOrdered_iff.1 ho m hm (by simp; omega)

theorem heapInsert_length (desc : Bool) (h : List Element) (e : Element) :
    (heapInsert desc h e).length = h.length + 1 := by
  simpa using (heapInsert_perm desc h e).length_eq

theorem heapRemove_length (desc : Bool) (h : List Element) : (heapRemove desc h).length = h.length - 1 := by
  cases h with
  | nil => rfl
  | cons a rest => simpa using (heapRemove_perm desc a rest).length_eq

/-- In a heap the first element's rank is least (R32: "`heap[0]` is a first element"). -/
theorem heapOrdered_head_le {desc : Bool} {a : Element} {rest : List Element} (ho : heapOrdered desc (a :: rest)) :
    ∀ e ∈ a :: rest, rank desc a ≤ rank desc e := by
  have key : ∀ n, n < (a :: rest).length → rank desc a ≤ rank desc (heapGet (a :: rest) n) := by
    intro n
    induction n using Nat.strong_induction_on with
    | _ n ih =>
      intro hn
      rcases Nat.eq_zero_or_pos n with rfl | hp
      · exact le_refl _
      · have hlt := parentIndex_lt hp
        exact le_trans (ih _ hlt (by omega)) (heapOrdered_iff.1 ho n hp hn)
  intro e he
  obtain ⟨n, hn, rfl⟩ := List.getElem_of_mem he
  rw [← heapGet_eq hn]
  exact key n hn

/-! ### The procedures -/

/-- What `HeapPush(e)` can do (R170). -/
theorem heapPush_ok {s : State} (e : Element) (h : s.heap.length < Config.pqCap) :
    heapPush e s = .ok () (s.setHeap (heapInsert s.pqDesc s.heap e)) := by
  simp [heapPush, h]

theorem heapPush_full {s : State} (e : Element) (h : Config.pqCap ≤ s.heap.length) :
    heapPush e s = .raised .capacity s := by
  simp [heapPush, h]

/-- What `HeapPop()` can do (R172). -/
theorem heapPop_ok {s : State} {a : Element} {rest : List Element} (h : s.heap = a :: rest) :
    heapPop s = .ok a (s.setHeap (heapRemove s.pqDesc (a :: rest))) := by
  simp [heapPop, h]

theorem heapPop_empty {s : State} (h : s.heap = []) : heapPop s = .raised .underflow s := by
  simp [heapPop, h]

/-! ### Where the moving element goes -/

theorem parentIndex_iterate_le (n j : Nat) : parentIndex^[j] n ≤ n := by
  induction j with
  | zero => exact le_refl _
  | succ j ih => rw [Function.iterate_succ_apply']; simp only [parentIndex] at *; omega

theorem parentIndex_iterate_lt {n : Nat} (h : 0 < n) (j : Nat) : parentIndex^[j] (parentIndex n) < n :=
  Nat.lt_of_le_of_lt (parentIndex_iterate_le _ j) (parentIndex_lt h)

/-- All of sift-up (R170): `k` swaps along the parents' indices, past exactly the parents the element is before; the rest stays. -/
theorem siftUp_path (d : Bool) (fuel : Nat) : ∀ (h : List Element) (n : Nat), n < h.length → n ≤ fuel → ∃ k,
    (siftUp d fuel h n).length = h.length ∧ heapGet (siftUp d fuel h n) (parentIndex^[k] n) = heapGet h n
    ∧ (∀ j, j < k → 0 < parentIndex^[j] n ∧ before d (heapGet h n) (heapGet h (parentIndex^[j+1] n)) = true ∧
        heapGet (siftUp d fuel h n) (parentIndex^[j] n) = heapGet h (parentIndex^[j+1] n))
    ∧ (0 < parentIndex^[k] n → before d (heapGet h n) (heapGet h (parentIndex^[k+1] n)) = false)
    ∧ ∀ i, (∀ j, j ≤ k → i ≠ parentIndex^[j] n) → heapGet (siftUp d fuel h n) i = heapGet h i := by
  induction fuel with
  | zero =>
    intro h n hn h0
    obtain rfl : n = 0 := by omega
    exact ⟨0, rfl, rfl, by simp, by simp, fun _ _ => rfl⟩
  | succ fuel ih =>
    intro h n hn hf
    by_cases hc : 0 < n ∧ before d (heapGet h n) (heapGet h (parentIndex n)) = true
    · have hp := parentIndex_lt hc.1
      have hpl : parentIndex n < h.length := by omega
      obtain ⟨k, h1, h2, h3, h4, h5⟩ := ih (heapSwap h n (parentIndex n)) (parentIndex n) (by simpa using hpl) (by omega)
      have g0 : heapGet (heapSwap h n (parentIndex n)) (parentIndex n) = heapGet h n := by rw [heapGet_heapSwap hn hpl]; simp
      have g1 : ∀ i, i < parentIndex n → heapGet (heapSwap h n (parentIndex n)) i = heapGet h i := by
        intro i hi
        rw [heapGet_heapSwap hn hpl, if_neg (by omega), if_neg (by omega)]
      have gl : ∀ j, 0 < parentIndex^[j] (parentIndex n) → parentIndex^[j+1] (parentIndex n) < parentIndex n := by
        intro j hj
        rw [Function.iterate_succ_apply']
        have := parentIndex_iterate_le (parentIndex n) j
        have := parentIndex_lt hj
        omega
      rw [siftUp, if_pos hc]
      rw [g0] at h2 h3 h4
      refine ⟨k + 1, by rw [h1]; simp, h2, fun j hj => ?_, fun hk => ?_, fun i hi => ?_⟩
      · cases j with
        | zero =>
          refine ⟨hc.1, hc.2, ?_⟩
          show heapGet _ n = heapGet h (parentIndex n)
          rw [h5 n (fun j _ => Nat.ne_of_gt (parentIndex_iterate_lt hc.1 j)), heapGet_heapSwap hn hpl, if_neg (by omega), if_pos rfl]
        | succ j =>
          obtain ⟨a, b, c⟩ := h3 j (by omega)
          rw [g1 _ (gl j a)] at b c
          exact ⟨a, b, c⟩
      · have b := h4 hk
        rw [g1 _ (gl k hk)] at b
        exact b
      · have : i ≠ n := hi 0 (by omega)
        have : i ≠ parentIndex n := hi 1 (by omega)
        rw [h5 i (fun j hj => hi (j+1) (by omega)), heapGet_heapSwap hn hpl, if_neg (by omega), if_neg (by omega)]
    · rw [siftUp, if_neg hc]
      refine ⟨0, rfl, rfl, by simp, fun hn0 => ?_, fun _ _ => rfl⟩
      have hn0 : 0 < n := hn0
      simpa [hn0] using hc

/-- All of sift-down (R172): `k` swaps along the chosen children's indices, past exactly those before the element; the rest
stays. -/
theorem siftDown_path (d : Bool) (fuel : Nat) : ∀ (h : List Element) (n : Nat), n < h.length → h.length ≤ n + fuel → ∃ k,
    (siftDown d fuel h n).length = h.length ∧ (chosenChild d h)^[k] n < h.length
    ∧ heapGet (siftDown d fuel h n) ((chosenChild d h)^[k] n) = heapGet h n
    ∧ (∀ j, j < k → leftIndex ((chosenChild d h)^[j] n) < h.length
        ∧ before d (heapGet h ((chosenChild d h)^[j+1] n)) (heapGet h n) = true ∧
        heapGet (siftDown d fuel h n) ((chosenChild d h)^[j] n) = heapGet h ((chosenChild d h)^[j+1] n))
    ∧ (leftIndex ((chosenChild d h)^[k] n) < h.length → before d (heapGet h ((chosenChild d h)^[k+1] n)) (heapGet h n) = false)
    ∧ ∀ i, (∀ j, j ≤ k → i ≠ (chosenChild d h)^[j] n) → heapGet (siftDown d fuel h n) i = heapGet h i := by
  induction fuel with
  | zero => intro h n hn hf; omega
  | succ fuel ih =>
    intro h n hn hf
    by_cases hc : leftIndex n < h.length ∧ before d (heapGet h (chosenChild d h n)) (heapGet h n) = true
    · have hg := chosenChild_gt d h n
      have hcl := chosenChild_lt (desc := d) hc.1
      generalize hcc : chosenChild d h n = c at *
      obtain ⟨k, h1, h0, h2, h3, h4, h5⟩ := ih (heapSwap h c n) c (by simpa using hcl) (by simp; omega)
      have g0 : heapGet (heapSwap h c n) c = heapGet h n := by rw [heapGet_heapSwap hcl hn, if_neg (by omega), if_pos rfl]
      have g1 : ∀ i, c < i → heapGet (heapSwap h c n) i = heapGet h i := by
        intro i hi
        rw [heapGet_heapSwap hcl hn, if_neg (by omega), if_neg (by omega)]
      have gc : ∀ i, c ≤ i → chosenChild d (heapSwap h c n) i = chosenChild d h i := by
        intro i hi
        rw [chosenChild, chosenChild, heapSwap_length, g1 _ (by simp only [rightIndex]; omega), g1 _ (by simp only [leftIndex]; omega)]
      have ge : ∀ j, c ≤ (chosenChild d h)^[j] c ∧ (chosenChild d (heapSwap h c n))^[j] c = (chosenChild d h)^[j] c := by
        intro j
        induction j with
        | zero => exact ⟨le_refl _, rfl⟩
        | succ j ihj =>
          rw [Function.iterate_succ_apply', Function.iterate_succ_apply', ihj.2, gc _ ihj.1]
          exact ⟨le_of_lt (lt_of_le_of_lt ihj.1 (chosenChild_gt d h _)), rfl⟩
      have gs : ∀ j, c < (chosenChild d h)^[j+1] c := by
        intro j
        rw [Function.iterate_succ_apply']
        exact lt_of_le_of_lt (ge j).1 (chosenChild_gt d h _)
      have gi : ∀ j, (chosenChild d h)^[j+1] n = (chosenChild d h)^[j] c := fun j => by rw [Function.iterate_succ_apply, hcc]
      rw [siftDown, hcc, if_pos hc]
      simp only [(ge _).2, g0, heapSwap_length] at h0 h1 h2 h3 h4 h5
      refine ⟨k + 1, h1, by rw [gi]; exact h0, by rw [gi]; exact h2, fun j hj => ?_, fun hk => ?_, fun i hi => ?_⟩
      · cases j with
        | zero =>
          rw [gi]
          refine ⟨hc.1, hc.2, ?_⟩
          show heapGet _ n = heapGet h c
          rw [h5 n (fun j _ => by have := (ge j).1; omega), heapGet_heapSwap hcl hn, if_pos rfl]
        | succ j =>
          obtain ⟨a, b, e⟩ := h3 j (by omega)
          rw [g1 _ (gs j)] at b e
          rw [gi, gi]
          exact ⟨a, b, e⟩
      · rw [gi] at hk
        have b := h4 hk
        rw [g1 _ (gs k)] at b
        rw [gi]; exact b
      · have a1 : i ≠ n := hi 0 (by omega)
        have a2 : i ≠ c := by have := hi 1 (by omega); rw [gi] at this; exact this
        rw [h5 i (fun j hj => by have := hi (j+1) (by omega); rw [gi] at this; exact this), heapGet_heapSwap hcl hn, if_neg a1, if_neg a2]
    · rw [siftDown, if_neg hc]
      refine ⟨0, rfl, hn, rfl, by simp, fun hl => ?_, fun _ _ => rfl⟩
      have hl : leftIndex n < h.length := hl
      simpa [hl] using hc

end Sys2Proof.Machine
end

