-- ==== Sys2Proof/Laws/Bits.lean ====
section
/-! SUPPORT. Bit sequences of values, and what shifting a bit in does to them. -/

namespace Sys2Proof.Machine

@[simp] theorem msbBits_length {w : Nat} (v : BitVec w) : (msbBits v).length = w := by simp [msbBits]

@[simp] theorem lowBits_length {w : Nat} (n : Nat) (v : BitVec w) : (lowBits n v).length = n := by simp [lowBits]

@[simp] theorem lowBits_zero {w : Nat} (v : BitVec w) : lowBits 0 v = [] := rfl

theorem lowBits_full {w : Nat} (v : BitVec w) : lowBits w v = msbBits v := by
  refine List.map_congr_left fun k hk => ?_
  have hk' : k < w := List.mem_range.1 hk
  simp [BitVec.getMsbD, hk']

theorem getLsbD_shiftIn {w : Nat} (v : BitVec w) (b : Bool) (i : Nat) :
    (shiftIn v b).getLsbD i = (decide (i < w) && if i = 0 then b else v.getLsbD (i - 1)) := by
  rcases Nat.eq_zero_or_pos i with rfl | hi
  · by_cases hw : 0 < w <;> cases b <;> simp [shiftIn, hw]
  · have : i ≠ 0 := by omega
    by_cases hw : i < w
    · have h2 : i - 1 < w := by omega
      cases b <;> simp [shiftIn, hw, this, BitVec.getLsbD_eq_getElem h2]
    · simp [shiftIn, hw]

/-- The low bits of the shifted value: the bit shifted in comes last. -/
theorem lowBits_shiftIn {w n : Nat} (v : BitVec w) (b : Bool) (h : n < w) :
    lowBits (n + 1) (shiftIn v b) = lowBits n v ++ [b] := by
  rw [lowBits, List.range_succ, List.map_append, lowBits]
  congr 1
  · refine List.map_congr_left fun k hk => ?_
    have hk' : k < n := List.mem_range.1 hk
    have h1 : n + 1 - 1 - k < w := by omega
    have h2 : n + 1 - 1 - k ≠ 0 := by omega
    simp only [getLsbD_shiftIn, h1, h2, decide_true, Bool.true_and, if_false]
    congr 1
    omega
  · have : 0 < w := by omega
    simp [getLsbD_shiftIn, this]

theorem toNat_shiftIn {w : Nat} (v : BitVec w) (b : Bool) (h : v.toNat < 2 ^ (w - 1)) (hw : 0 < w) :
    (shiftIn v b).toNat = 2 * v.toNat + b.toNat := by
  have hlt : 2 * v.toNat < 2 ^ w := by
    have : 2 ^ w = 2 * 2 ^ (w - 1) := by rw [← Nat.pow_succ']; congr 1; omega
    omega
  have hs : (v <<< 1).toNat = 2 * v.toNat := by
    rw [BitVec.toNat_shiftLeft, Nat.shiftLeft_eq, Nat.pow_one, Nat.mul_comm, Nat.mod_eq_of_lt hlt]
  have hb : ((BitVec.ofBool b).setWidth w).toNat = b.toNat := by
    rw [BitVec.toNat_setWidth, BitVec.toNat_ofBool]
    apply Nat.mod_eq_of_lt
    have : 2 ^ 1 ≤ 2 ^ w := Nat.pow_le_pow_right (by omega) hw
    have : b.toNat ≤ 1 := Bool.toNat_le b
    omega
  rw [shiftIn, BitVec.toNat_or, hs, hb]
  have := Nat.two_pow_add_eq_or_of_lt (i := 1) (b := b.toNat) (by cases b; simp; simp) v.toNat
  rw [← this]

/-- Shifting a bit into a number, cut to the width. -/
theorem shiftIn_ofNat {w : Nat} (v : Nat) (b : Bool) :
    shiftIn (BitVec.ofNat w v) b = BitVec.ofNat w (2 * v + b.toNat) := by
  apply BitVec.eq_of_getLsbD_eq
  intro i hi
  rw [getLsbD_shiftIn, BitVec.getLsbD_ofNat, BitVec.getLsbD_ofNat]
  rcases i with _ | i
  · cases b <;> simp [hi, Nat.testBit_zero]
  · have h1 : i < w := by omega
    have h2 : (2 * v + b.toNat) / 2 = v := by have := Bool.toNat_le b; omega
    simp [hi, h1, Nat.testBit_succ, h2]

theorem lowBits_succ_cons {w : Nat} (n : Nat) (v : BitVec w) :
    lowBits (n + 1) v = v.getLsbD n :: lowBits n v := by
  rw [lowBits, List.range_succ_eq_map, List.map_cons, List.map_map, lowBits]
  refine congrArg₂ _ (by simp) (List.map_congr_left fun k _ => ?_)
  simp only [Function.comp, Nat.succ_eq_add_one]
  congr 1
  omega

/-- A value of width w + k whose high bits are zero: the bits of the small value, shifted up, padded with zeros. -/
theorem msbBits_shiftLeft_byte (v : Byte) (n : Nat) (h : n ≤ 8) :
    msbBits (v <<< (8 - n)) = lowBits n v ++ List.replicate (8 - n) false := by
  apply List.ext_getElem
  · simp; omega
  · intro i h1 h2
    simp only [msbBits_length] at h1
    by_cases hi : i < n
    · rw [List.getElem_append_left (by simpa using hi)]
      simp only [msbBits, lowBits, List.getElem_map, List.getElem_range, BitVec.getMsbD, BitVec.getLsbD_shiftLeft]
      have a1 : 8 - 1 - i < 8 := by omega
      have a2 : ¬ (8 - 1 - i < 8 - n) := by omega
      simp only [h1, a1, a2, decide_true, decide_false, Bool.true_and, Bool.not_false]
      congr 1
      omega
    · rw [List.getElem_append_right (by simpa using hi)]
      have a2 : 8 - 1 - i < 8 - n := by omega
      simp [msbBits, BitVec.getMsbD, a2]

/-! ### The number a bit sequence stands for -/

theorem foldl_bitsValue (bits : List Bool) (v : Nat) :
    bits.foldl (fun v b => 2 * v + b.toNat) v = v * 2 ^ bits.length + bitsValue bits := by
  induction bits generalizing v with
  | nil => simp [bitsValue]
  | cons b bs ih =>
    have hc : bitsValue (b :: bs) = b.toNat * 2 ^ bs.length + bitsValue bs := by
      rw [bitsValue, List.foldl_cons, Nat.mul_zero, Nat.zero_add, ih]
    rw [List.foldl_cons, ih, hc, List.length_cons, Nat.pow_succ]
    ring

theorem bitsValue_append (a b : List Bool) : bitsValue (a ++ b) = bitsValue a * 2 ^ b.length + bitsValue b := by
  rw [bitsValue, List.foldl_append, foldl_bitsValue]
  rfl

@[simp] theorem bitsValue_nil : bitsValue [] = 0 := rfl

@[simp] theorem bitsValue_singleton (b : Bool) : bitsValue [b] = b.toNat := by simp [bitsValue]

theorem bitsValue_lt (a : List Bool) : bitsValue a < 2 ^ a.length := by
  induction a using List.reverseRecOn with
  | nil => simp
  | append_singleton l b ih =>
    rw [bitsValue_append]
    simp only [List.length_append, List.length_singleton, bitsValue_singleton, Nat.pow_succ]
    cases b <;> simp <;> omega

theorem bitsValue_lowBits {w : Nat} (n : Nat) (v : BitVec w) (h : n ≤ w) :
    bitsValue (lowBits n v) = v.toNat % 2 ^ n := by
  induction n with
  | zero => simp [Nat.mod_one]
  | succ n ih =>
    rw [lowBits_succ_cons, ← List.singleton_append, bitsValue_append, ih (by omega), bitsValue_singleton, lowBits_length,
      Nat.mod_pow_succ, BitVec.getLsbD, Nat.toNat_testBit, Nat.add_comm, Nat.mul_comm]

theorem bitsValue_msbBits {w : Nat} (v : BitVec w) : bitsValue (msbBits v) = v.toNat := by
  rw [← lowBits_full, bitsValue_lowBits _ _ (le_refl w), Nat.mod_eq_of_lt v.isLt]

theorem msbBits_injective {w : Nat} : Function.Injective (msbBits (w := w)) := fun a b h =>
  BitVec.eq_of_toNat_eq (by rw [← bitsValue_msbBits a, ← bitsValue_msbBits b, h])

/-- Eight or 32 bits, packed and unpacked, are the same bits. -/
theorem msbBits_ofNat_bitsValue {w : Nat} (bits : List Bool) (h : bits.length = w) :
    msbBits (BitVec.ofNat w (bitsValue bits)) = bits := by
  subst h
  induction bits using List.reverseRecOn with
  | nil => rfl
  | append_singleton l b ih =>
    have hv : BitVec.ofNat (l ++ [b]).length (bitsValue (l ++ [b]))
        = shiftIn (BitVec.ofNat (l ++ [b]).length (bitsValue l)) b := by
      rw [shiftIn_ofNat, bitsValue_append, bitsValue_singleton, List.length_singleton, Nat.pow_one, Nat.mul_comm]
    rw [hv, ← lowBits_full]
    have hlen : (l ++ [b]).length = l.length + 1 := by simp
    conv_lhs => rw [hlen]
    rw [lowBits_shiftIn _ _ (by simp)]
    congr 1
    conv_rhs => rw [← ih]
    rw [← lowBits_full]
    refine List.map_congr_left fun k hk => ?_
    have hk' : k < l.length := List.mem_range.1 hk
    have a2 : l.length - 1 - k < l.length := by omega
    have a1 : l.length - 1 - k < l.length + 1 := by omega
    rw [BitVec.getLsbD_ofNat, BitVec.getLsbD_ofNat, decide_eq_true a1, decide_eq_true a2]

end Sys2Proof.Machine
end

