-- ==== Sys2Proof/Laws/Stream.lean ====
section
/-! SUPPORT. What the bit reader's and the bit writer's procedures can do, said once each: which bits they return or put,
what they leave, and that they change nothing else. -/

namespace Sys2Proof.Machine

/-- `t` is `s` but for the reader's registers and SRC. -/
def ReaderOnly (s t : State) : Prop := t = s.setReader t.rbuf t.rcnt t.src

/-- `t` is `s` but for the writer's buffer and SNK. -/
def WriterOnly (s t : State) : Prop := t = s.setWriter t.wbuf t.wcnt t.snk

theorem ReaderOnly.refl (s : State) : ReaderOnly s s := rfl

theorem ReaderOnly.trans {s t u : State} (h : ReaderOnly s t) (k : ReaderOnly t u) : ReaderOnly s u := by
  unfold ReaderOnly at *
  rw [k, h]
  rfl

theorem WriterOnly.refl (s : State) : WriterOnly s s := rfl

theorem WriterOnly.trans {s t u : State} (h : WriterOnly s t) (k : WriterOnly t u) : WriterOnly s u := by
  unfold WriterOnly at *
  rw [k, h]
  rfl

theorem ReaderOnly.setReader (s : State) (a : Byte) (n : Fin 9) (l : List Byte) : ReaderOnly s (s.setReader a n l) := rfl

theorem WriterOnly.setWriter (s : State) (a : Byte) (n : Fin 8) (l : List Byte) : WriterOnly s (s.setWriter a n l) := rfl

/-! ### Reader -/

theorem readerBits_length (s : State) : (readerBits s).length = bitsLeft s := by
  simp [readerBits, bitsLeft, List.length_flatMap, Nat.mul_comm]

theorem bitsLeft_setReader (s : State) (a : Byte) (n : Fin 9) (l : List Byte) :
    bitsLeft (s.setReader a n l) = n.val + 8 * l.length := rfl

/-- `takeBit` on a buffer that is not exhausted. -/
theorem takeBit_spec {s : State} {n : Nat} (h : s.rcnt.val = n + 1) :
    ∃ t, takeBit s = .ok (s.rbuf.getLsbD n) t ∧ ReaderOnly s t ∧ t.rcnt.val = n ∧ t.rbuf = s.rbuf ∧ t.src = s.src := by
  refine ⟨s.setReader s.rbuf ⟨s.rcnt.val - 1, Nat.lt_of_le_of_lt (Nat.sub_le _ _) s.rcnt.isLt⟩ s.src, ?_,
    ReaderOnly.setReader s _ _ _, ?_, rfl, rfl⟩
  · rw [takeBit]; congr 1; rw [h]; rfl
  · simp only [State.setReader_rcnt]; omega

/-- What `GetBit()` does when a bit is left: it returns the first, leaves the others, and changes only the reader. -/
theorem getBit_ok {s : State} {b : Bool} {bs : List Bool} (h : readerBits s = b :: bs) :
    ∃ t, getBit s = .ok b t ∧ readerBits t = bs ∧ ReaderOnly s t ∧ t.rcnt.val < 8 ∧ t.src <:+ s.src := by
  by_cases h0 : s.rcnt = 0
  · cases hs : s.src with
    | nil => simp [readerBits, h0, hs] at h
    | cons r rest =>
      have hr : refill s = .ok () (s.setReader r 8 rest) := by
        simp [refill, h0, srcRead, hs]; rfl
      obtain ⟨t, ht, hro, hc, hb, hsrc⟩ := takeBit_spec (s := s.setReader r 8 rest) (n := 7) rfl
      have hbits : readerBits s = r.getLsbD 7 :: (lowBits 7 r ++ rest.flatMap msbBits) := by
        simp [readerBits, h0, hs, ← lowBits_full, lowBits_succ_cons]
      obtain ⟨rfl, rfl⟩ : r.getLsbD 7 = b ∧ (lowBits 7 r ++ rest.flatMap msbBits) = bs := by
        rw [hbits] at h; exact List.cons.inj h
      refine ⟨t, by rw [getBit, hr]; exact ht, ?_, (ReaderOnly.setReader s r 8 rest).trans hro, by omega, ?_⟩
      · simp [readerBits, hc, hb, hsrc]
      · rw [hsrc]; exact ⟨[r], rfl⟩
  · obtain ⟨n, hn⟩ : ∃ n, s.rcnt.val = n + 1 :=
      Nat.exists_eq_succ_of_ne_zero fun e => h0 (Fin.ext e)
    obtain ⟨t, ht, hro, hc, hb, hsrc⟩ := takeBit_spec hn
    have hbits : readerBits s = s.rbuf.getLsbD n :: (lowBits n s.rbuf ++ s.src.flatMap msbBits) := by
      simp [readerBits, hn, lowBits_succ_cons]
    obtain ⟨rfl, rfl⟩ : s.rbuf.getLsbD n = b ∧ (lowBits n s.rbuf ++ s.src.flatMap msbBits) = bs := by
      rw [hbits] at h; exact List.cons.inj h
    have h9 := s.rcnt.isLt
    exact ⟨t, by rw [getBit, refill, if_neg h0]; exact ht, by simp [readerBits, hc, hb, hsrc], hro, by omega,
      by rw [hsrc]⟩

/-- `GetBit()` with no bit left raises EndOfStream and changes nothing (R140). -/
theorem getBit_eos {s : State} (h : readerBits s = []) : getBit s = .raised .endOfStream s := by
  have hl := readerBits_length s
  rw [h] at hl
  simp only [List.length_nil, bitsLeft] at hl
  have h0 : s.rcnt = 0 := Fin.ext (by simp; omega)
  have hs : s.src = [] := List.length_eq_zero_iff.1 (by omega)
  simp [getBit, refill, h0, srcRead, hs, Res.bind]

/-- The loop of `GetChar()` and `GetInt()` when enough bits are left. -/
theorem getBits_ok {w : Nat} (bits : List Bool) :
    ∀ {v : Nat} {s : State} {rest : List Bool}, readerBits s = bits ++ rest →
      ∃ t, getBits bits.length (BitVec.ofNat w v) s = .ok (BitVec.ofNat w (v * 2 ^ bits.length + bitsValue bits)) t
        ∧ readerBits t = rest ∧ ReaderOnly s t ∧ (bits ≠ [] → t.rcnt.val < 8) ∧ t.src <:+ s.src := by
  induction bits with
  | nil =>
    intro v s rest hr
    exact ⟨s, by simp [getBits], by simpa using hr, ReaderOnly.refl s, by simp, List.suffix_refl _⟩
  | cons b bs ih =>
    intro v s rest hr
    obtain ⟨s1, h1, hr1, ho1, hc1, hs1⟩ := getBit_ok (b := b) (bs := bs ++ rest) (by simpa using hr)
    have hc : v * 2 ^ (b :: bs).length + bitsValue (b :: bs) = (2 * v + b.toNat) * 2 ^ bs.length + bitsValue bs := by
      rw [← List.singleton_append, bitsValue_append, bitsValue_singleton, List.singleton_append, List.length_cons,
        Nat.pow_succ]
      ring
    obtain ⟨t, ht, hrt, hot, hct, hst⟩ := ih (v := 2 * v + b.toNat) hr1
    refine ⟨t, ?_, hrt, ho1.trans hot, fun _ => ?_, hst.trans hs1⟩
    · rw [hc, List.length_cons, getBits, h1, Res.bind, shiftIn_ofNat, ht]
    · rcases bs with _ | ⟨c, cs⟩
      · simp only [List.length_nil, getBits, Res.ok.injEq] at ht
        rw [← ht.2]; exact hc1
      · exact hct (by simp)

/-- The loop of `GetChar()` and `GetInt()` when the bits run out: all of them are consumed (R141, R142). -/
theorem getBits_eos {w : Nat} (n : Nat) :
    ∀ {v : BitVec w} {s : State}, bitsLeft s < n →
      ∃ t, getBits n v s = .raised .endOfStream t ∧ bitsLeft t = 0 ∧ ReaderOnly s t := by
  induction n with
  | zero => intro v s h; omega
  | succ n ih =>
    intro v s h
    cases hr : readerBits s with
    | nil =>
      have := readerBits_length s
      exact ⟨s, by rw [getBits, getBit_eos hr]; rfl, by rw [← this, hr]; rfl, ReaderOnly.refl s⟩
    | cons b bs =>
      obtain ⟨s1, h1, hr1, ho1, -, -⟩ := getBit_ok hr
      have l0 := readerBits_length s
      have l1 := readerBits_length s1
      rw [hr, List.length_cons] at l0
      rw [hr1] at l1
      obtain ⟨t, ht, hb, ho⟩ := ih (v := shiftIn v b) (s := s1) (by omega)
      exact ⟨t, by rw [getBits, h1]; exact ht, hb, ho1.trans ho⟩

/-- `GetChar()` with at least 8 bits left (R141). -/
theorem getChar_ok {s : State} (v : Byte) {rest : List Bool} (h : readerBits s = msbBits v ++ rest) :
    ∃ t, getChar s = .ok v t ∧ readerBits t = rest ∧ ReaderOnly s t ∧ t.rcnt.val < 8 ∧ t.src <:+ s.src := by
  obtain ⟨t, ht, hr, ho, hc, hs⟩ := getBits_ok (w := 8) (msbBits v) (v := 0) h
  refine ⟨t, ?_, hr, ho, hc (by intro e; simpa using congrArg List.length e), hs⟩
  rw [msbBits_length, Nat.zero_mul, Nat.zero_add, bitsValue_msbBits, BitVec.ofNat_toNat, BitVec.setWidth_eq] at ht
  exact ht

/-- `GetInt()` with at least 32 bits left (R142). -/
theorem getInt_ok {s : State} (v : Word) {rest : List Bool} (h : readerBits s = msbBits v ++ rest) :
    ∃ t, getInt s = .ok v t ∧ readerBits t = rest ∧ ReaderOnly s t ∧ t.rcnt.val < 8 ∧ t.src <:+ s.src := by
  obtain ⟨t, ht, hr, ho, hc, hs⟩ := getBits_ok (w := 32) (msbBits v) (v := 0) h
  refine ⟨t, ?_, hr, ho, hc (by intro e; simpa using congrArg List.length e), hs⟩
  rw [msbBits_length, Nat.zero_mul, Nat.zero_add, bitsValue_msbBits, BitVec.ofNat_toNat, BitVec.setWidth_eq] at ht
  exact ht

/-- Any 8 (or 32) bits are the bits of the value they stand for. -/
theorem take_eq_msbBits {w : Nat} {l : List Bool} (h : w ≤ l.length) :
    l = msbBits (BitVec.ofNat w (bitsValue (l.take w))) ++ l.drop w := by
  rw [msbBits_ofNat_bitsValue _ (by simp [h]), List.take_append_drop]

/-! ### Writer -/

theorem writerBits_length (s : State) : (writerBits s).length = 8 * s.snk.length + s.wcnt.val := by
  simp [writerBits, List.length_flatMap, Nat.mul_comm]

/-- What `PutBit(b)` does on an open writer (R143): the bit is appended, only the writer changes. -/
theorem putBit_ok {s : State} (b : Bool) (h : s.wclosed = false) :
    ∃ t, putBit b s = .ok () t ∧ writerBits t = writerBits s ++ [b] ∧ WriterOnly s t ∧ s.snk <+: t.snk := by
  by_cases hc : s.wcnt.val + 1 < 8
  · refine ⟨s.setWriter (shiftIn s.wbuf b) ⟨s.wcnt.val + 1, hc⟩ s.snk, by simp [putBit, h, hc], ?_,
      WriterOnly.setWriter s _ _ _, List.prefix_refl _⟩
    simp only [writerBits, State.setWriter_snk, State.setWriter_wcnt, State.setWriter_wbuf]
    rw [lowBits_shiftIn _ _ (by omega), List.append_assoc]
  · have h7 : s.wcnt.val = 7 := by have := s.wcnt.isLt; omega
    refine ⟨s.setWriter 0 0 (s.snk ++ [shiftIn s.wbuf b]), by simp [putBit, h, hc, snkWrite]; rfl, ?_,
      WriterOnly.setWriter s _ _ _, List.prefix_append _ _⟩
    simp only [writerBits, State.setWriter_snk, State.setWriter_wcnt, State.setWriter_wbuf, List.flatMap_append,
      List.flatMap_singleton]
    rw [h7, ← lowBits_full, lowBits_shiftIn (n := 7) _ _ (by omega)]
    simp

/-- On a closed writer `PutBit` raises Closed and nothing changes (R143). -/
theorem putBit_closed {s : State} (b : Bool) (h : s.wclosed = true) : putBit b s = .raised .closed s := by
  simp [putBit, h]

/-- `PutBit` for each bit of a sequence, on an open writer. -/
theorem putBits_ok (bits : List Bool) :
    ∀ {s : State}, s.wclosed = false →
      ∃ t, putBits bits s = .ok () t ∧ writerBits t = writerBits s ++ bits ∧ WriterOnly s t ∧ s.snk <+: t.snk := by
  induction bits with
  | nil => intro s _; exact ⟨s, rfl, by simp, WriterOnly.refl s, List.prefix_refl _⟩
  | cons b bs ih =>
    intro s h
    obtain ⟨s1, h1, hw1, ho1, hp1⟩ := putBit_ok b h
    obtain ⟨t, ht, hwt, hot, hpt⟩ := ih (s := s1) (by rw [ho1]; exact h)
    exact ⟨t, by rw [putBits, h1]; exact ht, by rw [hwt, hw1, List.append_assoc]; rfl, ho1.trans hot, hp1.trans hpt⟩

/-- A nonempty sequence of bits on a closed writer: Closed, from the first of them, and nothing changes. -/
theorem putBits_closed {bits : List Bool} {s : State} (hb : bits ≠ []) (h : s.wclosed = true) :
    putBits bits s = .raised .closed s := by
  cases bits with
  | nil => exact absurd rfl hb
  | cons b bs => rw [putBits, putBit_closed b h]; rfl

theorem putBits_append (a b : List Bool) (s : State) :
    putBits (a ++ b) s = (putBits a s).bind fun _ s' => putBits b s' := by
  induction a generalizing s with
  | nil => rfl
  | cons x xs ih =>
    simp only [List.cons_append, putBits]
    cases putBit x s with
    | ok _ s' => exact ih s'
    | raised e s' => rfl
    | stuck f => rfl

/-- `Close()` on an open writer (R146): the bits put so far, and zeros up to the next multiple of 8, are in SNK. -/
theorem closeWriter_ok {s : State} (h : s.wclosed = false) :
    ∃ t, closeWriter s = .ok () t ∧ t.wclosed = true ∧ t.wcnt = 0
      ∧ t.snk.flatMap msbBits = writerBits s ++ List.replicate ((8 - s.wcnt.val) % 8) false
      ∧ s.snk <+: t.snk
      ∧ t = { s with wbuf := t.wbuf, wcnt := 0, wclosed := true, snk := t.snk }
      ∧ (s.wcnt = 0 → t.wbuf = s.wbuf) ∧ (s.wcnt ≠ 0 → t.wbuf = 0) := by
  by_cases hc : s.wcnt.val = 0
  · have hc' : s.wcnt = 0 := Fin.ext hc
    refine ⟨{ s with wclosed := true }, by simp [closeWriter, h, hc], rfl, hc', ?_, List.prefix_refl _, ?_, fun _ => rfl,
      fun hn => absurd hc' hn⟩
    · simp [writerBits, hc]
    · simp [← hc']
  · have hlt := s.wcnt.isLt
    have hne : s.wcnt ≠ 0 := fun e => hc (by rw [e]; rfl)
    refine ⟨{ (snkWrite (s.wbuf <<< (8 - s.wcnt.val)) s) with wbuf := 0, wcnt := 0, wclosed := true },
      by simp [closeWriter, h, hc], rfl, rfl, ?_, ?_, rfl, fun e => absurd e hne, fun _ => rfl⟩
    · simp only [snkWrite, State.setWriter_snk, List.flatMap_append, List.flatMap_singleton, writerBits]
      rw [msbBits_shiftLeft_byte _ _ (by omega), Nat.mod_eq_of_lt (by omega), List.append_assoc]
    · exact List.prefix_append _ _

/-- On a closed writer `Close` raises Closed and nothing changes (R146). -/
theorem closeWriter_closed {s : State} (h : s.wclosed = true) : closeWriter s = .raised .closed s := by
  simp [closeWriter, h]

end Sys2Proof.Machine
end

