-- ==== Sys2Proof/Laws/Tree.lean ====
section
/-! SUPPORT. Trees: sizes and shapes, when an arena represents one, and what the recursive procedures over the arena
(`serialize`, `walkCodes`, `readNode`) do on a represented tree, said once each. -/

namespace Sys2Proof.Machine

/-! ### Sizes and shapes -/

@[simp] theorem Tree.index_leaf (i : Idx) (b : Byte) : (Tree.leaf i b).index = i := rfl

@[simp] theorem Tree.index_inner (i : Idx) (l r : Tree) : (Tree.inner i l r).index = i := rfl

theorem Tree.size_pos (t : Tree) : 0 < t.size := by cases t <;> simp [Tree.size]

@[simp] theorem Tree.indices_length (t : Tree) : t.indices.length = t.size := by
  induction t with
  | leaf i b => rfl
  | inner i l r hl hr => simp [Tree.indices, Tree.size, hl, hr]

theorem Tree.size_eq (t : Tree) : t.size + 1 = 2 * t.symbols.length := by
  induction t with
  | leaf i b => rfl
  | inner i l r hl hr => simp only [Tree.size, Tree.symbols, List.length_append]; omega

theorem Tree.height_lt (t : Tree) : 2 * t.height < t.size := by
  induction t with
  | leaf i b => simp [Tree.height, Tree.size]
  | inner i l r hl hr => simp only [Tree.height, Tree.size]; omega

theorem Tree.index_mem (t : Tree) : t.index ∈ t.indices := by cases t <;> simp [Tree.index, Tree.indices]

theorem Tree.symbols_ne_nil (t : Tree) : t.symbols ≠ [] := by
  induction t with
  | leaf i b => simp [Tree.symbols]
  | inner i l r hl hr => simp [Tree.symbols, hl]

theorem Tree.bits_length (t : Tree) : (t.bits).length + 1 = 10 * t.symbols.length := by
  induction t with
  | leaf i b => simp [Tree.bits, Tree.symbols]
  | inner i l r hl hr => simp only [Tree.bits, Tree.symbols, List.length_append, List.length_cons]; omega

theorem Tree.paths_fst (t : Tree) : t.paths.map Prod.fst = t.symbols := by
  induction t with
  | leaf i b => rfl
  | inner i l r hl hr => simp [Tree.paths, Tree.symbols, ← hl, ← hr, Function.comp_def]

theorem Tree.paths_length_le (t : Tree) : ∀ p ∈ t.paths, p.2.length ≤ t.height := by
  induction t with
  | leaf i b => simp [Tree.paths]
  | inner i l r hl hr =>
    intro p hp
    simp only [Tree.paths, List.mem_append, List.mem_map] at hp
    rcases hp with ⟨q, hq, rfl⟩ | ⟨q, hq, rfl⟩
    · have := hl q hq; simp only [List.length_cons, Tree.height]; omega
    · have := hr q hq; simp only [List.length_cons, Tree.height]; omega

theorem Tree.sameShape_refl (t : Tree) : t.sameShape t = true := by
  induction t with
  | leaf i b => simp [Tree.sameShape]
  | inner i l r hl hr => simp [Tree.sameShape, hl, hr]

/-- Two trees with the same shape and symbols have the same bits, symbols and paths. -/
theorem Tree.sameShape_eqs {t u : Tree} (h : t.sameShape u = true) :
    t.bits = u.bits ∧ t.symbols = u.symbols ∧ t.paths = u.paths ∧ t.size = u.size ∧ t.isLeaf = u.isLeaf := by
  induction t generalizing u with
  | leaf i b =>
    cases u with
    | leaf j c => simp [Tree.sameShape] at h; subst h; simp [Tree.bits, Tree.symbols, Tree.paths, Tree.size, Tree.isLeaf]
    | inner j l r => simp [Tree.sameShape] at h
  | inner i l r hl hr =>
    cases u with
    | leaf j c => simp [Tree.sameShape] at h
    | inner j l' r' =>
      simp only [Tree.sameShape, Bool.and_eq_true] at h
      obtain ⟨a1, a2, a3, a4, -⟩ := hl h.1
      obtain ⟨b1, b2, b3, b4, -⟩ := hr h.2
      simp [Tree.bits, Tree.symbols, Tree.paths, Tree.size, Tree.isLeaf, a1, a2, a3, a4, b1, b2, b3, b4]

/-- No serialized tree is the beginning of another: the bits give back the tree (R241). -/
theorem Tree.bits_append_inj (t : Tree) :
    ∀ {u : Tree} {a b : List Bool}, t.bits ++ a = u.bits ++ b → t.sameShape u = true ∧ a = b := by
  induction t with
  | leaf i x =>
    intro u a b h
    cases u with
    | leaf j y =>
      simp only [Tree.bits, List.cons_append, List.cons.injEq, true_and] at h
      obtain ⟨h1, h2⟩ := List.append_inj h (by simp)
      simp [Tree.sameShape, msbBits_injective h1, h2]
    | inner j l r => simp [Tree.bits] at h
  | inner i l r hl hr =>
    intro u a b h
    cases u with
    | leaf j y => simp [Tree.bits] at h
    | inner j l' r' =>
      simp only [Tree.bits, List.cons_append, List.cons.injEq, true_and, List.append_assoc] at h
      obtain ⟨h1, h2⟩ := hl h
      obtain ⟨h3, h4⟩ := hr h2
      simp [Tree.sameShape, h1, h3, h4]

/-! ### Represented trees -/

theorem represents_congr {n m : List (Option NodeRec)} (t : Tree)
    (h : ∀ i ∈ t.indices, (n[i.toNat]?).join = (m[i.toNat]?).join) : represents n t = represents m t := by
  induction t with
  | leaf i b => simp only [represents, h i (by simp [Tree.indices])]
  | inner i l r hl hr =>
    simp only [represents, h i (by simp [Tree.indices]), hl fun j hj => h j (by simp [Tree.indices, hj]),
      hr fun j hj => h j (by simp [Tree.indices, hj])]

theorem represents_lt {n : List (Option NodeRec)} (t : Tree) (h : represents n t = true) :
    ∀ i ∈ t.indices, i.toNat < n.length := by
  have get : ∀ (i : Idx), (n[i.toNat]?).join ≠ none → i.toNat < n.length := fun i hi => by
    by_contra hn
    exact hi (by rw [List.getElem?_eq_none (by omega)]; rfl)
  induction t with
  | leaf i b =>
    intro j hj
    obtain rfl : j = i := by simpa [Tree.indices] using hj
    refine get j fun e => ?_
    simp [represents, e] at h
  | inner i l r hl hr =>
    simp only [represents, Bool.and_eq_true] at h
    intro j hj
    simp only [Tree.indices, List.mem_cons, List.mem_append] at hj
    rcases hj with rfl | hj | hj
    · refine get j fun e => ?_
      simp [e] at h
    · exact hl h.1.2 j hj
    · exact hr h.2 j hj

/-- What stands in the arena before the tree's own records, or after them, does not matter. -/
theorem represents_append {n : List (Option NodeRec)} (t : Tree) (h : represents n t = true) (l : List (Option NodeRec)) :
    represents (n ++ l) t = true := by
  rw [← h]
  refine represents_congr t fun i hi => ?_
  rw [List.getElem?_append_left (represents_lt t h i hi)]

/-- The record of a represented leaf. -/
theorem nodeAt_leaf {s : State} {i : Idx} {b : Byte} (h : represents s.node (.leaf i b) = true) :
    ∃ r, s.nodeAt i = some r ∧ r.leaf = true ∧ r.sym = b := by
  simp only [represents] at h
  unfold State.nodeAt
  split at h
  · next r hr => exact ⟨r, hr, by simpa using h⟩
  · exact absurd h (by simp)

/-- The record of a represented internal node. -/
theorem nodeAt_inner {s : State} {i : Idx} {l r : Tree} (h : represents s.node (.inner i l r) = true) :
    (∃ q, s.nodeAt i = some q ∧ q.leaf = false ∧ q.left = l.index ∧ q.right = r.index)
      ∧ represents s.node l = true ∧ represents s.node r = true := by
  simp only [represents, Bool.and_eq_true] at h
  refine ⟨?_, h.1.2, h.2⟩
  have h0 := h.1.1
  unfold State.nodeAt
  split at h0
  · next q hq => exact ⟨q, hq, by simpa [and_assoc] using h0⟩
  · exact absurd h0 (by simp)

/-- A represented tree whose records are each reached once fits the arena (R34), so it is at most 255 high. -/
theorem represents_size_le {n : List (Option NodeRec)} (t : Tree) (h : represents n t = true) (hd : t.indices.Nodup) :
    t.size ≤ n.length := by
  have hsub : (t.indices.map BitVec.toNat) ⊆ List.range n.length := by
    intro k hk
    obtain ⟨i, hi, rfl⟩ := List.mem_map.1 hk
    exact List.mem_range.2 (represents_lt t h i hi)
  have hnd : (t.indices.map BitVec.toNat).Nodup := hd.map fun a b e => BitVec.eq_of_toNat_eq e
  simpa using (hnd.subperm hsub).length_le

/-! ### Serialization -/

/-- `Ser(n)` puts the bits of the tree at n (R70, R213); on a closed writer both raise at the first bit. -/
theorem serialize_eq (t : Tree) :
    ∀ {fuel : Nat} {s : State}, represents s.node t = true → t.height ≤ fuel →
      serialize fuel t.index s = putBits t.bits s := by
  induction t with
  | leaf i b =>
    intro fuel s h _
    obtain ⟨r, hr, hl, rfl⟩ := nodeAt_leaf h
    rw [serialize.eq_def]
    simp only [Tree.index_leaf, hr, hl, if_true, Tree.bits, putLeaf, putBits]
    rfl
  | inner i l r hl hr =>
    intro fuel s h hf
    obtain ⟨⟨q, hq, hql, hqa, hqb⟩, hrl, hrr⟩ := nodeAt_inner h
    obtain ⟨k, rfl⟩ : ∃ k, fuel = k + 1 := ⟨fuel - 1, by simp [Tree.height] at hf; omega⟩
    simp only [Tree.height] at hf
    rw [serialize.eq_def]
    simp only [Tree.index_inner, hq, hql, hqa, hqb, Tree.bits, putBits, Bool.false_eq_true, if_false]
    cases hc : s.wclosed with
    | true => rw [putBit_closed _ hc]; rfl
    | false =>
      obtain ⟨s1, h1, -, o1, -⟩ := putBit_ok false hc
      have c1 : s1.wclosed = false := by rw [o1]; exact hc
      have n1 : s1.node = s.node := by rw [o1]; rfl
      obtain ⟨s2, h2, -, o2, -⟩ := putBits_ok l.bits c1
      have n2 : s2.node = s.node := by rw [o2]; exact n1
      rw [h1, Res.bind, Res.bind, putBits_append, hl (by rw [n1]; exact hrl) (by omega), h2, Res.bind, Res.bind,
        hr (by rw [n2]; exact hrr) (by omega)]

/-! ### The code table -/

/-- Write a list of codes, one after another. -/
def putCodes (c : Vector (List Bool) 256) (l : List (Byte × List Bool)) : Vector (List Bool) 256 :=
  l.foldl (fun c p => c.set (symIndex p.1).val p.2 (symIndex p.1).isLt) c

theorem putCodes_append (c : Vector (List Bool) 256) (a b : List (Byte × List Bool)) :
    putCodes c (a ++ b) = putCodes (putCodes c a) b := List.foldl_append ..

/-- The walk writes every leaf's path, left before right (R210). -/
theorem walkCodes_eq (t : Tree) :
    ∀ {fuel : Nat} {path : List Bool} {s : State}, represents s.node t = true → t.height ≤ fuel →
      walkCodes fuel t.index path s
        = .ok () (s.setCode (putCodes s.code (t.paths.map fun p => (p.1, path ++ p.2)))) := by
  induction t with
  | leaf i b =>
    intro fuel path s h _
    obtain ⟨r, hr, hl, rfl⟩ := nodeAt_leaf h
    rw [walkCodes.eq_def]
    simp [hr, hl, Tree.paths, putCodes, putCode]
  | inner i l r hl hr =>
    intro fuel path s h hf
    obtain ⟨⟨q, hq, hql, hqa, hqb⟩, hrl, hrr⟩ := nodeAt_inner h
    obtain ⟨k, rfl⟩ : ∃ k, fuel = k + 1 := ⟨fuel - 1, by simp [Tree.height] at hf; omega⟩
    simp only [Tree.height] at hf
    rw [walkCodes.eq_def]
    simp only [Tree.index_inner, hq, hql, hqa, hqb, Bool.false_eq_true, if_false]
    have key := fun c => hr (s := s.setCode c) (path := path ++ [true]) (fuel := k) hrr (by omega)
    rw [hl hrl (by omega), Res.bind, key]
    simp [Tree.paths, putCodes_append, Function.comp_def, State.setCode]

theorem get_putCodes (l : List (Byte × List Bool)) :
    ∀ (c : Vector (List Bool) 256) (b : Byte),
      (putCodes c l).get (symIndex b)
        = (((l.filter fun p => p.1 = b).getLast?).map Prod.snd).getD (c.get (symIndex b)) := by
  induction l using List.reverseRecOn with
  | nil => intro c b; rfl
  | append_singleton l p ih =>
    intro c b
    rw [putCodes_append]
    simp only [putCodes, List.foldl_cons, List.foldl_nil]
    rw [List.filter_append]
    by_cases hp : p.1 = b
    · subst hp
      simp [Vector.get_eq_getElem]
    · have hne : (symIndex p.1).val ≠ (symIndex b).val := fun e => hp (BitVec.eq_of_toNat_eq e)
      have := ih c b
      simp only [putCodes] at this
      simp only [Vector.get_eq_getElem] at this ⊢
      rw [Vector.getElem_set_ne _ _ hne, this]
      simp [hp]

end Sys2Proof.Machine
end

