-- ==== Sys2Proof/Laws/Build.lean ====
section
/-! SUPPORT. FREQ and BUILD (43_tree_builder.md): what the frequency loop leaves, and that BUILD's heap makes the tree the
least-key rule gives (R195, R196, R197). -/

namespace Sys2Proof.Machine

/-! ### FREQ -/

theorem get_bumpFreq (f : Vector Word 256) (a b : Byte) :
    (bumpFreq f a).get (symIndex b) = f.get (symIndex b) + if a = b then 1 else 0 := by
  by_cases h : a = b
  · subst h; simp [bumpFreq, Vector.get_eq_getElem]
  · have hne : (symIndex a).val ≠ (symIndex b).val := fun e => h (BitVec.eq_of_toNat_eq e)
    rw [bumpFreq, Vector.get_eq_getElem, Vector.getElem_set_ne _ _ hne, if_neg h]
    simp [Vector.get_eq_getElem]

theorem get_foldl_bumpFreq (l : List Byte) (b : Byte) :
    ∀ f : Vector Word 256, (l.foldl bumpFreq f).get (symIndex b) = f.get (symIndex b) + BitVec.ofNat 32 (l.count b) := by
  induction l with
  | nil => intro f; simp
  | cons a l ih =>
    intro f
    rw [List.foldl_cons, ih, get_bumpFreq, List.count_cons]
    by_cases h : a = b
    · subst h; simp [BitVec.add_assoc, BitVec.ofNat_add, BitVec.add_comm 1#32]
    · simp [h]

/-- FREQ's loop on an input that fits (R190). -/
theorem freqLoop_ok (l : List Byte) :
    ∀ {s : State}, s.src = l → s.inbuf.length + l.length ≤ s.inbufCap →
      freqLoop l s = .ok () (s.setInput (s.inbuf ++ l) (l.foldl bumpFreq s.freq) []) := by
  induction l with
  | nil =>
    intro s hs _
    simp only [freqLoop, List.append_nil, List.foldl_nil, State.setInput]
    rw [← hs]
  | cons r l ih =>
    intro s hs hc
    simp only [List.length_cons] at hc
    rw [freqLoop, if_neg (by omega), ih (by rfl) (by simp; omega)]
    simp [State.setInput]

/-- FREQ's loop on an input that is too long (R190): the byte over INBUF_CAP is taken and dropped. -/
theorem freqLoop_over (l : List Byte) :
    ∀ {s : State} (n : Nat), s.inbuf.length + n = s.inbufCap → n < l.length →
      freqLoop l s = .raised .capacity
        (s.setInput (s.inbuf ++ l.take n) ((l.take n).foldl bumpFreq s.freq) (l.drop (n + 1))) := by
  induction l with
  | nil => intro s n _ h; simp at h
  | cons r l ih =>
    intro s n hc hn
    rcases n with _ | n
    · rw [freqLoop, if_pos (by omega)]; simp
    · rw [freqLoop, if_neg (by omega), ih n (by simp; omega) (by simpa using hn)]
      simp [State.setInput]

theorem get_replicate_zero (b : Byte) : (Vector.replicate 256 (0 : Word)).get (symIndex b) = 0 := by
  simp [Vector.get_eq_getElem]

theorem symIndex_ofNat (i : Fin 256) : symIndex (BitVec.ofNat 8 i.val) = i := by
  apply Fin.ext
  simp only [symIndex, BitVec.toNat_ofNat]
  exact Nat.mod_eq_of_lt i.isLt

theorem foldl_bumpFreq_eq (l : List Byte) : l.foldl bumpFreq (Vector.replicate 256 0) = inputFreq l := by
  apply Vector.ext
  intro i hi
  have := get_foldl_bumpFreq l (BitVec.ofNat 8 i) (Vector.replicate 256 0)
  rw [symIndex_ofNat ⟨i, hi⟩] at this
  have hz : (Vector.replicate 256 (0 : Word)).get ⟨i, hi⟩ = 0#32 := by simp [Vector.get_eq_getElem]
  rw [hz, BitVec.zero_add] at this
  simp only [inputFreq, Vector.getElem_ofFn]
  exact this

theorem get_inputFreq (l : List Byte) (b : Byte) : (inputFreq l).get (symIndex b) = BitVec.ofNat 32 (l.count b) := by
  rw [← foldl_bumpFreq_eq, get_foldl_bumpFreq, get_replicate_zero]
  exact BitVec.zero_add _

/-- What FREQ does on an input that fits (R190). -/
theorem analyze_ok {s : State} (h : s.src.length ≤ s.inbufCap) :
    analyze s = .ok () ((s.setInput s.src (inputFreq s.src) []).setCount (BitVec.ofNat 32 s.src.length)) := by
  rw [analyze, freqLoop_ok (s := (s.setInput [] _ s.src).setCount 0) s.src rfl (by simpa using h)]
  simp only [Res.bind, State.setCount_inbuf, State.setInput_inbuf, State.setCount_freq, State.setInput_freq,
    List.nil_append, foldl_bumpFreq_eq]
  rfl

/-- What FREQ does on an input that is too long (R190). -/
theorem analyze_over {s : State} (h : s.inbufCap < s.src.length) :
    analyze s = .raised .capacity ((s.setInput (s.src.take s.inbufCap) (inputFreq (s.src.take s.inbufCap))
      (s.src.drop (s.inbufCap + 1))).setCount 0) := by
  rw [analyze, freqLoop_over (s := (s.setInput [] _ s.src).setCount 0) s.src s.inbufCap (by simp) h]
  simp only [Res.bind, State.setCount_inbuf, State.setInput_inbuf, State.setCount_freq, State.setInput_freq,
    List.nil_append, foldl_bumpFreq_eq]
  rfl

/-! ### Entries in key order -/

/-- The key of an entry, as a number (R31). -/
def entryKey (p : Entry) : Nat := (elementKey p.1).toNat

theorem entryKey_eq (p : Entry) : entryKey p = p.1.freq.toNat * 512 + p.1.tie.toNat := elementKey_toNat p.1

theorem entryKey_ne {p q : Entry} (h : p.1.tie ≠ q.1.tie) : entryKey p ≠ entryKey q := by
  rw [entryKey_eq, entryKey_eq]
  have h1 := p.1.tie.isLt
  have h2 := q.1.tie.isLt
  have h3 : p.1.tie.toNat ≠ q.1.tie.toNat := fun e => h (BitVec.eq_of_toNat_eq e)
  omega

theorem insertEntry_perm (p : Entry) (l : List Entry) : (insertEntry p l).Perm (p :: l) := by
  induction l with
  | nil => exact List.Perm.refl _
  | cons q qs ih =>
    rw [insertEntry]
    split
    · exact List.Perm.refl _
    · exact (ih.cons q).trans (List.Perm.swap p q qs)

theorem insertEntry_sorted {p : Entry} {l : List Entry} (hl : l.Pairwise fun a b => entryKey a < entryKey b)
    (hp : ∀ q ∈ l, entryKey p ≠ entryKey q) : (insertEntry p l).Pairwise fun a b => entryKey a < entryKey b := by
  induction l with
  | nil => simp [insertEntry]
  | cons q qs ih =>
    rw [List.pairwise_cons] at hl
    rw [insertEntry]
    split
    · next hlt =>
      refine List.pairwise_cons.2 ⟨fun a ha => ?_, List.pairwise_cons.2 hl⟩
      rcases List.mem_cons.1 ha with rfl | ha
      · exact hlt
      · exact Nat.lt_trans hlt (hl.1 a ha)
    · next hlt =>
      refine List.pairwise_cons.2 ⟨fun a ha => ?_, ih hl.2 fun r hr => hp r (by simp [hr])⟩
      rcases List.mem_cons.1 ((insertEntry_perm p qs).mem_iff.1 ha) with rfl | ha
      · have := hp q (by simp)
        simp only [entryKey] at *
        omega
      · exact hl.1 a ha

/-! ### Weights -/

theorem weight_append (f : Vector Word 256) (a b : List Byte) : weight f (a ++ b) = weight f a + weight f b := by
  induction a with
  | nil => simp [weight]
  | cons x xs ih =>
    simp only [weight, List.cons_append, List.foldr_cons] at *
    rw [ih, BitVec.add_assoc]

/-- Every record of the tree is the one BUILD writes: with the sum of the frequencies below it (R195, R196). -/
def weighed (f : Vector Word 256) (node : List (Option NodeRec)) (t : Tree) : Prop :=
  ∀ u ∈ t.subtrees, (node[u.index.toNat]?).join = some (recordOf f u)

theorem Tree.subtrees_index_mem (t : Tree) : ∀ u ∈ t.subtrees, u.index ∈ t.indices := by
  induction t with
  | leaf i b => intro u hu; simp [Tree.subtrees] at hu; subst hu; simp [Tree.indices]
  | inner i l r hl hr =>
    intro u hu
    simp only [Tree.subtrees, List.mem_cons, List.mem_append] at hu
    simp only [Tree.indices, List.mem_cons, List.mem_append]
    rcases hu with rfl | hu | hu
    · exact .inl rfl
    · exact .inr (.inl (hl u hu))
    · exact .inr (.inr (hr u hu))

theorem weighed_append {f : Vector Word 256} {n : List (Option NodeRec)} {t : Tree} (hr : represents n t = true)
    (h : weighed f n t) (l : List (Option NodeRec)) : weighed f (n ++ l) t := by
  intro u hu
  rw [List.getElem?_append_left (represents_lt t hr _ (t.subtrees_index_mem u hu))]
  exact h u hu

/-! ### The forest BUILD works on -/

/-- The queue and the arena hold these entries, listed in key order. -/
structure Forest (s : State) (fs : List Entry) : Prop where
  heap    : s.heap.Perm (fs.map Prod.fst)
  desc    : s.pqDesc = false
  order   : heapOrdered false s.heap
  sorted  : fs.Pairwise fun p q => entryKey p < entryKey q
  trees   : ∀ p ∈ fs, represents s.node p.2 = true ∧ p.2.index = p.1.node
  owned   : (fs.flatMap fun p => p.2.indices).Nodup
  weights : ∀ p ∈ fs, p.1.freq = weight s.freq p.2.symbols ∧ weighed s.freq s.node p.2

theorem Forest.heap_length {s : State} {fs : List Entry} (h : Forest s fs) : s.heap.length = fs.length := by
  simpa using h.heap.length_eq

/-- `HeapPop()` returns the entry of least key (R174, R197). -/
theorem Forest.pop {s : State} {p : Entry} {fs : List Entry} (h : Forest s (p :: fs)) :
    ∃ u, heapPop s = .ok p.1 u ∧ u = s.setHeap u.heap ∧ Forest u fs := by
  cases hs : s.heap with
  | nil => have := h.heap_length; rw [hs] at this; simp at this
  | cons x rest =>
    have hperm := h.heap
    have hord := h.order
    have hsort := List.pairwise_cons.1 h.sorted
    rw [hs, List.map_cons] at hperm
    rw [hs] at hord
    have hx : x = p.1 := by
      have hle := heapOrdered_head_le hord p.1 (hperm.mem_iff.2 (by simp))
      rcases List.mem_cons.1 (hperm.mem_iff.1 (List.mem_cons_self)) with rfl | hm
      · rfl
      · obtain ⟨q, hq, rfl⟩ := List.mem_map.1 hm
        have := hsort.1 q hq
        simp only [rank, entryKey, Bool.false_eq_true, if_false] at *
        omega
    subst hx
    refine ⟨s.setHeap (heapRemove s.pqDesc (p.1 :: rest)), heapPop_ok hs, rfl, ?_⟩
    rw [h.desc]
    exact {
      heap := (heapRemove_perm false _ rest).trans (List.Perm.cons_inv hperm)
      desc := h.desc
      order := heapRemove_ordered hord
      sorted := hsort.2
      trees := fun q hq => h.trees q (by simp [hq])
      owned := by
        have := h.owned
        rw [List.flatMap_cons] at this
        exact (List.nodup_append.1 this).2.1
      weights := fun q hq => h.weights q (by simp [hq]) }

/-- `node[n_nodes] <- r` and `HeapPush(e)` add one entry. -/
theorem Forest.push {s : State} {fs : List Entry} (h : Forest s fs) {e : Element} {t : Tree} {r : NodeRec}
    (hcap : s.heap.length < Config.pqCap) (hidx : t.index = e.node)
    (hkey : ∀ q ∈ fs, entryKey (e, t) ≠ entryKey q)
    (hrep : represents (s.node ++ [some r]) t = true)
    (hown : (t.indices ++ fs.flatMap fun p => p.2.indices).Nodup)
    (hw : e.freq = weight s.freq t.symbols) (hwt : weighed s.freq (s.node ++ [some r]) t) :
    ∃ u, heapPush e (appendNode r s) = .ok () u ∧ u = (s.setHeap u.heap).setArena (s.node ++ [some r])
      ∧ Forest u (insertEntry (e, t) fs) := by
  refine ⟨(appendNode r s).setHeap (heapInsert false s.heap e), ?_, rfl, ?_⟩
  · rw [heapPush_ok e (by exact hcap)]
    simp only [appendNode, State.setArena_pqDesc, State.setArena_heap, h.desc]
  · have hp := insertEntry_perm (e, t) fs
    exact {
      heap := (heapInsert_perm false s.heap e).trans ((h.heap.cons e).trans ((hp.map Prod.fst).symm))
      desc := h.desc
      order := heapInsert_ordered e h.order
      sorted := insertEntry_sorted h.sorted hkey
      trees := fun q hq => by
        rcases List.mem_cons.1 (hp.mem_iff.1 hq) with rfl | hq
        · exact ⟨hrep, hidx⟩
        · exact ⟨represents_append _ (h.trees q hq).1 _, (h.trees q hq).2⟩
      owned := ((hp.flatMap_right fun p => p.2.indices).nodup_iff).2 (by simpa using hown)
      weights := fun q hq => by
        rcases List.mem_cons.1 (hp.mem_iff.1 hq) with rfl | hq
        · exact ⟨hw, hwt⟩
        · exact ⟨(h.weights q hq).1, weighed_append (h.trees q hq).1 (h.weights q hq).2 _⟩ }

/-- Every index a forest uses is below `n_nodes`. -/
theorem Forest.index_lt {s : State} {fs : List Entry} (h : Forest s fs) :
    ∀ i ∈ fs.flatMap fun p => p.2.indices, i.toNat < s.node.length := by
  intro i hi
  obtain ⟨p, hp, hi⟩ := List.mem_flatMap.1 hi
  exact represents_lt p.2 (h.trees p hp).1 i hi

/-! ### BUILD's leaf loop -/

theorem setWidth_nine_inj {a b : Byte} (h : (a.setWidth 9 : Idx) = b.setWidth 9) : a = b := by
  have := congrArg BitVec.toNat h
  have h1 := a.isLt
  have h2 := b.isLt
  simp only [BitVec.toNat_setWidth] at this
  exact BitVec.eq_of_toNat_eq (by omega)

/-- The leaf loop (R195): one leaf record and one entry for every used symbol. -/
theorem buildLeaves_ok (bs : List Byte) :
    ∀ {s : State} {fs : List Entry}, Forest s fs → bs.Nodup → (∀ p ∈ fs, ∀ b ∈ bs, p.1.tie ≠ b.setWidth 9) →
      fs.length ≤ s.node.length → s.node.length + bs.length ≤ 256 →
      ∃ u, buildLeaves bs s = .ok () u ∧ u = (s.setHeap u.heap).setArena u.node
        ∧ Forest u (leafEntries s.freq bs s.node.length fs)
        ∧ u.node = s.node ++ (bs.filter fun b => s.freqAt b ≠ 0).map fun b => some (leafRec b (s.freqAt b)) := by
  induction bs with
  | nil => intro s fs h _ _ _ _; exact ⟨s, rfl, rfl, h, by simp⟩
  | cons b bs ih =>
    intro s fs h hnd ht hl hn
    rw [List.nodup_cons] at hnd
    simp only [List.length_cons] at hn
    by_cases h0 : s.freqAt b = 0
    · obtain ⟨u, hu, heq, hf, hnode⟩ := ih h hnd.2 (fun p hp c hc => ht p hp c (by simp [hc])) hl (by omega)
      refine ⟨u, by rw [buildLeaves, if_pos h0]; exact hu, heq, ?_, by simpa [h0] using hnode⟩
      rw [leafEntries, if_pos (by exact h0)]; exact hf
    · have hidx : (nextNode s).toNat = s.node.length := by
        simp only [nextNode, BitVec.toNat_ofNat]; omega
      have hget : ((s.node ++ [some (leafRec b (s.freqAt b))])[(nextNode s).toNat]?).join
          = some (leafRec b (s.freqAt b)) := by rw [hidx]; simp
      obtain ⟨s1, h1, e1, f1⟩ := h.push (t := .leaf (nextNode s) b) (r := leafRec b (s.freqAt b))
        (e := { freq := s.freqAt b, tie := b.setWidth 9, node := nextNode s })
        (by rw [h.heap_length]; simp only [Config.pqCap]; omega) rfl
        (fun q hq => entryKey_ne fun e => ht q hq b (by simp) e.symm)
        (by simp only [represents, hget]; simp [leafRec])
        (by
          simp only [Tree.indices, List.singleton_append, List.nodup_cons]
          exact ⟨fun hm => by have := h.index_lt _ hm; omega, h.owned⟩)
        (by simp [weight, Tree.symbols, State.freqAt])
        (by
          intro u hu
          obtain rfl : u = .leaf (nextNode s) b := by simpa [Tree.subtrees] using hu
          exact hget)
      have en : s1.node = s.node ++ [some (leafRec b (s.freqAt b))] := by rw [e1]; rfl
      have ef : s1.freq = s.freq := by rw [e1]; rfl
      have el : s1.node.length = s.node.length + 1 := by rw [en]; simp
      obtain ⟨u, hu, heq, hf, hnode⟩ := ih f1 hnd.2
        (fun p hp c hc => by
          rcases List.mem_cons.1 ((insertEntry_perm _ _).mem_iff.1 hp) with rfl | hp
          · intro e
            exact hnd.1 (by rw [setWidth_nine_inj e]; exact hc)
          · exact ht p hp c (by simp [hc]))
        (by rw [(insertEntry_perm _ _).length_eq, el]; simp; omega) (by omega)
      refine ⟨u, by rw [buildLeaves, if_neg h0, h1]; exact hu, ?_, ?_, ?_⟩
      · rw [heq, e1]; rfl
      · rw [leafEntries, if_neg (by exact h0)]
        rw [ef, el] at hf
        exact hf
      · have hfa : ∀ c, s1.freqAt c = s.freqAt c := fun c => by simp only [State.freqAt, ef]
        rw [hnode, en, List.filter_cons_of_pos (by simpa using h0)]
        simp [hfa]

theorem leafEntries_length (f : Vector Word 256) (bs : List Byte) :
    ∀ (n : Nat) (q : List Entry), (leafEntries f bs n q).length
      = q.length + (bs.filter fun b => f.get (symIndex b) ≠ 0).length := by
  induction bs with
  | nil => intro n q; simp [leafEntries]
  | cons b bs ih =>
    intro n q
    rw [leafEntries]
    split
    · next h => rw [ih]; simp [h]
    · next h =>
      rw [ih, (insertEntry_perm _ _).length_eq, List.filter_cons_of_pos (by simpa using h)]
      simp only [List.length_cons]
      omega

theorem leafEntries_symbols (f : Vector Word 256) (bs : List Byte) :
    ∀ (n : Nat) (q : List Entry), ((leafEntries f bs n q).flatMap fun p => p.2.symbols).Perm
      ((q.flatMap fun p => p.2.symbols) ++ bs.filter fun b => f.get (symIndex b) ≠ 0) := by
  induction bs with
  | nil => intro n q; simp [leafEntries]
  | cons b bs ih =>
    intro n q
    rw [leafEntries]
    split
    · next h => simpa [h] using ih n q
    · next h =>
      refine (ih _ _).trans ?_
      have hp := (insertEntry_perm ({ freq := f.get (symIndex b), tie := b.setWidth 9, node := BitVec.ofNat 9 n },
          Tree.leaf (BitVec.ofNat 9 n) b) q).flatMap_right fun p => p.2.symbols
      refine (hp.append_right _).trans ?_
      simp only [List.flatMap_cons, Tree.symbols, List.cons_append]
      rw [List.filter_cons_of_pos (by simpa using h)]
      exact List.perm_middle.symm

theorem leafEntries_tie_lt (f : Vector Word 256) (bs : List Byte) :
    ∀ (n : Nat) (q : List Entry), (∀ p ∈ q, p.1.tie.toNat < 256) → ∀ p ∈ leafEntries f bs n q, p.1.tie.toNat < 256 := by
  induction bs with
  | nil => intro n q h; exact h
  | cons b bs ih =>
    intro n q h
    rw [leafEntries]
    split
    · exact ih n q h
    · refine ih _ _ fun p hp => ?_
      rcases List.mem_cons.1 ((insertEntry_perm _ _).mem_iff.1 hp) with rfl | hp
      · have := b.isLt
        simp only [BitVec.toNat_setWidth]; omega
      · exact h p hp

/-! ### BUILD's merge loop -/

/-- One turn of the merge loop (R195): the two entries of least key become one. -/
theorem Forest.pair {s : State} {a b : Entry} {fs : List Entry} (h : Forest s (a :: b :: fs)) {j : Nat} (hj : j < 256)
    (hlen : fs.length + 2 ≤ 256) (hn : s.node.length < 511)
    (ht : ∀ p ∈ a :: b :: fs, p.1.tie.toNat < 256 + j) :
    ∃ u, buildPair j s = .ok () u ∧ u = (s.setHeap u.heap).setArena u.node ∧ u.node.length = s.node.length + 1
      ∧ u.node.take s.node.length = s.node
      ∧ Forest u (insertEntry
          ({ freq := a.1.freq + b.1.freq, tie := BitVec.ofNat 9 (256 + j), node := BitVec.ofNat 9 s.node.length },
            .inner (BitVec.ofNat 9 s.node.length) a.2 b.2) fs) := by
  obtain ⟨s1, h1, e1, f1⟩ := h.pop
  obtain ⟨s2, h2, e2, f2⟩ := f1.pop
  have n1 : s1.node = s.node := by rw [e1]; rfl
  have n2 : s2.node = s.node := by rw [e2]; exact n1
  have q1 : s1.freq = s.freq := by rw [e1]; rfl
  have q2 : s2.freq = s.freq := by rw [e2]; exact q1
  have hid : nextNode s2 = BitVec.ofNat 9 s.node.length := by rw [nextNode, n2]
  have hidx : (BitVec.ofNat 9 s.node.length).toNat = s.node.length := by
    simp only [BitVec.toNat_ofNat]; omega
  have ha := h.trees a (by simp)
  have hb := h.trees b (by simp)
  have wa := h.weights a (by simp)
  have wb := h.weights b (by simp)
  have hget : ((s.node ++ [some (innerRec a.1.node b.1.node (a.1.freq + b.1.freq))])[s.node.length]?).join
      = some (innerRec a.1.node b.1.node (a.1.freq + b.1.freq)) := by simp
  have hwsum : a.1.freq + b.1.freq = weight s.freq (Tree.inner (BitVec.ofNat 9 s.node.length) a.2 b.2).symbols := by
    rw [Tree.symbols, weight_append, ← wa.1, ← wb.1]
  obtain ⟨u, hu, eu, fu⟩ := f2.push (t := .inner (BitVec.ofNat 9 s.node.length) a.2 b.2)
    (r := innerRec a.1.node b.1.node (a.1.freq + b.1.freq))
    (e := { freq := a.1.freq + b.1.freq, tie := BitVec.ofNat 9 (256 + j), node := BitVec.ofNat 9 s.node.length })
    (by rw [f2.heap_length]; simp only [Config.pqCap]; omega) rfl
    (fun q hq => entryKey_ne fun e => by
      have := ht q (by simp [hq])
      have e' := congrArg BitVec.toNat e
      simp only [BitVec.toNat_ofNat] at e'
      omega)
    (by
      rw [n2]
      simp only [represents, hidx, hget, Bool.and_eq_true]
      exact ⟨⟨by simp [innerRec, ha.2, hb.2], represents_append _ ha.1 _⟩, represents_append _ hb.1 _⟩)
    (by
      have := h.owned
      simp only [List.flatMap_cons] at this
      simp only [Tree.indices, List.cons_append, List.append_assoc, List.nodup_cons]
      refine ⟨fun hm => ?_, this⟩
      have hlt := h.index_lt (BitVec.ofNat 9 s.node.length) (by simpa using hm)
      omega)
    (by rw [q2]; exact hwsum)
    (by
      rw [n2, q2]
      intro v hv
      simp only [Tree.subtrees, List.mem_cons, List.mem_append] at hv
      rcases hv with rfl | hv | hv
      · rw [Tree.index_inner, hidx, hget, recordOf, ha.2, hb.2, hwsum]; rfl
      · exact weighed_append ha.1 wa.2 _ v hv
      · exact weighed_append hb.1 wb.2 _ v hv)
  have un : u.node = s.node ++ [some (innerRec a.1.node b.1.node (a.1.freq + b.1.freq))] := by rw [eu, n2]; rfl
  have e12 : ∀ x, s2.setHeap x = s.setHeap x := fun x => by rw [e2, e1]; rfl
  refine ⟨u, ?_, ?_, by rw [un]; simp, by rw [un]; simp, fu⟩
  · rw [buildPair, h1, Res.bind, h2, Res.bind, hid]; exact hu
  · calc u = (s2.setHeap u.heap).setArena (s2.node ++ _) := eu
      _ = (s.setHeap u.heap).setArena u.node := by rw [e12, un, n2]

/-- The merge loop ends with one entry, the one the least-key rule gives (R195, R197). -/
theorem buildPairs_ok (fuel : Nat) :
    ∀ {s : State} {fs : List Entry} {j : Nat}, Forest s fs → fs ≠ [] → fs.length ≤ fuel → fs.length ≤ 256 →
      j + fs.length ≤ 256 → s.node.length + fs.length ≤ 512 → (∀ p ∈ fs, p.1.tie.toNat < 256 + j) →
      ∃ u p, buildPairs fuel j s = .ok () u ∧ u = (s.setHeap u.heap).setArena u.node
        ∧ u.node.length + 1 = s.node.length + fs.length
        ∧ u.node.take s.node.length = s.node
        ∧ mergeEntries fuel j s.node.length fs = [p] ∧ Forest u [p]
        ∧ p.2.symbols.Perm (fs.flatMap fun q => q.2.symbols)
        ∧ (p.1.node.toNat + 1 = s.node.length + fs.length - 1 ∨ fs = [p]) := by
  induction fuel with
  | zero => intro s fs j _ hne hl; exact absurd (List.length_eq_zero_iff.1 (by omega)) hne
  | succ k ih =>
    intro s fs j h hne hl hl256 hj hn ht
    rcases fs with _ | ⟨a, _ | ⟨b, fs⟩⟩
    · exact absurd rfl hne
    · refine ⟨s, a, ?_, rfl, by simp, by simp, rfl, h, by simp, .inr rfl⟩
      rw [buildPairs, if_pos (by rw [h.heap_length]; simp)]
    · simp only [List.length_cons] at hl hl256 hj hn
      obtain ⟨s1, h1, e1, l1, t1, f1⟩ := h.pair (j := j) (by omega) (by omega) (by omega) ht
      have hp := insertEntry_perm
        ({ freq := a.1.freq + b.1.freq, tie := BitVec.ofNat 9 (256 + j), node := BitVec.ofNat 9 s.node.length },
            Tree.inner (BitVec.ofNat 9 s.node.length) a.2 b.2) fs
      have hlen := hp.length_eq
      simp only [List.length_cons] at hlen
      obtain ⟨u, p, hu, eu, lu, tu, hm, fu, hsy, hidx⟩ := ih (s := s1) (j := j + 1) f1
        (by intro e; rw [e] at hlen; simp at hlen) (by omega) (by omega) (by omega) (by omega)
        (fun q hq => by
          rcases List.mem_cons.1 (hp.mem_iff.1 hq) with rfl | hq
          · simp only [BitVec.toNat_ofNat]; omega
          · have := ht q (by simp [hq]); omega)
      refine ⟨u, p, ?_, ?_, ?_, ?_, ?_, fu, ?_, ?_⟩
      · rw [buildPairs, if_neg (by rw [h.heap_length]; simp), h1]; exact hu
      · rw [eu, e1]; rfl
      · simp only [List.length_cons]; omega
      · have : s.node.length ≤ s1.node.length := by omega
        rw [← t1, ← tu, List.take_take, Nat.min_eq_left this]
        simp
      · rw [mergeEntries, ← l1]; exact hm
      · refine hsy.trans ((hp.flatMap_right _).trans ?_)
        simp [Tree.symbols]
      · left
        rcases hidx with hidx | hidx
        · simp only [List.length_cons]; omega
        · rw [hidx] at hlen hp
          have hfs : fs = [] := List.length_eq_zero_iff.1 (by simpa using hlen.symm)
          subst hfs
          have : p = _ := List.mem_singleton.1 (hp.mem_iff.1 (List.mem_singleton.2 rfl))
          rw [this]
          simp only [BitVec.toNat_ofNat, List.length_cons, List.length_nil]
          omega

end Sys2Proof.Machine
end

