-- ==== Sys2Proof/Laws/ReadTree.lean ====
section
/-! SUPPORT. RTREE's `ReadNode()` (45_codec_decode.md R240): what it builds from the bits of a tree, and that it ends in
one of three ways from every state; and the walk of DECODE (R248). -/

namespace Sys2Proof.Machine

/-! ### Preorder numbering -/

/-- The tree with its nodes numbered in preorder from n (R240: "records are numbered in preorder"). -/
def Tree.renumber : Nat → Tree → Tree
  | n, .leaf _ b => .leaf (BitVec.ofNat 9 n) b
  | n, .inner _ l r => .inner (BitVec.ofNat 9 n) (l.renumber (n + 1)) (r.renumber (n + 1 + l.size))

/-- The records of a tree read by RTREE, in preorder; frequencies are 0 (R240). -/
def Tree.records : Tree → List NodeRec
  | .leaf _ b => [leafRec b 0]
  | .inner _ l r => innerRec l.index r.index 0 :: (l.records ++ r.records)

@[simp] theorem Tree.records_length (t : Tree) : t.records.length = t.size := by
  induction t with
  | leaf i b => rfl
  | inner i l r hl hr => simp [Tree.records, Tree.size, hl, hr]

@[simp] theorem Tree.renumber_size (t : Tree) : ∀ n, (t.renumber n).size = t.size := by
  induction t with
  | leaf i b => intro n; rfl
  | inner i l r hl hr => intro n; simp [Tree.renumber, Tree.size, hl, hr]

theorem Tree.renumber_sameShape (t : Tree) : ∀ n, (t.renumber n).sameShape t = true := by
  induction t with
  | leaf i b => intro n; simp [Tree.renumber, Tree.sameShape]
  | inner i l r hl hr => intro n; simp [Tree.renumber, Tree.sameShape, hl, hr]

@[simp] theorem Tree.renumber_index (t : Tree) (n : Nat) : (t.renumber n).index = BitVec.ofNat 9 n := by
  cases t <;> rfl

theorem Tree.renumber_indices (t : Tree) : ∀ n, (t.renumber n).indices = (List.range' n t.size).map (BitVec.ofNat 9) := by
  induction t with
  | leaf i b => intro n; rfl
  | inner i l r hl hr =>
    intro n
    simp only [Tree.renumber, Tree.indices, hl, hr, Tree.size]
    rw [List.range'_succ, ← List.range'_append_1, List.map_cons, List.map_append]

theorem Tree.renumber_nodup (t : Tree) (n : Nat) (h : n + t.size ≤ 512) : (t.renumber n).indices.Nodup := by
  rw [Tree.renumber_indices]
  refine List.Nodup.map_on ?_ List.nodup_range'
  intro a ha b hb e
  rw [List.mem_range'_1] at ha hb
  have := congrArg BitVec.toNat e
  simp only [BitVec.toNat_ofNat] at this
  omega

/-- An arena that holds a preorder-numbered tree's records from position n on represents it. -/
theorem represents_renumber (t : Tree) :
    ∀ (n : Nat) (pre post : List (Option NodeRec)), pre.length = n → n + t.size ≤ 512 →
      represents (pre ++ (t.renumber n).records.map some ++ post) (t.renumber n) = true := by
  induction t with
  | leaf i b =>
    intro n pre post hp hn
    simp only [Tree.size] at hn
    have hm : (BitVec.ofNat 9 n).toNat = pre.length := by rw [hp]; exact Nat.mod_eq_of_lt (by omega)
    simp only [Tree.renumber, represents, Tree.records, hm]
    simp [leafRec]
  | inner i l r hl hr =>
    intro n pre post hp hn
    simp only [Tree.size] at hn
    have hm : (BitVec.ofNat 9 n).toNat = pre.length := by rw [hp]; exact Nat.mod_eq_of_lt (by omega)
    have hL := hl (n + 1) (pre ++ [some (innerRec (l.renumber (n + 1)).index (r.renumber (n + 1 + l.size)).index 0)])
      ((r.renumber (n + 1 + l.size)).records.map some ++ post) (by simp [hp]) (by omega)
    have hR := hr (n + 1 + l.size)
      (pre ++ [some (innerRec (l.renumber (n + 1)).index (r.renumber (n + 1 + l.size)).index 0)]
        ++ (l.renumber (n + 1)).records.map some) post (by simp [hp]; omega) (by omega)
    simp only [Tree.renumber, represents, Tree.records, List.map_cons, List.map_append, Bool.and_eq_true]
    refine ⟨⟨?_, by simpa using hL⟩, by simpa using hR⟩
    rw [hm]
    simp [innerRec]

/-! ### ReadNode -/

/-- `t` is `s` but for the reader and the arena. -/
def ReadTreeOnly (s t : State) : Prop := t = (s.setReader t.rbuf t.rcnt t.src).setArena t.node

theorem ReadTreeOnly.trans {s t u : State} (h : ReadTreeOnly s t) (k : ReadTreeOnly t u) : ReadTreeOnly s u := by
  unfold ReadTreeOnly at *
  rw [k, h]
  rfl

theorem ReadTreeOnly.setArena (s : State) (l : List (Option NodeRec)) : ReadTreeOnly s (s.setArena l) := rfl

theorem ReaderOnly.readTreeOnly {s t : State} (h : ReaderOnly s t) : ReadTreeOnly s t := by
  unfold ReadTreeOnly ReaderOnly at *
  rw [h]
  rfl

theorem ReaderOnly.node_eq {s t : State} (h : ReaderOnly s t) : t.node = s.node := by
  rw [h]; rfl

theorem readerBits_setArena (s : State) (l : List (Option NodeRec)) : readerBits (s.setArena l) = readerBits s := rfl

theorem nextNode_toNat {s : State} (h : s.node.length < 512) : (nextNode s).toNat = s.node.length := by
  simp only [nextNode, BitVec.toNat_ofNat]
  exact Nat.mod_eq_of_lt h

theorem readNode_eq (fuel : Nat) (s : State) :
    readNode fuel s = (getBit s).bind fun b s1 =>
      if s1.node.length = Config.nodeCap then .raised .capacity s1
      else if b then
        (getChar (allocNode s1)).bind fun v s2 => .ok (nextNode s1) (writeNode (nextNode s1) (leafRec v 0) s2)
      else
        match fuel with
        | 0 => .stuck .traversalStackOverflow
        | k + 1 =>
          (readNode k (allocNode s1)).bind fun l s2 =>
            (readNode k s2).bind fun r s3 => .ok (nextNode s1) (writeNode (nextNode s1) (innerRec l r 0) s3) :=
  readNode.eq_def fuel s

/-- From the bits of a tree, `ReadNode()` rebuilds it (R240, R241): the records are appended in preorder, the bits of the
tree are consumed and no more. -/
theorem readNode_ok (t : Tree) :
    ∀ {fuel : Nat} {s : State} {rest : List Bool}, readerBits s = t.bits ++ rest → t.height ≤ fuel →
      s.node.length + t.size ≤ Config.nodeCap →
      ∃ u, readNode fuel s = .ok (BitVec.ofNat 9 s.node.length) u ∧ readerBits u = rest ∧ ReadTreeOnly s u
        ∧ u.node = s.node ++ (t.renumber s.node.length).records.map some ∧ u.rcnt.val < 8 ∧ u.src <:+ s.src := by
  induction t with
  | leaf i b =>
    intro fuel s rest hb _ hn
    simp only [Tree.bits, List.cons_append] at hb
    simp only [Tree.size, Config.nodeCap] at hn
    obtain ⟨s1, h1, hr1, ho1, -, hs1⟩ := getBit_ok hb
    have n1 := ho1.node_eq
    obtain ⟨s2, h2, hr2, ho2, hc2, hs2⟩ := getChar_ok (s := allocNode s1) b hr1
    have n2 := ho2.node_eq
    have hnc : ¬ s1.node.length = Config.nodeCap := by rw [n1]; simp only [Config.nodeCap]; omega
    have hid : nextNode s1 = BitVec.ofNat 9 s.node.length := by rw [nextNode, n1]
    have hidn : (nextNode s1).toNat = s.node.length := by rw [nextNode_toNat (by rw [n1]; omega), n1]
    refine ⟨writeNode (nextNode s1) (leafRec b 0) s2, ?_, hr2, ?_, ?_, hc2, hs2.trans hs1⟩
    · rw [readNode_eq, h1]
      simp only [Res.bind, hnc, if_false, if_true, h2, hid]
    · exact ho1.readTreeOnly.trans ((ReadTreeOnly.setArena _ _).trans (ho2.readTreeOnly.trans (ReadTreeOnly.setArena _ _)))
    · simp only [writeNode, State.setArena_node, n2, allocNode, n1, hidn, Tree.renumber, Tree.records]
      simp
  | inner i l r hl hr =>
    intro fuel s rest hb hf hn
    obtain ⟨k, rfl⟩ : ∃ k, fuel = k + 1 := ⟨fuel - 1, by simp [Tree.height] at hf; omega⟩
    simp only [Tree.bits, List.cons_append, List.append_assoc] at hb
    simp only [Tree.height] at hf
    simp only [Tree.size] at hn
    obtain ⟨s1, h1, hr1, ho1, -, hs1⟩ := getBit_ok hb
    have n1 := ho1.node_eq
    have hnc : ¬ s1.node.length = Config.nodeCap := by rw [n1]; omega
    have ha : (allocNode s1).node.length = s.node.length + 1 := by simp [allocNode, n1]
    obtain ⟨s2, h2, hr2, ho2, e2, -, hs2⟩ := hl (fuel := k) (s := allocNode s1) hr1 (by omega) (by rw [ha]; omega)
    have l2 : s2.node.length = s.node.length + 1 + l.size := by rw [e2]; simp [ha]
    obtain ⟨s3, h3, hr3, ho3, e3, hc3, hs3⟩ := hr (fuel := k) (s := s2) hr2 (by omega) (by rw [l2]; omega)
    have hid : nextNode s1 = BitVec.ofNat 9 s.node.length := by rw [nextNode, n1]
    have hidn : (nextNode s1).toNat = s.node.length := by
      rw [nextNode_toNat (by rw [n1]; simp only [Config.nodeCap] at hn; omega), n1]
    refine ⟨writeNode (nextNode s1)
      (innerRec (BitVec.ofNat 9 (s.node.length + 1)) (BitVec.ofNat 9 (s.node.length + 1 + l.size)) 0) s3,
      ?_, hr3, ?_, ?_, hc3, (hs3.trans hs2).trans hs1⟩
    · rw [readNode_eq, h1]
      simp only [Res.bind, hnc, if_false, Bool.false_eq_true, h2, h3, hid, ha, l2]
    · exact ho1.readTreeOnly.trans ((ReadTreeOnly.setArena _ _).trans (ho2.trans (ho3.trans (ReadTreeOnly.setArena _ _))))
    · have e : s3.node = s.node ++ none :: ((l.renumber (s.node.length + 1)).records.map some
          ++ (r.renumber (s.node.length + 1 + l.size)).records.map some) := by
        rw [e3, l2, e2, ha]; simp [allocNode, n1]
      simp only [writeNode, State.setArena_node, hidn, e, Tree.renumber, Tree.records, Tree.renumber_index]
      simp

/-- `GetChar()` in general: eight bits, or EndOfStream (R141). -/
theorem getChar_cases (s : State) :
    (∃ v t, getChar s = .ok v t ∧ readerBits s = msbBits v ++ readerBits t ∧ ReaderOnly s t ∧ t.rcnt.val < 8)
      ∨ ∃ t, getChar s = .raised .endOfStream t ∧ bitsLeft t = 0 ∧ ReaderOnly s t ∧ bitsLeft s < 8 := by
  by_cases h : 8 ≤ bitsLeft s
  · left
    rw [← readerBits_length] at h
    obtain ⟨t, ht, hr, ho, hc, -⟩ := getChar_ok _ (take_eq_msbBits h)
    exact ⟨_, t, ht, by rw [hr]; exact take_eq_msbBits h, ho, hc⟩
  · right
    obtain ⟨t, ht, hb, ho⟩ := getBits_eos (w := 8) 8 (v := 0) (s := s) (by omega)
    exact ⟨t, ht, hb, ho, by omega⟩

theorem Tree.heads_length (t : Tree) : t.heads.length = t.size := by
  induction t with
  | leaf i b => rfl
  | inner i l r hl hr => simp [Tree.heads, Tree.size, hl, hr]

theorem Tree.heads_flatten (t : Tree) : t.heads.flatten = t.bits := by
  induction t with
  | leaf i b => simp [Tree.heads, Tree.bits]
  | inner i l r hl hr => simp [Tree.heads, Tree.bits, hl, hr]

/-- Where the reading of a tree stops with an error (R240, R278): after the bits of the first k nodes of a larger tree, and
`part` of the next node. EndOfStream: nothing, or the flag of a leaf and not all of its symbol, is left of that node.
Capacity: the arena is full and the flag of that node is consumed. -/
def StopsInTree (s u : State) (e : Err) : Prop :=
  ∃ (t : Tree) (k : Nat) (part : List Bool), k < t.size
    ∧ readerBits s = (t.heads.take k).flatten ++ part ++ readerBits u
    ∧ (e = .endOfStream ∧ readerBits u = []
        ∧ (part = [] ∧ u.node.length = s.node.length + k
          ∨ (∃ bits : List Bool, part = true :: bits ∧ bits.length < 8) ∧ u.node.length = s.node.length + k + 1)
      ∨ e = .capacity ∧ part.length = 1 ∧ s.node.length + k = Config.nodeCap ∧ u.node.length = Config.nodeCap)

theorem StopsInTree.err {s u : State} {e : Err} (h : StopsInTree s u e) :
    e = .endOfStream ∧ bitsLeft u = 0 ∨ e = .capacity ∧ u.node.length = Config.nodeCap := by
  obtain ⟨t, k, part, -, -, ⟨he, hu, -⟩ | ⟨he, -, -, hu⟩⟩ := h
  · exact .inl ⟨he, by rw [← readerBits_length, hu]; rfl⟩
  · exact .inr ⟨he, hu⟩

/-- Stopping inside the left subtree of an internal node. -/
theorem StopsInTree.left {s s1 u : State} {e : Err} (hb : readerBits s = false :: readerBits s1)
    (hn : s1.node.length = s.node.length + 1) (h : StopsInTree s1 u e) : StopsInTree s u e := by
  obtain ⟨t, k, part, hk, hr, hc⟩ := h
  have hkl : k ≤ t.heads.length := by rw [t.heads_length]; omega
  refine ⟨.inner 0 t (.leaf 0 0), k + 1, part, by simp [Tree.size]; omega, ?_, ?_⟩
  · rw [hb, hr, Tree.heads, List.take_succ_cons, List.take_append_of_le_length hkl]; simp
  · rw [hn] at hc
    rcases hc with ⟨h1, h2, h3⟩ | ⟨h1, h2, h3, h4⟩
    · exact .inl ⟨h1, h2, by rcases h3 with ⟨a, b⟩ | ⟨a, b⟩ <;> [left; right] <;> exact ⟨a, by omega⟩⟩
    · exact .inr ⟨h1, h2, by omega, h4⟩

/-- Stopping inside the right subtree, the left one read. -/
theorem StopsInTree.right {s s2 u : State} {e : Err} (l : Tree) (hb : readerBits s = false :: (l.bits ++ readerBits s2))
    (hn : s2.node.length = s.node.length + 1 + l.size) (h : StopsInTree s2 u e) : StopsInTree s u e := by
  obtain ⟨t, k, part, hk, hr, hc⟩ := h
  refine ⟨.inner 0 l t, l.size + k + 1, part, by simp [Tree.size]; omega, ?_, ?_⟩
  · rw [hb, hr, Tree.heads, List.take_succ_cons, ← l.heads_length, List.take_length_add_append]
    simp [Tree.heads_flatten]
  · rw [hn] at hc
    rcases hc with ⟨h1, h2, h3⟩ | ⟨h1, h2, h3, h4⟩
    · exact .inl ⟨h1, h2, by rcases h3 with ⟨a, b⟩ | ⟨a, b⟩ <;> [left; right] <;> exact ⟨a, by omega⟩⟩
    · exact .inr ⟨h1, h2, by omega, h4⟩

/-- Stopping at the flag bit of the first node: no bit left, or no room for the node. -/
theorem stopsInTree_eos {s : State} (h : readerBits s = []) : StopsInTree s s .endOfStream :=
  ⟨.leaf 0 0, 0, [], by simp [Tree.size], by simp, .inl ⟨rfl, h, .inl ⟨rfl, rfl⟩⟩⟩

theorem stopsInTree_capacity {s u : State} {b : Bool} (h : readerBits s = b :: readerBits u)
    (hs : s.node.length = Config.nodeCap) (hu : u.node.length = Config.nodeCap) : StopsInTree s u .capacity :=
  ⟨.leaf 0 0, 0, [b], by simp [Tree.size], by simp [h], .inr ⟨rfl, rfl, hs, hu⟩⟩

/-- How `ReadNode()` can end (R240): with a tree whose bits were the next bits, or with EndOfStream or Capacity. The
traversal stack never overflows, because every entry on it is a record allocated. -/
theorem readNode_cases (fuel : Nat) :
    ∀ {s : State}, s.node.length ≤ Config.nodeCap → Config.nodeCap ≤ fuel + s.node.length →
      (∃ i u, readNode fuel s = .ok i u ∧ s.node.length < u.node.length ∧ u.node.length ≤ Config.nodeCap
        ∧ ReadTreeOnly s u ∧ ∃ t : Tree, readerBits s = t.bits ++ readerBits u ∧ u.node.length = s.node.length + t.size)
      ∨ (∃ e u, readNode fuel s = .raised e u
        ∧ StopsInTree s u e ∧ s.node.length ≤ u.node.length ∧ u.node.length ≤ Config.nodeCap ∧ ReadTreeOnly s u) := by
  induction fuel with
  | zero =>
    intro s hn hf
    have hfull : s.node.length = Config.nodeCap := by omega
    right
    cases hb : readerBits s with
    | nil =>
      exact ⟨_, s, by rw [readNode_eq, getBit_eos hb]; rfl, stopsInTree_eos hb, le_refl _, hn, rfl⟩
    | cons b bs =>
      obtain ⟨s1, h1, hr1, ho1, -, -⟩ := getBit_ok hb
      have n1 := ho1.node_eq
      exact ⟨_, s1, by rw [readNode_eq, h1]; simp [Res.bind, n1, hfull], stopsInTree_capacity (by rw [hb, hr1]) hfull (by rw [n1]; exact hfull), by rw [n1], by rw [n1]; exact hn,
        ho1.readTreeOnly⟩
  | succ k ih =>
    intro s hn hf
    cases hb : readerBits s with
    | nil =>
      exact .inr ⟨_, s, by rw [readNode_eq, getBit_eos hb]; rfl, stopsInTree_eos hb, le_refl _, hn, rfl⟩
    | cons b bs =>
      obtain ⟨s1, h1, hr1, ho1, -, -⟩ := getBit_ok hb
      have n1 := ho1.node_eq
      by_cases hcap : s1.node.length = Config.nodeCap
      · exact .inr ⟨_, s1, by rw [readNode_eq, h1]; simp [Res.bind, hcap], stopsInTree_capacity (by rw [hb, hr1]) (by rw [← n1]; exact hcap) hcap, by rw [n1], by rw [n1]; exact hn,
          ho1.readTreeOnly⟩
      · have ha : (allocNode s1).node.length = s.node.length + 1 := by simp [allocNode, n1]
        rw [n1] at hcap
        have hcap' : ¬ s1.node.length = Config.nodeCap := by rw [n1]; exact hcap
        have hoa : ReadTreeOnly s (allocNode s1) := ho1.readTreeOnly.trans (ReadTreeOnly.setArena _ _)
        cases b with
        | true =>
          rcases getChar_cases (allocNode s1) with ⟨v, s2, h2, hb2, ho2, -⟩ | ⟨s2, h2, hb2, ho2, h8⟩
          · have n2 := ho2.node_eq
            have hl : (writeNode (nextNode s1) (leafRec v 0) s2).node.length = s.node.length + 1 := by
              simp [writeNode, n2, ha]
            refine .inl ⟨nextNode s1, writeNode (nextNode s1) (leafRec v 0) s2,
              by rw [readNode_eq, h1]; simp only [Res.bind, hcap', if_false, if_true, h2],
              by omega, by omega, hoa.trans (ho2.readTreeOnly.trans (ReadTreeOnly.setArena _ _)), .leaf 0 v, ?_, hl⟩
            have hbs : bs = msbBits v ++ readerBits s2 := hr1.symm.trans hb2
            simp [Tree.bits, hbs]
            rfl
          · have n2 := ho2.node_eq
            have hz : readerBits s2 = [] := List.length_eq_zero_iff.1 (by rw [readerBits_length, hb2])
            have h8' : (readerBits s1).length < 8 := by rw [readerBits_length]; exact h8
            exact .inr ⟨_, s2, by rw [readNode_eq, h1]; simp only [Res.bind, hcap', if_false, if_true, h2],
              ⟨.leaf 0 0, 0, true :: bs, by simp [Tree.size], by simp [hb, hz],
                .inl ⟨rfl, hz, .inr ⟨⟨bs, rfl, by rw [← hr1]; exact h8'⟩, by rw [n2, ha]⟩⟩⟩,
              by rw [n2, ha]; omega, by rw [n2, ha]; omega, hoa.trans ho2.readTreeOnly⟩
        | false =>
          have hstep : readNode (k + 1) s = (readNode k (allocNode s1)).bind fun l s2 =>
              (readNode k s2).bind fun r s3 => .ok (nextNode s1) (writeNode (nextNode s1) (innerRec l r 0) s3) := by
            rw [readNode_eq, h1]; simp only [Res.bind, hcap', if_false, Bool.false_eq_true]
          rcases ih (s := allocNode s1) (by omega) (by omega) with
            ⟨i, s2, h2, hlt2, hle2, ho2, t2, hb2, hs2⟩ | ⟨e, s2, h2, he, hlt2, hle2, ho2⟩
          · rcases ih (s := s2) hle2 (by omega) with ⟨j, s3, h3, hlt3, hle3, ho3, t3, hb3, hs3⟩ | ⟨e, s3, h3, he, hlt3, hle3, ho3⟩
            · refine .inl ⟨_, writeNode (nextNode s1) (innerRec i j 0) s3, by rw [hstep, h2, Res.bind, h3]; rfl,
                by simp [writeNode]; omega, by simpa [writeNode] using hle3,
                hoa.trans (ho2.trans (ho3.trans (ReadTreeOnly.setArena _ _))), .inner 0 t2 t3, ?_,
                by simp [writeNode, Tree.size]; omega⟩
              have hbs : bs = t2.bits ++ readerBits s2 := hr1.symm.trans hb2
              rw [hbs, hb3]
              simp [Tree.bits]
              rfl
            · exact .inr ⟨e, s3, by rw [hstep, h2, Res.bind, h3]; rfl,
                he.right t2 (by rw [hb, ← hr1]; exact congrArg _ hb2) (by rw [hs2, ha]), by omega, hle3, hoa.trans (ho2.trans ho3)⟩
          · exact .inr ⟨e, s2, by rw [hstep, h2]; rfl, he.left (by rw [hb, ← hr1]; rfl) ha, by omega, hle2, hoa.trans ho2⟩

/-! ### The walk of DECODE -/

/-- From a node, the path's bits lead to its leaf and are consumed, no more (R248). -/
theorem descend_ok (t : Tree) :
    ∀ {fuel : Nat} {s : State} {p : Byte × List Bool} {rest : List Bool}, represents s.node t = true → p ∈ t.paths →
      readerBits s = p.2 ++ rest → p.2.length ≤ fuel →
      ∃ u, descend fuel t.index s = .ok p.1 u ∧ readerBits u = rest ∧ ReaderOnly s u
        ∧ (p.2 = [] → u = s) ∧ (p.2 ≠ [] → u.rcnt.val < 8) ∧ u.src <:+ s.src := by
  induction t with
  | leaf i b =>
    intro fuel s p rest h hp hb _
    obtain ⟨r, hr, hl, rfl⟩ := nodeAt_leaf h
    obtain rfl : p = (r.sym, []) := by simpa [Tree.paths] using hp
    refine ⟨s, ?_, by simpa using hb, ReaderOnly.refl s, fun _ => rfl, by simp, List.suffix_refl _⟩
    rw [descend.eq_def]; simp [hr, hl]
  | inner i l r hl hr =>
    intro fuel s p rest h hp hb hf
    obtain ⟨⟨q, hq, hql, hqa, hqb⟩, hrl, hrr⟩ := nodeAt_inner h
    simp only [Tree.paths, List.mem_append, List.mem_map] at hp
    rcases hp with ⟨p', hp', rfl⟩ | ⟨p', hp', rfl⟩
    all_goals
      obtain ⟨k, rfl⟩ : ∃ k, fuel = k + 1 := ⟨fuel - 1, by simp at hf; omega⟩
      obtain ⟨s1, h1, hr1, ho1, hc1, hs1⟩ := getBit_ok hb
      have hk : p'.2.length ≤ k := by simpa using hf
      have hn1 := ho1.node_eq
    · obtain ⟨u, hu, hru, hou, heu, hcu, hsu⟩ := hl (fuel := k) (s := s1) (by rw [hn1]; exact hrl) hp' hr1 hk
      refine ⟨u, ?_, hru, ho1.trans hou, by simp, fun _ => ?_, hsu.trans hs1⟩
      · rw [descend.eq_def]
        simp only [Tree.index_inner, hq, hql, Bool.false_eq_true, if_false, h1, Res.bind, hqa, hu]
      · rcases hp2 : p'.2 with _ | ⟨c, cs⟩
        · rw [heu hp2]; exact hc1
        · exact hcu (by simp [hp2])
    · obtain ⟨u, hu, hru, hou, heu, hcu, hsu⟩ := hr (fuel := k) (s := s1) (by rw [hn1]; exact hrr) hp' hr1 hk
      refine ⟨u, ?_, hru, ho1.trans hou, by simp, fun _ => ?_, hsu.trans hs1⟩
      · rw [descend.eq_def]
        simp only [Tree.index_inner, hq, hql, Bool.false_eq_true, if_false, h1, Res.bind, if_true, hqb, hu]
      · rcases hp2 : p'.2 with _ | ⟨c, cs⟩
        · rw [heu hp2]; exact hc1
        · exact hcu (by simp [hp2])

/-- How the walk can end on a represented tree: at a leaf, its path consumed, or with EndOfStream, all bits consumed. The
bound `fuel` never runs out, because every step takes a bit. -/
theorem descend_cases (t : Tree) :
    ∀ {fuel : Nat} {s : State}, represents s.node t = true → bitsLeft s ≤ fuel →
      (∃ p ∈ t.paths, ∃ u, descend fuel t.index s = .ok p.1 u ∧ readerBits s = p.2 ++ readerBits u ∧ ReaderOnly s u)
      ∨ ∃ u, descend fuel t.index s = .raised .endOfStream u ∧ bitsLeft u = 0 ∧ ReaderOnly s u := by
  induction t with
  | leaf i b =>
    intro fuel s h _
    obtain ⟨r, hr, hl, rfl⟩ := nodeAt_leaf h
    exact .inl ⟨(r.sym, []), by simp [Tree.paths], s, by rw [descend.eq_def]; simp [hr, hl], rfl, ReaderOnly.refl s⟩
  | inner i l r hl hr =>
    intro fuel s h hf
    obtain ⟨⟨q, hq, hql, hqa, hqb⟩, hrl, hrr⟩ := nodeAt_inner h
    have lens := readerBits_length s
    cases hb : readerBits s with
    | nil =>
      refine .inr ⟨s, ?_, by rw [← lens, hb]; rfl, ReaderOnly.refl s⟩
      rw [descend.eq_def]
      simp only [Tree.index_inner, hq, hql, Bool.false_eq_true, if_false, getBit_eos hb, Res.bind]
    | cons b bs =>
      obtain ⟨s1, h1, hr1, ho1, -, -⟩ := getBit_ok hb
      have hn1 := ho1.node_eq
      have lens1 := readerBits_length s1
      rw [hb, List.length_cons] at lens
      rw [hr1] at lens1
      obtain ⟨k, rfl⟩ : ∃ k, fuel = k + 1 := ⟨fuel - 1, by omega⟩
      have hstep : descend (k + 1) (Tree.inner i l r).index s = descend k (if b then r.index else l.index) s1 := by
        rw [descend.eq_def]
        simp only [Tree.index_inner, hq, hql, Bool.false_eq_true, if_false, h1, Res.bind, hqa, hqb]
      cases b with
      | false =>
        rcases hl (fuel := k) (s := s1) (by rw [hn1]; exact hrl) (by omega) with
          ⟨p, hp, u, hu, hbu, hou⟩ | ⟨u, hu, hbu, hou⟩
        · refine .inl ⟨(p.1, false :: p.2), by simp [Tree.paths, hp], u, by rw [hstep]; exact hu, ?_, ho1.trans hou⟩
          rw [← hr1, hbu]; rfl
        · exact .inr ⟨u, by rw [hstep]; exact hu, hbu, ho1.trans hou⟩
      | true =>
        rcases hr (fuel := k) (s := s1) (by rw [hn1]; exact hrr) (by omega) with
          ⟨p, hp, u, hu, hbu, hou⟩ | ⟨u, hu, hbu, hou⟩
        · refine .inl ⟨(p.1, true :: p.2), by simp [Tree.paths, hp], u, by rw [hstep]; exact hu, ?_, ho1.trans hou⟩
          rw [← hr1, hbu]; rfl
        · exact .inr ⟨u, by rw [hstep]; exact hu, hbu, ho1.trans hou⟩

end Sys2Proof.Machine
end

