-- ==== Sys2Proof/Laws/Codec.lean ====
section
/-! SUPPORT. The phases of the two macro commands, one statement each (44_codec_encode.md, 45_codec_decode.md), over the
lemmas of the procedures they call. -/

namespace Sys2Proof.Machine

/-- `t` is `s` but for the reader, the writer and the two streams. -/
def StreamsOnly (s t : State) : Prop :=
  t = (s.setReader t.rbuf t.rcnt t.src).setWriter t.wbuf t.wcnt t.snk

theorem StreamsOnly.refl (s : State) : StreamsOnly s s := rfl

theorem StreamsOnly.trans {s t u : State} (h : StreamsOnly s t) (k : StreamsOnly t u) : StreamsOnly s u := by
  unfold StreamsOnly at *
  rw [k, h]
  rfl

theorem ReaderOnly.streamsOnly {s t : State} (h : ReaderOnly s t) : StreamsOnly s t := by
  unfold StreamsOnly ReaderOnly at *
  rw [h]
  rfl

theorem WriterOnly.streamsOnly {s t : State} (h : WriterOnly s t) : StreamsOnly s t := by
  unfold StreamsOnly WriterOnly at *
  rw [h]
  rfl

theorem ReaderOnly.writerBits_eq {s t : State} (h : ReaderOnly s t) : writerBits t = writerBits s := by
  rw [h]; rfl

theorem WriterOnly.readerBits_eq {s t : State} (h : WriterOnly s t) : readerBits t = readerBits s := by
  rw [h]; rfl

/-! ### BUILD -/

theorem allSymbols_length : allSymbols.length = 256 := by simp [allSymbols]

theorem allSymbols_nodup : allSymbols.Nodup := by
  refine List.Nodup.map_on ?_ List.nodup_range
  intro a ha b hb e
  have ha' := List.mem_range.1 ha
  have hb' := List.mem_range.1 hb
  have := congrArg BitVec.toNat e
  simp only [BitVec.toNat_ofNat] at this
  omega

theorem mem_allSymbols (b : Byte) : b ∈ allSymbols :=
  List.mem_map.2 ⟨b.toNat, List.mem_range.2 b.isLt, by simp⟩

theorem mem_usedSymbols {f : Vector Word 256} {b : Byte} : b ∈ usedSymbols f ↔ f.get (symIndex b) ≠ 0 := by
  simp [usedSymbols, mem_allSymbols]

theorem usedSymbols_nodup (f : Vector Word 256) : (usedSymbols f).Nodup := allSymbols_nodup.filter _

theorem usedSymbols_length_le (f : Vector Word 256) : (usedSymbols f).length ≤ 256 := by
  rw [← allSymbols_length]; exact List.length_filter_le _ _

theorem Forest.start (s : State) : Forest (buildStart s) [] where
  heap := List.Perm.refl _
  desc := rfl
  order := fun n _ h => absurd h (by simp [buildStart])
  sorted := List.Pairwise.nil
  trees := by simp
  owned := by simp
  weights := by simp

/-- BUILD from an empty table (R195 (a)). -/
theorem buildTree_empty {s : State} (h : usedSymbols s.freq = []) :
    huffmanTree s.freq = none ∧ buildTree s = .ok () (buildStart s) := by
  obtain ⟨u, hu, heq, hf, hn⟩ := buildLeaves_ok allSymbols (Forest.start s) allSymbols_nodup (by simp)
    (by simp) (by simp [buildStart, allSymbols_length])
  have hlen : (leafEntries s.freq allSymbols 0 []).length = 0 := by
    rw [leafEntries_length]
    simpa [usedSymbols] using congrArg List.length h
  have hnil : leafEntries s.freq allSymbols 0 [] = [] := List.length_eq_zero_iff.1 hlen
  constructor
  · rw [huffmanTree, h, hnil]; rfl
  · have hq : u.heap = [] := by
      have := hf.heap_length
      rw [show leafEntries (buildStart s).freq allSymbols (buildStart s).node.length [] = [] from hnil] at this
      exact List.length_eq_zero_iff.1 this
    have hnode : u.node = [] := by
      rw [hn]
      have : (allSymbols.filter fun b => (buildStart s).freqAt b ≠ 0) = [] := h
      rw [this]; rfl
    rw [buildTree, hu, Res.bind, if_pos (by rw [hq]; rfl), heq, hq, hnode]
    rfl

/-- BUILD from a table with a used symbol (R195, R196): the tree of the least-key rule, at `root`. -/
theorem buildTree_some {s : State} (h : usedSymbols s.freq ≠ []) :
    ∃ t u, huffmanTree s.freq = some t ∧ buildTree s = .ok () u
      ∧ u = { s with pqDesc := false, heap := [], node := u.node, root := u.root, treeEmpty := false }
      ∧ HoldsTree u t ∧ weighed s.freq u.node t ∧ t.symbols.Perm (usedSymbols s.freq)
      ∧ u.node.length + 1 = 2 * (usedSymbols s.freq).length
      ∧ u.node.take (usedSymbols s.freq).length = (usedSymbols s.freq).map (fun b => some (leafRec b (s.freqAt b)))
      ∧ u.root.toNat + 2 = 2 * (usedSymbols s.freq).length := by
  obtain ⟨s1, h1, e1, f1, n1⟩ := buildLeaves_ok allSymbols (Forest.start s) allSymbols_nodup (by simp)
    (by simp) (by simp [buildStart, allSymbols_length])
  have hn1 : s1.node = (usedSymbols s.freq).map fun b => some (leafRec b (s.freqAt b)) := n1
  have hle := usedSymbols_length_le s.freq
  have hpos := List.length_pos_iff.2 h
  have hlen : (leafEntries s.freq allSymbols 0 []).length = (usedSymbols s.freq).length := by
    rw [leafEntries_length]; simp [usedSymbols]
  have f1' : Forest s1 (leafEntries s.freq allSymbols 0 []) := f1
  have hsy := leafEntries_symbols s.freq allSymbols 0 []
  have htie := leafEntries_tie_lt s.freq allSymbols 0 [] (by simp)
  generalize hfs : leafEntries s.freq allSymbols 0 [] = fs at *
  have hq1 : s1.heap.length = fs.length := f1'.heap_length
  have hl1 : s1.node.length = fs.length := by rw [hn1, hlen]; simp
  obtain ⟨s2, p, h2, e2, l2, t2, m2, f2, y2, r2⟩ := buildPairs_ok fs.length f1' (j := 0)
    (by intro e; rw [e] at hlen; simp at hlen; omega) (le_refl _) (by omega) (by omega) (by omega)
    (fun q hq => by have := htie q hq; omega)
  obtain ⟨s3, h3, e3, f3⟩ := f2.pop
  have hq3 : s3.heap = [] := List.length_eq_zero_iff.1 f3.heap_length
  have n3 : s3.node = s2.node := by rw [e3]; rfl
  have hp := f2.trees p (by simp)
  have hw := (f2.weights p (by simp)).2
  have hfr : s2.freq = s.freq := by rw [e2]; simp only [State.setArena_freq, State.setHeap_freq]; rw [e1]; simp [buildStart]
  have hroot : p.1.node.toNat + 2 = 2 * (usedSymbols s.freq).length := by
    rcases r2 with r2 | r2
    · omega
    · -- a single leaf: it is record 0
      have hone : (usedSymbols s.freq).length = 1 := by rw [← hlen, r2]; rfl
      have hlt := represents_lt p.2 hp.1 p.2.index p.2.index_mem
      rw [hp.2] at hlt
      omega
  refine ⟨p.2, s3.setTree p.1.node false, ?_, ?_, ?_, ?_, ?_, ?_, ?_, ?_, hroot⟩
  · rw [huffmanTree, hfs, ← hlen, ← hl1]
    rw [hl1] at m2 ⊢
    rw [m2]
  · rw [buildTree, h1, Res.bind, if_neg (by omega), hq1, h2, Res.bind, h3]; rfl
  · have e1' : s1 = { s with pqDesc := false, heap := s1.heap, node := s1.node, root := 0, treeEmpty := true } := e1
    have e2' : s2 = { s with pqDesc := false, heap := s2.heap, node := s2.node, root := 0, treeEmpty := true } := by
      refine e2.trans ?_
      conv_lhs => rw [e1']
      simp only [State.setHeap, State.setArena]
    have e3' : s3 = { s with pqDesc := false, heap := [], node := s3.node, root := 0, treeEmpty := true } := by
      refine e3.trans ?_
      rw [hq3, n3]
      conv_lhs => rw [e2']
      simp only [State.setHeap]
    conv_lhs => rw [e3']
    simp only [State.setTree]
  · exact {
      present := rfl
      top := hp.2
      records := by rw [State.setTree_node, n3]; exact hp.1
      owned := by simpa using f2.owned }
  · rw [State.setTree_node, n3, ← hfr]; exact hw
  · exact y2.trans (by simpa [usedSymbols] using hsy)
  · rw [State.setTree_node, n3]; omega
  · rw [State.setTree_node, n3, ← hlen, ← hl1, t2, hn1]

theorem huffmanTree_none_iff {f : Vector Word 256} : huffmanTree f = none ↔ usedSymbols f = [] := by
  constructor
  · intro h
    by_contra hne
    obtain ⟨t, u, ht, -⟩ := buildTree_some (s := { State.reset with freq := f }) hne
    rw [h] at ht
    exact absurd ht (by simp)
  · intro h
    exact (buildTree_empty (s := { State.reset with freq := f }) h).1

/-! ### CODES -/

theorem get_replicate_nil (b : Byte) : (Vector.replicate 256 ([] : List Bool)).get (symIndex b) = [] := by
  simp [Vector.get_eq_getElem]

theorem HoldsTree.height_le {s : State} {t : Tree} (h : HoldsTree s t) (hn : s.node.length ≤ Config.nodeCap) :
    t.height ≤ Config.codeMax := by
  have h1 := represents_size_le t h.records h.owned
  have h2 := t.height_lt
  simp only [Config.nodeCap, Config.codeMax] at *
  omega

/-- CODES with no tree (R210). -/
theorem makeCodes_empty {s : State} (h : s.treeEmpty = true) :
    makeCodes s = .ok () (s.setCode (Vector.replicate 256 [])) := by
  simp [makeCodes, h]

/-- CODES on a tree (R210): every symbol's code is the tree's. -/
theorem makeCodes_ok {s : State} {t : Tree} (h : HoldsTree s t) (hn : s.node.length ≤ Config.nodeCap) :
    ∃ c, makeCodes s = .ok () (s.setCode c) ∧ ∀ b, c.get (symIndex b) = t.code b := by
  have hh := h.height_le hn
  have hrep : represents (s.setCode (Vector.replicate 256 [])).node t = true := h.records
  rw [makeCodes]
  simp only [State.setCode_treeEmpty, h.present, Bool.false_eq_true, if_false, State.setCode_root, ← h.top]
  cases t with
  | leaf i b =>
    obtain ⟨r, hr, hl, rfl⟩ := nodeAt_leaf hrep
    refine ⟨putCodes (Vector.replicate 256 []) [(r.sym, [false])], ?_, fun c => ?_⟩
    · simp only [Tree.index_leaf, hr, hl, if_true]; rfl
    · rw [get_putCodes]
      by_cases hc : r.sym = c
      · subst hc; simp [Tree.code]
      · have hc' : ¬ c = r.sym := fun e => hc e.symm
        simp [Tree.code, hc, hc']
  | inner i l r =>
    obtain ⟨⟨q, hq, hql, -, -⟩, -, -⟩ := nodeAt_inner hrep
    refine ⟨putCodes (Vector.replicate 256 []) (Tree.inner i l r).paths, ?_, fun b => ?_⟩
    · simp only [Tree.index_inner, hq, hql, Bool.false_eq_true, if_false]
      have := walkCodes_eq (.inner i l r) (path := []) (fuel := Config.codeMax) hrep hh
      rw [Tree.index_inner] at this
      rw [this]
      simp [State.setCode]
    · rw [get_putCodes, get_replicate_nil]; rfl

/-! ### WTREE, WCOUNT, WPAYLOAD -/

theorem writeTree_empty {s : State} (h : s.treeEmpty = true) :
    writeTree s = putBits (true :: msbBits (0 : Byte)) s := by
  simp only [writeTree, h, if_true, putLeaf, putChar, putBits]

theorem writeTree_ok {s : State} {t : Tree} (h : HoldsTree s t) (hn : s.node.length ≤ Config.nodeCap) :
    writeTree s = putBits t.bits s := by
  have hh := h.height_le hn
  rw [writeTree, h.present, ← h.top]
  exact serialize_eq t h.records (le_trans hh (by decide))

/-- Putting bits leaves the code table. -/
theorem putBits_code {bits : List Bool} {s t : State} (h : putBits bits s = .ok () t) : t.code = s.code := by
  cases hc : s.wclosed with
  | false =>
    obtain ⟨u, hu, -, ho, -⟩ := putBits_ok bits hc
    rw [hu] at h
    injection h with _ h
    rw [← h, ho]; rfl
  | true =>
    cases bits with
    | nil => injection h with _ h; rw [← h]
    | cons b bs => rw [putBits_closed (by simp) hc] at h; exact absurd h (by simp)

/-- WPAYLOAD's loop puts the codes of the symbols, one after another (R218). -/
theorem payloadLoop_eq (l : List Byte) :
    ∀ s : State, payloadLoop l s = putBits (l.flatMap s.codeAt) s := by
  induction l with
  | nil => intro s; rfl
  | cons b bs ih =>
    intro s
    rw [payloadLoop, List.flatMap_cons, putBits_append]
    cases hp : putBits (s.codeAt b) s with
    | ok x s' =>
      have hc : s'.codeAt = s.codeAt := by
        funext c
        simp only [State.codeAt, putBits_code hp]
      rw [Res.bind, Res.bind, ih, hc]
    | raised e s' => rfl
    | stuck f => rfl

/-! ### RTREE -/

/-- RTREE on the bits of a tree that fits the arena (R240, R241). -/
theorem readTree_ok {s : State} (t : Tree) {rest : List Bool} (hb : readerBits s = t.bits ++ rest)
    (hsz : t.size ≤ Config.nodeCap) :
    ∃ u, readTree s = .ok () u ∧ readerBits u = rest ∧ HoldsTree u (t.renumber 0)
      ∧ u = { s with rbuf := u.rbuf, rcnt := u.rcnt, src := u.src, node := (t.renumber 0).records.map some, root := 0,
                     treeEmpty := false }
      ∧ u.rcnt.val < 8 ∧ u.src <:+ s.src := by
  have hh := t.height_lt
  obtain ⟨u, hu, hr, ho, hn, hc, hs⟩ := readNode_ok t (fuel := Config.stackCap) (s := (s.setArena []).setTree s.root true)
    hb (by simp only [Config.nodeCap, Config.stackCap] at *; omega) (by simpa using hsz)
  have hn' : u.node = (t.renumber 0).records.map some := by rw [hn]; rfl
  have hu' : readNode Config.stackCap ((s.setArena []).setTree s.root true) = .ok 0 u := hu
  refine ⟨u.setTree 0 false, by rw [readTree, hu']; rfl, hr, ?_, ?_, hc, hs⟩
  · exact {
      present := rfl
      top := Tree.renumber_index t 0
      records := by
        have := represents_renumber t 0 [] [] rfl (by simp only [Config.nodeCap] at hsz; omega)
        rw [State.setTree_node, hn']
        simpa using this
      owned := Tree.renumber_nodup t 0 (by simp only [Config.nodeCap] at hsz; omega) }
  · conv_lhs => rw [ho]
    rw [← hn']
    rfl

/-- How RTREE can end, from every state (R240). -/
theorem readTree_cases (s : State) :
    (∃ (t : Tree) (u : State), readTree s = .ok () u ∧ readerBits s = t.bits ++ readerBits u ∧ t.size ≤ Config.nodeCap
      ∧ HoldsTree u (t.renumber 0)
      ∧ u = { s with rbuf := u.rbuf, rcnt := u.rcnt, src := u.src, node := (t.renumber 0).records.map some, root := 0,
                     treeEmpty := false })
    ∨ ∃ e u, readTree s = .raised e u
      ∧ StopsInTree (s.setArena []) u e ∧ u.node.length ≤ Config.nodeCap
      ∧ u = { s with rbuf := u.rbuf, rcnt := u.rcnt, src := u.src, node := u.node, treeEmpty := true } := by
  rcases readNode_cases Config.stackCap (s := (s.setArena []).setTree s.root true) (by simp)
    (by simp [Config.nodeCap, Config.stackCap]) with
    ⟨i, u, hu, -, hle, ho, t, hb, hsz⟩ | ⟨e, u, hu, he, -, hle, ho⟩
  · left
    have hb' : readerBits s = t.bits ++ readerBits u := hb
    have hsz' : t.size ≤ Config.nodeCap := by
      simp only [State.setTree_node, State.setArena_node, List.length_nil, Nat.zero_add] at hsz
      omega
    obtain ⟨v, hv, hrv, hT, hvs, -⟩ := readTree_ok t hb' hsz'
    exact ⟨t, v, hv, by rw [hrv]; exact hb', hsz', hT, hvs⟩
  · right
    refine ⟨e, u, by rw [readTree, hu]; rfl, he, hle, ?_⟩
    conv_lhs => rw [ho]
    rfl

/-! ### RCOUNT -/

/-- RCOUNT with 32 bits left (R245). -/
theorem readCount_ok {s : State} (w : Word) {rest : List Bool} (hb : readerBits s = msbBits w ++ rest) :
    ∃ u, readCount s = .ok () (u.setCount w) ∧ readerBits u = rest ∧ ReaderOnly s u ∧ u.rcnt.val < 8 ∧ u.src <:+ s.src := by
  obtain ⟨u, hu, h⟩ := getInt_ok w hb
  exact ⟨u, by rw [readCount, hu]; rfl, h⟩

/-- RCOUNT with fewer bits left (R245): all are consumed, `count` is unchanged. -/
theorem readCount_eos {s : State} (h : bitsLeft s < 32) :
    ∃ u, readCount s = .raised .endOfStream u ∧ bitsLeft u = 0 ∧ ReaderOnly s u := by
  obtain ⟨u, hu, h⟩ := getBits_eos (w := 32) 32 (v := 0) h
  exact ⟨u, by rw [readCount, getInt, hu]; rfl, h⟩

/-! ### DECODE -/

theorem HoldsTree.streamsOnly {s u : State} {t : Tree} (h : HoldsTree s t) (k : StreamsOnly s u) : HoldsTree u t := by
  have h1 : u.treeEmpty = s.treeEmpty := by rw [k]; rfl
  have h2 : u.root = s.root := by rw [k]; rfl
  have h3 : u.node = s.node := by rw [k]; rfl
  exact ⟨h1.trans h.present, by rw [h2]; exact h.top, by rw [h3]; exact h.records, h.owned⟩

theorem Tree.paths_ne_nil {t : Tree} (h : t.isLeaf = false) : ∀ p ∈ t.paths, p.2 ≠ [] := by
  cases t with
  | leaf i b => simp [Tree.isLeaf] at h
  | inner i l r =>
    intro p hp
    simp only [Tree.paths, List.mem_append, List.mem_map] at hp
    rcases hp with ⟨q, -, rfl⟩ | ⟨q, -, rfl⟩ <;> simp

theorem Tree.reads_ne_nil {t : Tree} {b : Byte} {bits : List Bool} (h : t.reads b bits) : bits ≠ [] := by
  cases t with
  | leaf i c => intro e; simp [Tree.reads, e] at h
  | inner i l r => exact Tree.paths_ne_nil (t := .inner i l r) rfl _ h

/-- One turn of DECODE when the next bits are those of a symbol (R248). -/
theorem nextSymbol_ok {s : State} {t : Tree} (h : HoldsTree s t) {b : Byte} {bits rest : List Bool}
    (hr : t.reads b bits) (hb : readerBits s = bits ++ rest) :
    ∃ u, nextSymbol s = .ok b u ∧ readerBits u = rest ∧ ReaderOnly s u ∧ u.rcnt.val < 8 ∧ u.src <:+ s.src := by
  have hlen : bits.length ≤ bitsLeft s := by rw [← readerBits_length, hb]; simp
  have hne := Tree.reads_ne_nil hr
  cases t with
  | leaf i c =>
    obtain ⟨r, hn, hl, rfl⟩ := nodeAt_leaf h.records
    obtain ⟨rfl, h1⟩ := hr
    obtain ⟨x, rfl⟩ := List.length_eq_one_iff.1 h1
    obtain ⟨u, hu, hru, hou, hcu, hsu⟩ := getBit_ok (b := x) (bs := rest) hb
    refine ⟨u, ?_, hru, hou, hcu, hsu⟩
    rw [nextSymbol, ← h.top, Tree.index_leaf, hn]
    simp only [hl, if_true, hu, Res.bind]
  | inner i l r =>
    obtain ⟨⟨q, hq, hql, -, -⟩, -, -⟩ := nodeAt_inner h.records
    obtain ⟨u, hu, hru, hou, -, hcu, hsu⟩ := descend_ok (.inner i l r) (fuel := bitsLeft s) (p := (b, bits)) h.records hr hb hlen
    refine ⟨u, ?_, hru, hou, hcu hne, hsu⟩
    have hk : s.nodeAt s.root = some q := by rw [← h.top]; exact hq
    rw [nextSymbol, hk]
    simp only [hql, Bool.false_eq_true, if_false]
    rw [← h.top]
    exact hu

/-- One turn of DECODE in general (R248). -/
theorem nextSymbol_cases {s : State} {t : Tree} (h : HoldsTree s t) :
    (∃ b bits u, t.reads b bits ∧ nextSymbol s = .ok b u ∧ readerBits s = bits ++ readerBits u ∧ ReaderOnly s u)
      ∨ ∃ u, nextSymbol s = .raised .endOfStream u ∧ bitsLeft u = 0 ∧ ReaderOnly s u
        ∧ ∀ b bits, t.reads b bits → ¬ bits <+: readerBits s := by
  by_cases hx : ∃ b bits, t.reads b bits ∧ bits <+: readerBits s
  · left
    obtain ⟨b, bits, hr, rest, hb⟩ := hx
    obtain ⟨u, hu, hru, hou, -⟩ := nextSymbol_ok h hr hb.symm
    exact ⟨b, bits, u, hr, hu, by rw [hru, hb], hou⟩
  · right
    have hno : ∀ b bits, t.reads b bits → ¬ bits <+: readerBits s := fun b bits hr hp => hx ⟨b, bits, hr, hp⟩
    cases t with
    | leaf i c =>
      obtain ⟨r, hn, hl, rfl⟩ := nodeAt_leaf h.records
      have hnil : readerBits s = [] := by
        cases hb : readerBits s with
        | nil => rfl
        | cons x xs => exact absurd ⟨xs, by simp [hb]⟩ (hno r.sym [x] ⟨rfl, rfl⟩)
      refine ⟨s, ?_, by rw [← readerBits_length, hnil]; rfl, ReaderOnly.refl s, hno⟩
      rw [nextSymbol, ← h.top, Tree.index_leaf, hn]
      simp only [hl, if_true, getBit_eos hnil, Res.bind]
    | inner i l r =>
      obtain ⟨⟨q, hq, hql, -, -⟩, -, -⟩ := nodeAt_inner h.records
      have hk : s.nodeAt s.root = some q := by rw [← h.top]; exact hq
      rcases descend_cases (.inner i l r) (fuel := bitsLeft s) h.records (le_refl _) with
        ⟨p, hp, u, hu, hbu, hou⟩ | ⟨u, hu, hbu, hou⟩
      · exact absurd ⟨readerBits u, hbu.symm⟩ (hno p.1 p.2 hp)
      · refine ⟨u, ?_, hbu, hou, hno⟩
        rw [nextSymbol, hk]
        simp only [hql, Bool.false_eq_true, if_false]
        rw [← h.top]
        exact hu

/-- DECODE's loop on the bits of `l.length` symbols (R248). -/
theorem decodeLoop_ok {t : Tree} (l : List (Byte × List Bool)) :
    ∀ {s : State} {rest : List Bool}, HoldsTree s t → s.wclosed = false → (∀ p ∈ l, t.reads p.1 p.2) →
      readerBits s = l.flatMap Prod.snd ++ rest →
      ∃ u, decodeLoop l.length s = .ok () u ∧ readerBits u = rest
        ∧ writerBits u = writerBits s ++ l.flatMap (fun p => msbBits p.1) ∧ StreamsOnly s u
        ∧ (s.rcnt.val < 8 ∨ l ≠ [] → u.rcnt.val < 8) ∧ u.src <:+ s.src ∧ s.snk <+: u.snk := by
  induction l with
  | nil =>
    intro s rest _ _ _ hb
    exact ⟨s, rfl, by simpa using hb, by simp, StreamsOnly.refl s, by simp, List.suffix_refl _, List.prefix_refl _⟩
  | cons p l ih =>
    intro s rest h hw hl hb
    obtain ⟨s1, h1, hr1, ho1, hc1, hs1⟩ := nextSymbol_ok h (hl p (by simp)) (rest := l.flatMap Prod.snd ++ rest)
      (by simpa using hb)
    have hw1 : s1.wclosed = false := by rw [ho1]; exact hw
    obtain ⟨s2, h2, hb2, ho2, hp2⟩ := putBits_ok (msbBits p.1) hw1
    have hk2 := ho1.streamsOnly.trans ho2.streamsOnly
    have hw2 : s2.wclosed = false := by rw [ho2]; exact hw1
    have hsrc2 : s2.src = s1.src := by rw [ho2]; rfl
    have hrc2 : s2.rcnt = s1.rcnt := by rw [ho2]; rfl
    have hsnk1 : s1.snk = s.snk := by rw [ho1]; rfl
    obtain ⟨u, hu, hru, hwu, hou, hcu, hsu, hpu⟩ := ih (s := s2) (rest := rest) (h.streamsOnly hk2) hw2
      (fun q hq => hl q (by simp [hq])) (by rw [ho2.readerBits_eq, hr1])
    refine ⟨u, ?_, hru, ?_, hk2.trans hou, fun _ => hcu (.inl (by rw [hrc2]; exact hc1)), ?_, ?_⟩
    · rw [List.length_cons, decodeLoop, emitSymbol, h1, Res.bind, putChar, h2]; exact hu
    · rw [hwu, hb2, ho1.writerBits_eq]; simp
    · rw [hsrc2] at hsu; exact hsu.trans hs1
    · rw [hsnk1] at hp2; exact hp2.trans hpu

/-- DECODE's loop when the bits left hold the symbols `l` and no further one (R248). A closed writer does not matter if `l`
is empty. -/
theorem decodeLoop_eos {t : Tree} (l : List (Byte × List Bool)) :
    ∀ {n : Nat} {s : State} {rest : List Bool}, HoldsTree s t → s.wclosed = false ∨ l = [] → l.length < n →
      (∀ p ∈ l, t.reads p.1 p.2) → readerBits s = l.flatMap Prod.snd ++ rest →
      (∀ b bits, t.reads b bits → ¬ bits <+: rest) →
      ∃ u, decodeLoop n s = .raised .endOfStream u ∧ bitsLeft u = 0
        ∧ writerBits u = writerBits s ++ l.flatMap (fun p => msbBits p.1) ∧ StreamsOnly s u ∧ s.snk <+: u.snk := by
  induction l with
  | nil =>
    intro n s rest h _ hn _ hb hno
    obtain ⟨m, rfl⟩ : ∃ m, n = m + 1 := ⟨n - 1, by simp at hn; omega⟩
    rw [List.flatMap_nil, List.nil_append] at hb
    rcases nextSymbol_cases h with ⟨b, bits, u, hr, -, hbu, -⟩ | ⟨u, hu, hbu, hou, -⟩
    · exact absurd ⟨readerBits u, by rw [← hb, hbu]⟩ (hno b bits hr)
    · exact ⟨u, by rw [decodeLoop, emitSymbol, hu]; rfl, hbu, by simpa using hou.writerBits_eq, hou.streamsOnly,
        by rw [hou]; exact List.prefix_refl _⟩
  | cons p l ih =>
    intro n s rest h hw hn hl hb hno
    obtain ⟨m, rfl⟩ : ∃ m, n = m + 1 := ⟨n - 1, by simp at hn; omega⟩
    have hw : s.wclosed = false := hw.resolve_right (by simp)
    obtain ⟨s1, h1, hr1, ho1, -, -⟩ := nextSymbol_ok h (hl p (by simp)) (rest := l.flatMap Prod.snd ++ rest)
      (by simpa using hb)
    have hw1 : s1.wclosed = false := by rw [ho1]; exact hw
    obtain ⟨s2, h2, hb2, ho2, hp2⟩ := putBits_ok (msbBits p.1) hw1
    have hk2 := ho1.streamsOnly.trans ho2.streamsOnly
    have hsnk1 : s1.snk = s.snk := by rw [ho1]; rfl
    obtain ⟨u, hu, hzu, hwu, hou, hpu⟩ := ih (n := m) (s := s2) (rest := rest) (h.streamsOnly hk2)
      (.inl (by rw [ho2]; exact hw1)) (by simpa using hn) (fun q hq => hl q (by simp [hq]))
      (by rw [ho2.readerBits_eq, hr1]) hno
    refine ⟨u, ?_, hzu, by rw [hwu, hb2, ho1.writerBits_eq]; simp, hk2.trans hou, ?_⟩
    · rw [decodeLoop, emitSymbol, h1, Res.bind, putChar, h2]; exact hu
    · rw [hsnk1] at hp2; exact hp2.trans hpu

/-- DECODE's loop in general, on an open writer (R248). -/
theorem decodeLoop_cases {t : Tree} (n : Nat) :
    ∀ {s : State}, HoldsTree s t → s.wclosed = false →
      (∃ (l : List (Byte × List Bool)) (u : State), l.length = n ∧ (∀ p ∈ l, t.reads p.1 p.2)
        ∧ decodeLoop n s = .ok () u ∧ readerBits s = l.flatMap Prod.snd ++ readerBits u
        ∧ writerBits u = writerBits s ++ l.flatMap (fun p => msbBits p.1) ∧ StreamsOnly s u ∧ s.snk <+: u.snk)
      ∨ ∃ (l : List (Byte × List Bool)) (u : State) (more : List Bool), l.length < n ∧ (∀ p ∈ l, t.reads p.1 p.2)
        ∧ decodeLoop n s = .raised .endOfStream u ∧ readerBits s = l.flatMap Prod.snd ++ more
        ∧ (∀ b bits, t.reads b bits → ¬ bits <+: more) ∧ bitsLeft u = 0
        ∧ writerBits u = writerBits s ++ l.flatMap (fun p => msbBits p.1) ∧ StreamsOnly s u ∧ s.snk <+: u.snk := by
  induction n with
  | zero => intro s _ _; exact .inl ⟨[], s, rfl, by simp, rfl, by simp, by simp, StreamsOnly.refl s, List.prefix_refl _⟩
  | succ n ih =>
    intro s h hw
    rcases nextSymbol_cases h with ⟨b, bits, s1, hr, h1, hb1, ho1⟩ | ⟨u, hu, hbu, hou, hno⟩
    · have hw1 : s1.wclosed = false := by rw [ho1]; exact hw
      obtain ⟨s2, h2, hb2, ho2, hp2⟩ := putBits_ok (msbBits b) hw1
      have hk2 := ho1.streamsOnly.trans ho2.streamsOnly
      have hw2 : s2.wclosed = false := by rw [ho2]; exact hw1
      have hsnk1 : s1.snk = s.snk := by rw [ho1]; rfl
      have hstep : decodeLoop (n + 1) s = decodeLoop n s2 := by rw [decodeLoop, emitSymbol, h1, Res.bind, putChar, h2]; rfl
      have hbits : ∀ x, readerBits s2 = x → readerBits s = bits ++ x := fun x hx => by
        rw [hb1, ← hx, ho2.readerBits_eq]
      have hput : ∀ (u : State) (l : List (Byte × List Bool)),
          writerBits u = writerBits s2 ++ l.flatMap (fun p => msbBits p.1) →
          writerBits u = writerBits s ++ ((b, bits) :: l).flatMap (fun p => msbBits p.1) := fun u l hu => by
        rw [hu, hb2, ho1.writerBits_eq]; simp
      rw [hsnk1] at hp2
      rcases ih (s := s2) (h.streamsOnly hk2) hw2 with
        ⟨l, u, hl, hrl, hu, hbu, hwu, hou, hpu⟩ | ⟨l, u, more, hl, hrl, hu, hbu, hno, hzu, hwu, hou, hpu⟩
      · exact .inl ⟨(b, bits) :: l, u, by simp [hl], List.forall_mem_cons.2 ⟨hr, hrl⟩, by rw [hstep, hu],
          by rw [hbits _ hbu]; simp, hput u l hwu, hk2.trans hou, hp2.trans hpu⟩
      · exact .inr ⟨(b, bits) :: l, u, more, by simp; omega, List.forall_mem_cons.2 ⟨hr, hrl⟩, by rw [hstep, hu],
          by rw [hbits _ hbu]; simp, hno, hzu, hput u l hwu, hk2.trans hou, hp2.trans hpu⟩
    · exact .inr ⟨[], u, readerBits s, by simp, by simp, by rw [decodeLoop, emitSymbol, hu]; rfl, by simp, hno, hbu,
        by simpa using hou.writerBits_eq, hou.streamsOnly, by rw [hou]; exact List.prefix_refl _⟩

/-- DECODE's loop on a closed writer, with symbols asked for (R248): the first symbol's bits, then Closed. -/
theorem decodeLoop_closed {t : Tree} (n : Nat) {s : State} (h : HoldsTree s t) (hw : s.wclosed = true) :
    (∃ b bits u, t.reads b bits ∧ decodeLoop (n + 1) s = .raised .closed u ∧ readerBits s = bits ++ readerBits u
        ∧ ReaderOnly s u)
      ∨ ∃ u, decodeLoop (n + 1) s = .raised .endOfStream u ∧ bitsLeft u = 0 ∧ ReaderOnly s u
        ∧ ∀ b bits, t.reads b bits → ¬ bits <+: readerBits s := by
  rcases nextSymbol_cases h with ⟨b, bits, u, hr, hu, hbu, hou⟩ | ⟨u, hu, hbu, hou, hno⟩
  · refine .inl ⟨b, bits, u, hr, ?_, hbu, hou⟩
    have hwu : u.wclosed = true := by rw [hou]; exact hw
    rw [decodeLoop, emitSymbol, hu, Res.bind, putChar,
      putBits_closed (by intro e; simpa using congrArg List.length e) hwu]
    rfl
  · exact .inr ⟨u, by rw [decodeLoop, emitSymbol, hu]; rfl, hbu, hou, hno⟩

end Sys2Proof.Machine
end

