-- ==== Sys2Proof/Laws/Macro.lean ====
section
/-! SUPPORT. The two macro commands (44_codec_encode.md R225, R226; 45_codec_decode.md R255): how their phases end. -/

namespace Sys2Proof.Machine

/-! ### Paths and codes -/

/-- A path names its leaf, and no path goes on below another's leaf (R211). -/
theorem Tree.paths_prefix (t : Tree) : ∀ p ∈ t.paths, ∀ q ∈ t.paths, p.2 <+: q.2 → p = q := by
  induction t with
  | leaf i b => intro p hp q hq _; simp only [Tree.paths, List.mem_singleton] at hp hq; rw [hp, hq]
  | inner i l r hl hr =>
    intro p hp q hq h
    simp only [Tree.paths, List.mem_append, List.mem_map] at hp hq
    rcases hp with ⟨p', hp', rfl⟩ | ⟨p', hp', rfl⟩ <;> rcases hq with ⟨q', hq', rfl⟩ | ⟨q', hq', rfl⟩
    · rw [hl p' hp' q' hq' (List.cons_prefix_cons.1 h).2]
    · exact absurd (List.cons_prefix_cons.1 h).1 (by simp)
    · exact absurd (List.cons_prefix_cons.1 h).1 (by simp)
    · rw [hr p' hp' q' hq' (List.cons_prefix_cons.1 h).2]

/-- In a tree of more than one leaf, a symbol's code is the path of one of its leaves; a symbol without a leaf has no
code (R210). -/
theorem Tree.code_inner {i : Idx} {l r : Tree} (b : Byte) :
    (b ∈ (Tree.inner i l r).symbols ∧ (b, (Tree.inner i l r).code b) ∈ (Tree.inner i l r).paths)
      ∨ (b ∉ (Tree.inner i l r).symbols ∧ (Tree.inner i l r).code b = []) := by
  rw [← Tree.paths_fst]
  cases hf : ((Tree.inner i l r).paths.filter fun p => p.1 = b) with
  | nil =>
    right
    refine ⟨fun hm => ?_, by rw [Tree.code, hf]; rfl⟩
    obtain ⟨p, hp, rfl⟩ := List.mem_map.1 hm
    exact List.filter_eq_nil_iff.1 hf p hp (by simp)
  | cons x xs =>
    left
    have hm : (x :: xs).getLast (by simp) ∈ (Tree.inner i l r).paths.filter fun p => p.1 = b := by
      rw [hf]; exact List.getLast_mem _
    have hm' := List.mem_filter.1 hm
    have hb : ((x :: xs).getLast (by simp)).1 = b := by simpa using hm'.2
    have hc : (Tree.inner i l r).code b = ((x :: xs).getLast (by simp)).2 := by
      rw [Tree.code, hf, List.getLast?_eq_some_getLast (by simp)]; rfl
    refine ⟨List.mem_map.2 ⟨_, hm'.1, hb⟩, ?_⟩
    rw [hc, ← hb]
    exact hm'.1

/-- A symbol of the tree: its code is bits DECODE takes for it (R210, R248). -/
theorem Tree.code_reads {t : Tree} {b : Byte} (h : b ∈ t.symbols) : t.reads b (t.code b) := by
  cases t with
  | leaf i c =>
    obtain rfl : b = c := by simpa [Tree.symbols] using h
    simp [Tree.reads, Tree.code]
  | inner i l r =>
    rcases Tree.code_inner (i := i) (l := l) (r := r) b with ⟨-, hp⟩ | ⟨hn, -⟩
    · exact hp
    · exact absurd h hn

/-- What DECODE reads depends on the shape and the symbols only (R34). -/
theorem Tree.reads_sameShape {t u : Tree} (h : t.sameShape u = true) {b : Byte} {bits : List Bool} :
    t.reads b bits ↔ u.reads b bits := by
  have hp := (Tree.sameShape_eqs h).2.2.1
  cases t with
  | leaf i c =>
    cases u with
    | leaf j d =>
      obtain rfl : c = d := by simpa [Tree.sameShape] using h
      exact Iff.rfl
    | inner j l r => simp [Tree.sameShape] at h
  | inner i l r =>
    cases u with
    | leaf j d => simp [Tree.sameShape] at h
    | inner j l' r' => simp only [Tree.reads, hp]

/-! ### The envelope -/

theorem initUnits_readerBits (d : Bool) (s : State) : readerBits (initUnits d s) = s.src.flatMap msbBits := by
  simp [readerBits, initUnits]

theorem initUnits_writerBits (d : Bool) (s : State) : writerBits (initUnits d s) = s.snk.flatMap msbBits := by
  simp [writerBits, initUnits]

/-- The `Close()` of the envelope on the open writer it finds (R225). -/
theorem closeAtEnd_ok {s : State} (h : s.wclosed = false) :
    (closeAtEnd s).snk.flatMap msbBits = writerBits s ++ List.replicate ((8 - s.wcnt.val) % 8) false
      ∧ s.snk <+: (closeAtEnd s).snk
      ∧ closeAtEnd s = { s with wbuf := (closeAtEnd s).wbuf, wcnt := 0, wclosed := true, snk := (closeAtEnd s).snk } := by
  obtain ⟨t, ht, -, -, hb, hp, he, -⟩ := closeWriter_ok h
  have hc : closeAtEnd s = t := by rw [closeAtEnd, ht]
  rw [hc]
  exact ⟨hb, hp, he⟩

theorem runPhases_cons_ok {p : Phase} {ps : List Phase} {s u : State} {x : Unit} (h : p.run s = .ok x u) :
    runPhases (p :: ps) s = runPhases ps u := by
  rw [runPhases, h]

theorem runPhases_cons_raised {p : Phase} {ps : List Phase} {s u : State} {e : Err} (h : p.run s = .raised e u) :
    runPhases (p :: ps) s = .failed e p.number u := by
  rw [runPhases, h]

/-! ### COMPRESS -/

theorem artifactBits_none {l : List Byte} (h : huffmanTree (inputFreq l) = none) :
    artifactBits l = (true :: msbBits (0 : Byte)) ++ msbBits (BitVec.ofNat 32 l.length) := by
  unfold artifactBits
  rw [h]

theorem artifactBits_some {l : List Byte} {t : Tree} (h : huffmanTree (inputFreq l) = some t) :
    artifactBits l = t.bits ++ msbBits (BitVec.ofNat 32 l.length) ++ l.flatMap t.code := by
  unfold artifactBits
  rw [h]

/-- The phases that write the artifact, on an open writer with tree and codes made (R213, R216, R218). -/
theorem writePhases_ok {s : State} {bits : List Bool} (hw : s.wclosed = false) (ht : writeTree s = putBits bits s) :
    ∃ u, runPhases [⟨phaseWtree, writeTree⟩, ⟨phaseWcount, writeCount⟩, ⟨phaseWpayload, writePayload⟩] s = .done u
      ∧ writerBits u = writerBits s ++ (bits ++ msbBits s.count ++ s.inbuf.flatMap s.codeAt)
      ∧ WriterOnly s u ∧ s.snk <+: u.snk := by
  obtain ⟨s1, h1, b1, o1, p1⟩ := putBits_ok bits hw
  have w1 : s1.wclosed = false := by rw [o1]; exact hw
  have c1 : s1.count = s.count := by rw [o1]; rfl
  obtain ⟨s2, h2, b2, o2, p2⟩ := putBits_ok (msbBits s1.count) w1
  have w2 : s2.wclosed = false := by rw [o2]; exact w1
  have i2 : s2.inbuf = s.inbuf := by rw [o2, State.setWriter_inbuf, o1]; rfl
  have k2 : s2.codeAt = s.codeAt := by
    funext c; simp only [State.codeAt, putBits_code h2, putBits_code h1]
  obtain ⟨s3, h3, b3, o3, p3⟩ := putBits_ok (s2.inbuf.flatMap s2.codeAt) w2
  refine ⟨s3, ?_, ?_, (o1.trans o2).trans o3, (p1.trans p2).trans p3⟩
  · rw [runPhases_cons_ok (u := s1) (x := ()) (ht.trans h1), runPhases_cons_ok (u := s2) (x := ()) h2,
      runPhases_cons_ok (u := s3) (x := ()) ((payloadLoop_eq s2.inbuf s2).trans h3)]
    rfl
  · rw [b3, b2, b1, i2, k2, c1]; simp

/-- COMPRESS's phases on an input that fits (R225, R226): no error, and the artifact's bits are put. -/
theorem compressPhases_ok {s : State} (h : s.src.length ≤ s.inbufCap) :
    ∃ u, runPhases compressPhases (initUnits false s) = .done u ∧ u.wclosed = false
      ∧ writerBits u = s.snk.flatMap msbBits ++ artifactBits s.src ∧ s.snk <+: u.snk
      ∧ u = { initUnits false s with
          src := [], inbuf := s.src, freq := inputFreq s.src, count := BitVec.ofNat 32 s.src.length,
          node := u.node, root := u.root, treeEmpty := u.treeEmpty, code := u.code,
          wbuf := u.wbuf, wcnt := u.wcnt, snk := u.snk }
      ∧ (huffmanTree (inputFreq s.src) = none → u.treeEmpty = true ∧ u.node = [] ∧ u.root = 0 ∧ ∀ b, u.codeAt b = [])
      ∧ ∀ t, huffmanTree (inputFreq s.src) = some t → HoldsTree u t ∧ ∀ b, u.codeAt b = t.code b := by
  have ha := analyze_ok (s := initUnits false s) h
  generalize hs1 : ((initUnits false s).setInput (initUnits false s).src (inputFreq (initUnits false s).src) []).setCount
    (BitVec.ofNat 32 (initUnits false s).src.length) = s1 at ha
  have e1 : s1 = { initUnits false s with
      src := [], inbuf := s.src, freq := inputFreq s.src, count := BitVec.ofNat 32 s.src.length } := by
    rw [← hs1]; rfl
  have f1 : s1.freq = inputFreq s.src := by rw [e1]
  have hstart : runPhases compressPhases (initUnits false s) = runPhases compressPhases.tail s1 :=
    runPhases_cons_ok (x := ()) ha
  by_cases hu : usedSymbols s1.freq = []
  · obtain ⟨hn, hb⟩ := buildTree_empty hu
    have hc := makeCodes_empty (s := buildStart s1) rfl
    have ht := writeTree_empty (s := (buildStart s1).setCode (Vector.replicate 256 [])) rfl
    obtain ⟨u, hr, hwb, hwo, hp⟩ := writePhases_ok (s := (buildStart s1).setCode (Vector.replicate 256 []))
      (by rw [e1]; rfl) ht
    have hno : huffmanTree (inputFreq s.src) = none := by rw [← f1]; exact hn
    have hcu : ∀ b, u.codeAt b = [] := fun b => by
      rw [State.codeAt, hwo]; exact get_replicate_nil b
    have hbits : writerBits ((buildStart s1).setCode (Vector.replicate 256 [])) = s.snk.flatMap msbBits := by
      rw [e1]; exact initUnits_writerBits false s
    have hcnt : ((buildStart s1).setCode (Vector.replicate 256 [])).count = BitVec.ofNat 32 s.src.length := by
      rw [e1]; rfl
    have hin : (((buildStart s1).setCode (Vector.replicate 256 [])).inbuf.flatMap
        ((buildStart s1).setCode (Vector.replicate 256 [])).codeAt) = [] := by
      rw [List.flatMap_eq_nil_iff]
      intro b _
      exact get_replicate_nil b
    refine ⟨u, ?_, ?_, ?_, ?_, ?_, fun _ => ⟨?_, ?_, ?_, hcu⟩, fun t ht => ?_⟩
    · rw [hstart]
      exact (runPhases_cons_ok (x := ()) hb).trans ((runPhases_cons_ok (x := ()) hc).trans hr)
    · rw [hwo, e1]; rfl
    · rw [hwb, hbits, hcnt, hin, List.append_nil, artifactBits_none hno]
    · rw [e1] at hp; exact hp
    · have hcode : u.code = Vector.replicate 256 [] := by rw [hwo]; rfl
      have hnode : u.node = [] := by rw [hwo]; rfl
      have hroot : u.root = 0 := by rw [hwo]; rfl
      have hemp : u.treeEmpty = true := by rw [hwo]; rfl
      rw [hcode, hnode, hroot, hemp]
      conv_lhs => rw [hwo, e1]
      rfl
    · rw [hwo]; rfl
    · rw [hwo]; rfl
    · rw [hwo]; rfl
    · rw [hno] at ht; exact absurd ht (by simp)
  · obtain ⟨t, s2, htree, hb, e2, hT, -, -, hlen, -⟩ := buildTree_some hu
    have hle := usedSymbols_length_le s1.freq
    have hn : s2.node.length ≤ Config.nodeCap := by simp only [Config.nodeCap]; omega
    obtain ⟨c, hc, hcode⟩ := makeCodes_ok hT hn
    have hT' : HoldsTree (s2.setCode c) t := ⟨hT.present, hT.top, hT.records, hT.owned⟩
    have ht := writeTree_ok hT' hn
    have w2 : s2.wclosed = false := by rw [e2, e1]; rfl
    obtain ⟨u, hr, hwb, hwo, hp⟩ := writePhases_ok (s := s2.setCode c) w2 ht
    rw [f1] at htree
    have hin : (s2.setCode c).inbuf = s.src := by rw [e2, e1]; rfl
    have hcnt : (s2.setCode c).count = BitVec.ofNat 32 s.src.length := by rw [e2, e1]; rfl
    have hca : (s2.setCode c).codeAt = t.code := funext hcode
    have hbits : writerBits (s2.setCode c) = s.snk.flatMap msbBits := by
      rw [e2, e1]; exact initUnits_writerBits false s
    have hk : StreamsOnly (s2.setCode c) u := hwo.streamsOnly
    refine ⟨u, ?_, by rw [hwo]; exact w2, ?_, ?_, ?_, fun hno => ?_, fun t' ht' => ?_⟩
    · rw [hstart]
      exact (runPhases_cons_ok (x := ()) hb).trans ((runPhases_cons_ok (x := ()) hc).trans hr)
    · rw [hwb, hbits, hin, hcnt, hca, artifactBits_some htree]
    · have : s2.snk = s.snk := by rw [e2, e1]; rfl
      rw [← this]; exact hp
    · have hcu : u.code = c := by rw [hwo]; rfl
      have hnode : u.node = s2.node := by rw [hwo]; rfl
      have hroot : u.root = s2.root := by rw [hwo]; rfl
      have hemp : u.treeEmpty = false := by rw [hwo]; exact hT.present
      rw [hcu, hnode, hroot, hemp]
      conv_lhs => rw [hwo, e2, e1]
      rfl
    · rw [htree] at hno; exact absurd hno (by simp)
    · rw [htree, Option.some.injEq] at ht'
      subst ht'
      refine ⟨hT'.streamsOnly hk, fun b => ?_⟩
      rw [← hca, State.codeAt, hwo]; rfl

/-- COMPRESS's phases on an input that is too long (R225, R190): Capacity in phase 1. -/
theorem compressPhases_over {s : State} (h : s.inbufCap < s.src.length) :
    runPhases compressPhases (initUnits false s) = .failed .capacity phaseFreq
      (((initUnits false s).setInput (s.src.take s.inbufCap) (inputFreq (s.src.take s.inbufCap))
        (s.src.drop (s.inbufCap + 1))).setCount 0) :=
  runPhases_cons_raised (analyze_over (s := initUnits false s) h)

/-! ### DECOMPRESS -/

/-- DECOMPRESS's phases on the bits of a tree, a count and that many symbols (R255). -/
theorem decompressPhases_ok {s : State} {t : Tree} {n : Word} {l : List (Byte × List Bool)} {rest : List Bool}
    (hb : s.src.flatMap msbBits = t.bits ++ (msbBits n ++ (l.flatMap Prod.snd ++ rest)))
    (hsz : t.size ≤ Config.nodeCap) (hl : l.length = n.toNat) (hr : ∀ p ∈ l, t.reads p.1 p.2) :
    ∃ u, runPhases decompressPhases (initUnits false s) = .done u ∧ u.wclosed = false
      ∧ readerBits u = rest ∧ u.rcnt.val < 8 ∧ u.src <:+ s.src
      ∧ writerBits u = s.snk.flatMap msbBits ++ l.flatMap (fun p => msbBits p.1) ∧ s.snk <+: u.snk
      ∧ HoldsTree u (t.renumber 0)
      ∧ u = { initUnits false s with
          rbuf := u.rbuf, rcnt := u.rcnt, src := u.src, node := (t.renumber 0).records.map some, root := 0,
          treeEmpty := false, count := n, wbuf := u.wbuf, wcnt := u.wcnt, snk := u.snk } := by
  obtain ⟨s1, h1, r1, T1, e1, c1, x1⟩ := readTree_ok (s := initUnits false s) t (by rw [initUnits_readerBits]; exact hb) hsz
  obtain ⟨s2, h2, r2, o2, c2, x2⟩ := readCount_ok n r1
  have T2 : HoldsTree (s2.setCount n) (t.renumber 0) := by
    have := T1.streamsOnly o2.streamsOnly
    exact ⟨this.present, this.top, this.records, this.owned⟩
  have w2 : (s2.setCount n).wclosed = false := by
    rw [State.setCount_wclosed, o2, State.setReader_wclosed, e1]; rfl
  have sn2 : (s2.setCount n).snk = s.snk := by
    rw [State.setCount_snk, o2, State.setReader_snk, e1]; rfl
  have wb2 : writerBits (s2.setCount n) = s.snk.flatMap msbBits := by
    have : writerBits (s2.setCount n) = writerBits s1 := o2.writerBits_eq
    rw [this, e1]; exact initUnits_writerBits false s
  obtain ⟨u, hu, ru, wu, ou, cu, xu, pu⟩ := decodeLoop_ok (t := t.renumber 0) (s := s2.setCount n) (rest := rest) l T2 w2
    (fun p hp => (Tree.reads_sameShape (Tree.renumber_sameShape t 0)).2 (hr p hp)) (by exact r2)
  have hdec : decodeSymbols (s2.setCount n) = .ok () u := by
    rw [decodeSymbols, if_neg (by rw [T2.present]; simp), State.setCount_count, ← hl]; exact hu
  refine ⟨u, ?_, by rw [ou]; exact w2, ru, cu (.inl c2), (xu.trans x2).trans x1, by rw [wu, wb2], by rw [← sn2]; exact pu,
    T2.streamsOnly ou, ?_⟩
  · exact (runPhases_cons_ok (x := ()) h1).trans ((runPhases_cons_ok (x := ()) h2).trans
      ((runPhases_cons_ok (x := ()) hdec).trans rfl))
  · conv_lhs => rw [ou, o2, e1]
    rfl

/-- DECOMPRESS's phases from any state (R255, R73): they run to the end, or stop with EndOfStream or Capacity. -/
theorem decompressPhases_cases (s : State) :
    (∃ (t : Tree) (n : Word) (l : List (Byte × List Bool)) (rest : List Bool),
        s.src.flatMap msbBits = t.bits ++ (msbBits n ++ (l.flatMap Prod.snd ++ rest)) ∧ t.size ≤ Config.nodeCap
        ∧ l.length = n.toNat ∧ ∀ p ∈ l, t.reads p.1 p.2)
      ∨ ∃ e p u, runPhases decompressPhases (initUnits false s) = .failed e p u
        ∧ (e = .endOfStream ∧ (p = phaseRtree ∨ p = phaseRcount ∨ p = phaseDecode) ∨ e = .capacity ∧ p = phaseRtree)
        ∧ u.wclosed = false ∧ s.snk <+: u.snk ∧ u.node.length ≤ Config.nodeCap
        ∧ (p = phaseRtree ∧ u.treeEmpty = true ∨ p ≠ phaseRtree ∧ ∃ t, HoldsTree u t)
        ∧ u = { initUnits false s with
            rbuf := u.rbuf, rcnt := u.rcnt, src := u.src, node := u.node, root := u.root, treeEmpty := u.treeEmpty,
            count := u.count, wbuf := u.wbuf, wcnt := u.wcnt, snk := u.snk } := by
  rcases readTree_cases (initUnits false s) with ⟨t, s1, h1, hb1, hsz, T1, e1⟩ | ⟨e, u, hu, hstop, hle, eu⟩
  · have hlen1 : s1.node.length ≤ Config.nodeCap := by rw [e1]; simpa using hsz
    by_cases h32 : 32 ≤ bitsLeft s1
    · rw [← readerBits_length] at h32
      have htake := take_eq_msbBits h32
      obtain ⟨s2, h2, r2, o2, -, -⟩ := readCount_ok _ htake
      generalize BitVec.ofNat 32 (bitsValue ((readerBits s1).take 32)) = n at *
      have T2 : HoldsTree (s2.setCount n) (t.renumber 0) := by
        have := T1.streamsOnly o2.streamsOnly
        exact ⟨this.present, this.top, this.records, this.owned⟩
      have w2 : (s2.setCount n).wclosed = false := by
        rw [State.setCount_wclosed, o2, State.setReader_wclosed, e1]; rfl
      rcases decodeLoop_cases n.toNat (s := s2.setCount n) T2 w2 with
        ⟨l, u, hl, hrl, hu, hbu, -⟩ | ⟨l, u, more, hl, hrl, hu, hbu, hno, hzu, hwu, hou, hpu⟩
      · left
        refine ⟨t, n, l, readerBits u, ?_, hsz, hl,
          fun p hp => (Tree.reads_sameShape (Tree.renumber_sameShape t 0)).1 (hrl p hp)⟩
        rw [← initUnits_readerBits false s, hb1, htake, ← r2]
        exact congrArg (fun x => t.bits ++ (msbBits n ++ x)) hbu
      · right
        have hdec : decodeSymbols (s2.setCount n) = .raised .endOfStream u := by
          rw [decodeSymbols, if_neg (by rw [T2.present]; simp), State.setCount_count]; exact hu
        have hsn : (s2.setCount n).snk = s.snk := by
          rw [State.setCount_snk, o2, State.setReader_snk, e1]; rfl
        have hnode : u.node = s1.node := by rw [hou]; exact o2.node_eq
        refine ⟨_, phaseDecode, u, ?_, .inl ⟨rfl, .inr (.inr rfl)⟩, by rw [hou]; exact w2, by rw [← hsn]; exact hpu,
          by rw [hnode]; exact hlen1, .inr ⟨by decide, _, T2.streamsOnly hou⟩, ?_⟩
        · exact (runPhases_cons_ok (x := ()) h1).trans ((runPhases_cons_ok (x := ()) h2).trans (runPhases_cons_raised hdec))
        · conv_lhs => rw [hou, o2, e1]
          rw [hou, o2, e1]
          rfl
    · right
      obtain ⟨u, hu, -, hou⟩ := readCount_eos (s := s1) (by omega)
      refine ⟨_, phaseRcount, u, ?_, .inl ⟨rfl, .inr (.inl rfl)⟩, ?_, ?_, ?_, .inr ⟨by decide, _, T1.streamsOnly hou.streamsOnly⟩, ?_⟩
      · exact (runPhases_cons_ok (x := ()) h1).trans (runPhases_cons_raised hu)
      · rw [hou, State.setReader_wclosed, e1]; rfl
      · rw [hou, State.setReader_snk, e1]; exact List.prefix_refl _
      · rw [hou.node_eq]; exact hlen1
      · conv_lhs => rw [hou, e1]
        rw [hou, e1]
        rfl
  · right
    refine ⟨e, phaseRtree, u, runPhases_cons_raised hu, ?_, ?_, ?_, hle, .inl ⟨rfl, by rw [eu]⟩, ?_⟩
    · rcases hstop.err with ⟨rfl, -⟩ | ⟨rfl, -⟩
      · exact .inl ⟨rfl, .inl rfl⟩
      · exact .inr ⟨rfl, rfl⟩
    · rw [eu]; rfl
    · rw [eu]; exact List.prefix_refl _
    · conv_lhs => rw [eu]
      rw [eu]

end Sys2Proof.Machine
end

