-- ==== Sys2Proof/Laws/Frame.lean ====
section
/-! SUPPORT. What every procedure leaves: a property that holds of the state before a procedure and is kept by the few
updates the procedure is made of holds of the state after it, however it ends; and how a command can end. -/

namespace Sys2Proof.Machine

/-- P holds of the state a procedure leaves, whether it ended with a value or by `raise`. -/
def Res.All {α : Type} (P : State → Prop) : Res α → Prop
  | .ok _ s => P s
  | .raised _ s => P s
  | .stuck _ => True

theorem Res.All.bind {α β : Type} {P : State → Prop} {r : Res α} {k : α → State → Res β} (h : r.All P)
    (hk : ∀ a s, P s → (k a s).All P) : (r.bind k).All P := by
  cases r with
  | ok a s => exact hk a s h
  | raised e s => exact h
  | stuck f => trivial

/-- Kept when the reader moves forward. -/
def ReaderStable (P : State → Prop) : Prop := ∀ s a n l, P s → l <:+ s.src → P (s.setReader a n l)

/-- Kept by `PutBit`. -/
def PutStable (P : State → Prop) : Prop := ∀ b s, P s → (putBit b s).All P

/-- Kept when the arena changes. -/
def ArenaStable (P : State → Prop) : Prop := ∀ s l, P s → P (s.setArena l)

section Procedures
variable {P : State → Prop}

theorem getBit_all (hP : ReaderStable P) {s : State} (h : P s) : (getBit s).All P := by
  refine Res.All.bind ?_ fun _ s' h' => hP _ _ _ _ h' (List.suffix_refl _)
  rw [refill]
  split
  · rw [srcRead]
    cases hs : s.src with
    | nil => exact h
    | cons r rest =>
      refine hP _ _ _ _ (hP s _ _ _ h ?_) (List.suffix_refl _)
      rw [hs]; exact List.suffix_cons _ _
  · exact h

theorem getBits_all (hP : ReaderStable P) {w : Nat} (n : Nat) :
    ∀ {v : BitVec w} {s : State}, P s → (getBits n v s).All P := by
  induction n with
  | zero => intro v s h; exact h
  | succ n ih => intro v s h; exact (getBit_all hP h).bind fun _ _ h' => ih h'

theorem putBits_all (hP : PutStable P) (bits : List Bool) : ∀ {s : State}, P s → (putBits bits s).All P := by
  induction bits with
  | nil => intro s h; exact h
  | cons b bs ih => intro s h; exact (hP b s h).bind fun _ _ h' => ih h'

theorem serialize_all (hP : PutStable P) (fuel : Nat) : ∀ {n : Idx} {s : State}, P s → (serialize fuel n s).All P := by
  induction fuel with
  | zero =>
    intro n s h
    rw [serialize.eq_def]
    dsimp only
    split
    · trivial
    · split
      · exact (hP true s h).bind fun _ _ h' => putBits_all hP _ h'
      · trivial
  | succ k ih =>
    intro n s h
    rw [serialize.eq_def]
    dsimp only
    split
    · trivial
    · split
      · exact (hP true s h).bind fun _ _ h' => putBits_all hP _ h'
      · exact (hP false s h).bind fun _ _ h1 => (ih h1).bind fun _ _ h2 => ih h2

theorem writeTree_all (hP : PutStable P) {s : State} (h : P s) : (writeTree s).All P := by
  rw [writeTree]
  split
  · exact (hP true s h).bind fun _ _ h' => putBits_all hP _ h'
  · exact serialize_all hP _ h

theorem writePayload_all (hP : PutStable P) {s : State} (h : P s) : (writePayload s).All P := by
  rw [writePayload, payloadLoop_eq]
  exact putBits_all hP _ h

theorem readNode_all (hR : ReaderStable P) (hA : ArenaStable P) (fuel : Nat) :
    ∀ {s : State}, P s → (readNode fuel s).All P := by
  induction fuel with
  | zero =>
    intro s h
    rw [readNode_eq]
    refine (getBit_all hR h).bind fun b s1 h1 => ?_
    split
    · exact h1
    · split
      · exact (getBits_all hR 8 (hA _ _ h1)).bind fun _ _ h2 => hA _ _ h2
      · trivial
  | succ k ih =>
    intro s h
    rw [readNode_eq]
    refine (getBit_all hR h).bind fun b s1 h1 => ?_
    split
    · exact h1
    · split
      · exact (getBits_all hR 8 (hA _ _ h1)).bind fun _ _ h2 => hA _ _ h2
      · exact (ih (hA _ _ h1)).bind fun _ _ h2 => (ih h2).bind fun _ _ h3 => hA _ _ h3

theorem descend_all (hP : ReaderStable P) (fuel : Nat) : ∀ {n : Idx} {s : State}, P s → (descend fuel n s).All P := by
  induction fuel with
  | zero =>
    intro n s h
    rw [descend.eq_def]
    dsimp only
    split
    · trivial
    · split
      · exact h
      · exact (getBit_all hP h).bind fun _ _ _ => trivial
  | succ k ih =>
    intro n s h
    rw [descend.eq_def]
    dsimp only
    split
    · trivial
    · split
      · exact h
      · exact (getBit_all hP h).bind fun _ _ h' => ih h'

theorem nextSymbol_all (hP : ReaderStable P) {s : State} (h : P s) : (nextSymbol s).All P := by
  rw [nextSymbol]
  split
  · trivial
  · split
    · exact (getBit_all hP h).bind fun _ _ h' => h'
    · exact descend_all hP _ h

theorem emitSymbol_all (hR : ReaderStable P) (hW : PutStable P) {s : State} (h : P s) : (emitSymbol s).All P :=
  (nextSymbol_all hR h).bind fun _ _ h1 => putBits_all hW _ h1

theorem decodeLoop_all (hR : ReaderStable P) (hW : PutStable P) (n : Nat) :
    ∀ {s : State}, P s → (decodeLoop n s).All P := by
  induction n with
  | zero => intro s h; exact h
  | succ n ih =>
    intro s h
    exact (emitSymbol_all hR hW h).bind fun _ _ h1 => ih h1

theorem decodeSymbols_all (hR : ReaderStable P) (hW : PutStable P) {s : State} (h : P s) : (decodeSymbols s).All P := by
  rw [decodeSymbols]
  split
  · exact h
  · exact decodeLoop_all hR hW _ h

theorem readCount_all (hR : ReaderStable P) (hC : ∀ s c, P s → P (s.setCount c)) {s : State} (h : P s) :
    (readCount s).All P :=
  (getBits_all hR 32 h).bind fun _ _ h' => hC _ _ h'

theorem readTree_all (hR : ReaderStable P) (hA : ArenaStable P) (hT : ∀ s r e, P s → P (s.setTree r e)) {s : State}
    (h : P s) : (readTree s).All P :=
  (readNode_all hR hA _ (hT _ _ _ (hA _ _ h))).bind fun _ _ h' => hT _ _ _ h'

end Procedures

/-! ### Frames of the procedures -/

theorem readerStable_readerOnly (s : State) : ReaderStable (ReaderOnly s) := fun _ _ _ _ h _ => h.trans (ReaderOnly.setReader _ _ _ _)

theorem putBit_writerOnly (b : Bool) (s : State) : (putBit b s).All (WriterOnly s) := by
  cases h : s.wclosed with
  | false => obtain ⟨t, ht, -, ho, -⟩ := putBit_ok b h; rw [ht]; exact ho
  | true => rw [putBit_closed b h]; exact WriterOnly.refl s

theorem putStable_writerOnly (s : State) : PutStable (WriterOnly s) := fun b u h => by
  have := putBit_writerOnly b u
  cases hp : putBit b u with
  | ok a v => rw [hp] at this; exact h.trans this
  | raised e v => rw [hp] at this; exact h.trans this
  | stuck f => trivial

theorem readerStable_streamsOnly (s : State) : ReaderStable (StreamsOnly s) := fun _ _ _ _ h _ =>
  h.trans (ReaderOnly.setReader _ _ _ _).streamsOnly

theorem putStable_streamsOnly (s : State) : PutStable (StreamsOnly s) := fun b u h => by
  have := putBit_writerOnly b u
  cases hp : putBit b u with
  | ok a v => rw [hp] at this; exact h.trans this.streamsOnly
  | raised e v => rw [hp] at this; exact h.trans this.streamsOnly
  | stuck f => trivial

/-- SRC only loses bytes from its front. -/
theorem readerStable_src (l : List Byte) : ReaderStable fun u => u.src <:+ l := fun _ _ _ _ h hl => hl.trans h

theorem putStable_src (l : List Byte) : PutStable fun u => u.src <:+ l := fun b u h => by
  have := putBit_writerOnly b u
  cases hp : putBit b u with
  | ok a v => rw [hp] at this; rw [Res.All, this]; exact h
  | raised e v => rw [hp] at this; rw [Res.All, this]; exact h
  | stuck f => trivial

theorem readerStable_snk (l : List Byte) : ReaderStable fun u => l <+: u.snk := fun _ _ _ _ h _ => h

/-- SNK only grows at its end. -/
theorem putStable_snk (l : List Byte) : PutStable fun u => l <+: u.snk := fun b u h => by
  cases hw : u.wclosed with
  | false => obtain ⟨t, ht, -, -, hp⟩ := putBit_ok b hw; rw [ht]; exact h.trans hp
  | true => rw [putBit_closed b hw]; exact h

/-! ### The writer invariant -/

theorem readerStable_writerInv : ReaderStable WriterInv := fun _ _ _ _ h _ => h

theorem putStable_writerInv : PutStable WriterInv := fun b s h => by
  cases hw : s.wclosed with
  | true => rw [putBit_closed b hw]; exact h
  | false =>
    by_cases hc : s.wcnt.val + 1 < 8
    · have hlt : s.wbuf.toNat < 2 ^ 7 := lt_of_lt_of_le h.1 (Nat.pow_le_pow_right (by omega) (by omega))
      simp only [putBit, hw, Bool.false_eq_true, if_false, hc, dif_pos, Res.All]
      refine ⟨?_, fun e => absurd (hw.symm.trans e) (by simp)⟩
      rw [State.setWriter_wbuf, State.setWriter_wcnt, toNat_shiftIn _ _ hlt (by omega), Nat.pow_succ]
      have := h.1
      have := Bool.toNat_le b
      omega
    · simp only [putBit, hw, Bool.false_eq_true, if_false, hc, dif_neg, not_false_iff, Res.All]
      exact ⟨by simp, fun _ => rfl⟩

theorem closeWriter_writerInv {s : State} (h : WriterInv s) : (closeWriter s).All WriterInv := by
  cases hw : s.wclosed with
  | true => rw [closeWriter_closed hw]; exact h
  | false =>
    obtain ⟨t, ht, -, h0, -, -, -, ha, hb⟩ := closeWriter_ok hw
    rw [ht]
    refine ⟨?_, fun _ => h0⟩
    rw [h0]
    by_cases hc : s.wcnt = 0
    · rw [ha hc]; have := h.1; rw [hc] at this; exact this
    · rw [hb hc]; simp

/-! ### CODES in general -/

/-- Every code fits CODE_MAX (R37). -/
def CodesFit (c : Vector (List Bool) 256) : Prop := ∀ b : Byte, (c.get (symIndex b)).length ≤ Config.codeMax

theorem codesFit_replicate : CodesFit (Vector.replicate 256 []) := fun b => by rw [get_replicate_nil]; simp

theorem codesFit_set {c : Vector (List Bool) 256} (h : CodesFit c) (a : Byte) {l : List Bool} (hl : l.length ≤ Config.codeMax) :
    CodesFit (c.set (symIndex a).val l (symIndex a).isLt) := fun b => by
  by_cases hab : a = b
  · subst hab; simpa [Vector.get_eq_getElem] using hl
  · have hne : (symIndex a).val ≠ (symIndex b).val := fun e => hab (BitVec.eq_of_toNat_eq e)
    rw [Vector.get_eq_getElem, Vector.getElem_set_ne _ _ hne]
    exact h b

theorem codesFit_iff {c : Vector (List Bool) 256} :
    CodesFit c ↔ (c.toList.all fun l => decide (l.length ≤ Config.codeMax)) = true := by
  rw [List.all_eq_true]
  constructor
  · intro h l hl
    obtain ⟨i, hi, rfl⟩ := List.mem_iff_getElem.1 hl
    have hi' : i < 256 := by simpa using hi
    have := h (BitVec.ofNat 8 i)
    rw [symIndex_ofNat ⟨i, hi'⟩] at this
    simpa [Vector.get_eq_getElem] using this
  · intro h b
    have := h (c.get (symIndex b)) (by rw [Vector.get_eq_getElem]; exact Vector.mem_toList_iff.2 (Vector.getElem_mem _))
    simpa using this

/-- The walk of CODES changes the code table only, and a code it writes fits (R210). -/
theorem walkCodes_cases (fuel : Nat) :
    ∀ {n : Idx} {path : List Bool} {s : State}, path.length + fuel ≤ Config.codeMax → CodesFit s.code →
      (∃ c, walkCodes fuel n path s = .ok () (s.setCode c) ∧ CodesFit c) ∨ ∃ f, walkCodes fuel n path s = .stuck f := by
  induction fuel with
  | zero =>
    intro n path s hp hc
    rw [walkCodes.eq_def]
    dsimp only
    split
    · exact .inr ⟨_, rfl⟩
    · next r _ =>
      split
      · exact .inl ⟨_, rfl, codesFit_set hc _ (by omega)⟩
      · exact .inr ⟨_, rfl⟩
  | succ k ih =>
    intro n path s hp hc
    rw [walkCodes.eq_def]
    dsimp only
    split
    · exact .inr ⟨_, rfl⟩
    · next r _ =>
      split
      · exact .inl ⟨_, rfl, codesFit_set hc _ (by omega)⟩
      · rcases ih (n := r.left) (path := path ++ [false]) (s := s) (by simp; omega) hc with ⟨c, h1, hc1⟩ | ⟨f, h1⟩
        · rcases ih (n := r.right) (path := path ++ [true]) (s := s.setCode c) (by simp; omega) hc1 with
            ⟨d, h2, hc2⟩ | ⟨f, h2⟩
          · exact .inl ⟨d, by rw [h1, Res.bind, h2]; rfl, hc2⟩
          · exact .inr ⟨f, by rw [h1, Res.bind, h2]⟩
        · exact .inr ⟨f, by rw [h1]; rfl⟩

/-- CODES in general (R210): it never raises, and changes the code table only. -/
theorem makeCodes_cases (s : State) :
    (∃ c, makeCodes s = .ok () (s.setCode c) ∧ CodesFit c) ∨ ∃ f, makeCodes s = .stuck f := by
  rw [makeCodes]
  split
  · exact .inl ⟨_, rfl, codesFit_replicate⟩
  · split
    · exact .inr ⟨_, rfl⟩
    · split
      · exact .inl ⟨_, rfl, codesFit_set codesFit_replicate _ (by simp [Config.codeMax])⟩
      · rcases walkCodes_cases Config.codeMax (n := (s.setCode (Vector.replicate 256 [])).root) (path := [])
          (s := s.setCode (Vector.replicate 256 [])) (by simp) codesFit_replicate with ⟨c, h, hc⟩ | ⟨f, h⟩
        · exact .inl ⟨c, h, hc⟩
        · exact .inr ⟨f, h⟩

/-! ### How a command ends -/

/-- A micro command that answers a next state ended with a value or by `raise` (R132, R276). -/
theorem finishMicro_next {α : Type} {r : Res α} {f : α → State → Result} {t : State} (h : finishMicro r f = .next t) :
    (∃ a u, r = .ok a u ∧ t = completeCommand 0 (f a u) u) ∨ ∃ e u, r = .raised e u ∧ t = takeError e 0 u := by
  cases r with
  | ok a u => injection h with h; exact .inl ⟨a, u, rfl, h.symm⟩
  | raised e u => injection h with h; exact .inr ⟨e, u, rfl, h.symm⟩
  | stuck f => exact absurd h (by simp [finishMicro])

/-- A macro command that answers a next state ran all its phases or stopped in one (R225, R255). -/
theorem runMacro_next {ps : List Phase} {s t : State} (h : runMacro ps s = .next t) :
    (∃ u, runPhases ps (initUnits false s) = .done u
        ∧ t = completeCommand phaseClose (resultWord (closeAtEnd u).count) (closeAtEnd u))
      ∨ ∃ e p u, runPhases ps (initUnits false s) = .failed e p u ∧ t = takeError e p (closeAtEnd u) := by
  rw [runMacro] at h
  split at h
  · next u hu => injection h with h; exact .inl ⟨u, hu, h.symm⟩
  · next e p u hu => injection h with h; exact .inr ⟨e, p, u, hu, h.symm⟩
  · exact absurd h (by simp)

end Sys2Proof.Machine
end

