-- ==== Sys2Proof/Laws/Step.lean ====
section
/-! SUPPORT. What a step can do (70_reset_and_hazards.md R305), and how a property kept by the host's moves and by every
command is kept by every step. -/

namespace Sys2Proof.Machine

/-- Abandoning a command leaves the reset state and some content of the two streams, nothing else (R300). -/
theorem abandon_next {w : CmdWord} {n : Nat} {s t : State} (h : abandon w n s = .next t) : ∃ u, t = resetAt u s := by
  rw [abandon] at h
  split at h
  · injection h with h; exact ⟨s, h.symm⟩
  · split at h
    · next u _ => injection h with h; exact ⟨u, h.symm⟩
    · cases h
    · cases h

/-- The five things a step that answers a next state can have done. -/
theorem step_cases {s t : State} (h : step s = .next t) :
    (s.inputs = [] ∧ t = s)
    ∨ (∃ w i rest, s.inputs = .command w :: rest ∧ decode w = .instr i ∧ exec i (s.setInputs rest) = .next t)
    ∨ (∃ w y rest, s.inputs = .command w :: rest ∧ decode w = .reserved y ∧ t = illegalCommand (s.setInputs rest))
    ∨ (∃ w n rest, s.inputs = .resetDuring w n :: rest ∧ ∃ u, t = resetAt u (s.setInputs rest))
    ∨ ∃ e rest, s.inputs = e :: rest ∧ (∀ w, e ≠ .command w) ∧ t = hostMove e (s.setInputs rest) := by
  cases hi : s.inputs with
  | nil =>
    rw [step, hi] at h
    injection h with h
    exact .inl ⟨rfl, h.symm⟩
  | cons e rest =>
    rw [step, hi] at h
    cases e with
    | command w =>
      simp only [issue] at h
      split at h
      · next i hd => exact .inr (.inl ⟨w, i, rest, rfl, hd, h⟩)
      · next y hd => injection h with h; exact .inr (.inr (.inl ⟨w, y, rest, rfl, hd, h.symm⟩))
    | srcReplace l => injection h with h; exact .inr (.inr (.inr (.inr ⟨_, rest, rfl, by simp, h.symm⟩)))
    | srcAppend l => injection h with h; exact .inr (.inr (.inr (.inr ⟨_, rest, rfl, by simp, h.symm⟩)))
    | snkRemove a n => injection h with h; exact .inr (.inr (.inr (.inr ⟨_, rest, rfl, by simp, h.symm⟩)))
    | snkClear => injection h with h; exact .inr (.inr (.inr (.inr ⟨_, rest, rfl, by simp, h.symm⟩)))
    | reset => injection h with h; exact .inr (.inr (.inr (.inr ⟨_, rest, rfl, by simp, h.symm⟩)))
    | resetDuring w n => exact .inr (.inr (.inr (.inl ⟨w, n, rest, rfl, abandon_next h⟩)))

/-- A property of states kept by taking a move off the queue, by the host's moves, by any content of the streams, by the
illegal command and by every command is kept by every step. -/
theorem step_kept {P : State → Prop} (hin : ∀ s l, P s → P (s.setInputs l)) (hmove : ∀ e s, P s → P (hostMove e s))
    (hstr : ∀ s l m, P s → P ((s.setReader s.rbuf s.rcnt l).setWriter s.wbuf s.wcnt m))
    (hill : ∀ s, P s → P (illegalCommand s)) (hexec : ∀ i s t, P s → exec i s = .next t → P t) {s t : State} (hs : P s)
    (h : step s = .next t) : P t := by
  rcases step_cases h with ⟨-, rfl⟩ | ⟨w, i, rest, -, -, he⟩ | ⟨w, y, rest, -, -, rfl⟩ | ⟨w, n, rest, -, u, rfl⟩
    | ⟨e, rest, -, -, rfl⟩
  · exact hs
  · exact hexec i _ _ (hin _ _ hs) he
  · exact hill _ (hin _ _ hs)
  · exact hmove .reset _ (hstr _ _ _ (hin _ _ hs))
  · exact hmove e _ (hin _ _ hs)

/-- A property kept by the epilogue holds after a micro command if it holds of the state its procedure leaves. -/
theorem finishMicro_kept {α : Type} {P : State → Prop} (hend : ∀ s a b r, P s → P (s.endCommand a b r)) {r : Res α}
    {f : α → State → Result} {t : State} (hr : r.All P) (h : finishMicro r f = .next t) : P t := by
  rcases finishMicro_next h with ⟨a, u, hu, rfl⟩ | ⟨e, u, hu, rfl⟩ <;> rw [hu] at hr <;> exact hend _ _ _ _ hr

/-- P holds of the state the phases of a macro command leave. -/
def PhasesEnd.All (P : State → Prop) : PhasesEnd → Prop
  | .done s => P s
  | .failed _ _ s => P s
  | .stuck _ => True

theorem runPhases_all {P : State → Prop} (ps : List Phase) (h : ∀ p ∈ ps, ∀ s, P s → (p.run s).All P) :
    ∀ s, P s → (runPhases ps s).All P := by
  induction ps with
  | nil => intro s hs; exact hs
  | cons p ps ih =>
    intro s hs
    have hp := h p (by simp) s hs
    rw [runPhases]
    cases hr : p.run s with
    | ok a u => rw [hr] at hp; exact ih (fun q hq => h q (by simp [hq])) u hp
    | raised e u => rw [hr] at hp; exact hp
    | stuck f => trivial

theorem closeAtEnd_kept {P : State → Prop} (hc : ∀ s, P s → (closeWriter s).All P) {s : State} (h : P s) :
    P (closeAtEnd s) := by
  have := hc s h
  rw [closeAtEnd]
  split
  · next hr => rw [hr] at this; exact this
  · next hr => rw [hr] at this; exact this
  · exact h

/-- A property that INIT establishes and that the phases, `Close()` and the epilogue keep holds after a macro command. -/
theorem runMacro_kept {P : State → Prop} {ps : List Phase} (hend : ∀ s a b r, P s → P (s.endCommand a b r))
    (hc : ∀ s, P s → (closeWriter s).All P) (hps : ∀ p ∈ ps, ∀ s, P s → (p.run s).All P) {s t : State}
    (h0 : P (initUnits false s)) (h : runMacro ps s = .next t) : P t := by
  have := runPhases_all ps hps _ h0
  rcases runMacro_next h with ⟨u, hu, rfl⟩ | ⟨e, p, u, hu, rfl⟩ <;> rw [hu] at this <;>
    exact hend _ _ _ _ (closeAtEnd_kept hc this)

/-- Everything a command is made of: a property of states kept by all of it is kept by every command. -/
structure Kept (P : State → Prop) : Prop where
  reader : ReaderStable P
  put    : PutStable P
  close  : ∀ s, P s → (closeWriter s).All P
  push   : ∀ s e, P s → (heapPush e s).All P
  pop    : ∀ s, P s → (heapPop s).All P
  freq   : ∀ s, P s → (analyze s).All P
  build  : ∀ s, P s → (buildTree s).All P
  codes  : ∀ s, P s → (makeCodes s).All P
  rtree  : ∀ s, P s → (readTree s).All P
  count  : ∀ s c, P s → P (s.setCount c)
  init   : ∀ d s, P s → P (initUnits d s)
  finish : ∀ s a b r, P s → P (s.endCommand a b r)
  stat   : ∀ s r, P s → P { s with resps := r }

theorem Kept.exec {P : State → Prop} (k : Kept P) {i : Instr} {s t : State} (hs : P s) (h : exec i s = .next t) : P t := by
  have htop : (heapTop s).All P := by rw [heapTop]; split <;> exact hs
  cases i with
  | init d => injection h with h; rw [← h]; exact k.finish _ _ _ _ (k.init d _ hs)
  | stat sel =>
    simp only [Machine.exec, execStat] at h
    split at h
    · injection h with h; rw [← h]; exact k.stat _ _ hs
    · injection h with h; rw [← h]; exact k.finish _ _ _ _ hs
  | size => injection h with h; rw [← h]; exact k.finish _ _ _ _ hs
  | getbit => exact finishMicro_kept k.finish (getBit_all k.reader hs) h
  | getchar => exact finishMicro_kept k.finish (getBits_all k.reader _ hs) h
  | getint => exact finishMicro_kept k.finish (getBits_all k.reader _ hs) h
  | putbit b => exact finishMicro_kept k.finish (k.put b s hs) h
  | putchar v => exact finishMicro_kept k.finish (putBits_all k.put _ hs) h
  | putint w => exact finishMicro_kept k.finish (putBits_all k.put _ hs) h
  | close => exact finishMicro_kept k.finish (k.close s hs) h
  | push a b c => exact finishMicro_kept k.finish (k.push s _ hs) h
  | top => exact finishMicro_kept k.finish htop h
  | pop => exact finishMicro_kept k.finish (k.pop s hs) h
  | freq => exact finishMicro_kept k.finish (k.freq s hs) h
  | build => exact finishMicro_kept k.finish (k.build s hs) h
  | codes => exact finishMicro_kept k.finish (k.codes s hs) h
  | wtree => exact finishMicro_kept k.finish (writeTree_all k.put hs) h
  | wcount => exact finishMicro_kept k.finish (putBits_all k.put _ hs) h
  | wpayload => exact finishMicro_kept k.finish (writePayload_all k.put hs) h
  | rtree => exact finishMicro_kept k.finish (k.rtree s hs) h
  | rcount => exact finishMicro_kept k.finish (readCount_all k.reader k.count hs) h
  | decode => exact finishMicro_kept k.finish (decodeSymbols_all k.reader k.put hs) h
  | compress =>
    refine runMacro_kept k.finish k.close (fun p hp v hv => ?_) (k.init false s hs) h
    simp only [compressPhases, List.mem_cons, List.not_mem_nil, or_false] at hp
    rcases hp with rfl | rfl | rfl | rfl | rfl | rfl
    · exact k.freq v hv
    · exact k.build v hv
    · exact k.codes v hv
    · exact writeTree_all k.put hv
    · exact putBits_all k.put _ hv
    · exact writePayload_all k.put hv
  | decompress =>
    refine runMacro_kept k.finish k.close (fun p hp v hv => ?_) (k.init false s hs) h
    simp only [decompressPhases, List.mem_cons, List.not_mem_nil, or_false] at hp
    rcases hp with rfl | rfl | rfl
    · exact k.rtree v hv
    · exact readCount_all k.reader k.count hv
    · exact decodeSymbols_all k.reader k.put hv

end Sys2Proof.Machine
end

