-- ==== Sys2Proof/Laws/Invariants.lean ====
section
/-! SUPPORT. What the larger procedures leave unchanged, and that everything a command is made of keeps the invariants of
Sys2Proof/Safety.lean (10_state.md R24, R32, R34, 43_tree_builder.md R191, the table bounds). -/

namespace Sys2Proof.Machine


theorem buildTree_frame (s : State) : ∃ u, buildTree s = .ok () u
    ∧ u = { s with pqDesc := false, heap := [], node := u.node, root := u.root, treeEmpty := u.treeEmpty }
    ∧ u.node.length ≤ Config.nodeCap ∧ (u.treeEmpty = true ∨ ∃ t, HoldsTree u t) := by
  by_cases h : usedSymbols s.freq = []
  · exact ⟨_, (buildTree_empty h).2, rfl, by simp [buildStart], .inl rfl⟩
  · obtain ⟨t, u, -, hu, he, hT, -, -, hl, -⟩ := buildTree_some h
    have := usedSymbols_length_le s.freq
    refine ⟨u, hu, ?_, by simp only [Config.nodeCap]; omega, .inr ⟨t, hT⟩⟩
    rw [hT.present]; exact he

theorem analyze_frame (s : State) : (analyze s).All fun u =>
    u = { s with inbuf := u.inbuf, freq := u.freq, count := u.count, src := u.src } := by
  by_cases h : s.src.length ≤ s.inbufCap
  · rw [analyze_ok h]; rfl
  · rw [analyze_over (by omega)]; rfl

theorem analyze_facts (s : State) : (analyze s).All fun u =>
    u.src <:+ s.src ∧ u.inbuf.length ≤ s.inbufCap ∧ u.freq = inputFreq u.inbuf := by
  by_cases h : s.src.length ≤ s.inbufCap
  · rw [analyze_ok h]; exact ⟨List.nil_suffix, h, rfl⟩
  · rw [analyze_over (by omega)]; exact ⟨List.drop_suffix _ _, by simp, rfl⟩

theorem closeWriter_frame (s : State) : (closeWriter s).All fun u =>
    u = { s with wbuf := u.wbuf, wcnt := u.wcnt, wclosed := true, snk := u.snk } := by
  cases hw : s.wclosed with
  | true => rw [closeWriter_closed hw, Res.All, ← hw]
  | false =>
    obtain ⟨t, ht, -, h0, -, -, he, -⟩ := closeWriter_ok hw
    rw [ht, Res.All, h0]; exact he

theorem closeWriter_snk (s : State) : (closeWriter s).All fun u => s.snk <+: u.snk := by
  cases hw : s.wclosed with
  | true => rw [closeWriter_closed hw]; exact List.prefix_refl _
  | false => obtain ⟨t, ht, -, -, -, hp, -⟩ := closeWriter_ok hw; rw [ht]; exact hp

theorem push_all (e : Element) (s : State) : (heapPush e s).All fun u => u = s.setHeap u.heap := by
  rw [heapPush]; split <;> rfl
theorem pop_all (s : State) : (heapPop s).All fun u => u = s.setHeap u.heap := by
  rw [heapPop]; split <;> rfl
theorem makeCodes_all (s : State) : (makeCodes s).All fun u => u = s.setCode u.code ∧ CodesFit u.code := by
  rcases makeCodes_cases s with ⟨c, h, hc⟩ | ⟨f, h⟩ <;> rw [h]
  · exact ⟨rfl, hc⟩
  · trivial
theorem readTree_facts (s : State) : (readTree s).All fun u =>
    u = { s with rbuf := u.rbuf, rcnt := u.rcnt, src := u.src, node := u.node, root := u.root, treeEmpty := u.treeEmpty }
    ∧ u.node.length ≤ Config.nodeCap ∧ (u.treeEmpty = true ∨ ∃ t, HoldsTree u t) := by
  rcases readTree_cases s with ⟨t, u, h1, -, hsz, hT, he⟩ | ⟨e, u, h1, -, hn, he⟩
  · rw [h1]
    refine ⟨?_, by rw [he]; simpa using hsz, .inr ⟨_, hT⟩⟩
    conv_lhs => rw [he]
    rw [he]
  · rw [h1]
    refine ⟨?_, hn, .inl (by rw [he])⟩
    conv_lhs => rw [he]
    rw [he]

theorem Res.All.mono {α} {P Q : State → Prop} {r : Res α} (h : r.All P) (hq : ∀ s, P s → Q s) : r.All Q := by
  cases r with
  | ok a s => exact hq _ h
  | raised e s => exact hq _ h
  | stuck f => trivial

theorem putBit_all_of {P : State → Prop} (hP : ∀ s a n l, P s → P (s.setWriter a n l)) : PutStable P := fun b s h =>
  (putBit_writerOnly b s).mono fun u hu => by rw [hu]; exact hP _ _ _ _ h

theorem readTree_src (s : State) : (readTree s).All fun u => u.src <:+ s.src :=
  readTree_all (P := fun u => u.src <:+ s.src) (readerStable_src _) (fun _ _ h => h) (fun _ _ _ h => h) (List.suffix_refl _)

theorem kept_writerInv : Kept WriterInv where
  reader := readerStable_writerInv
  put := putStable_writerInv
  close := fun s h => closeWriter_writerInv h
  push := fun s e h => (push_all e s).mono fun u hu => by rw [hu]; exact h
  pop := fun s h => (pop_all s).mono fun u hu => by rw [hu]; exact h
  freq := fun s h => (analyze_frame s).mono fun u hu => by rw [hu]; exact h
  build := fun s h => by obtain ⟨u, hu, he, -⟩ := buildTree_frame s; rw [hu, Res.All, he]; exact h
  codes := fun s h => (makeCodes_all s).mono fun u hu => by rw [hu.1]; exact h
  rtree := fun s h => (readTree_facts s).mono fun u hu => by rw [hu.1]; exact h
  count := fun s c h => h
  init := fun d s _ => ⟨by simp [initUnits], fun h => by simp [initUnits] at h⟩
  finish := fun s a b r h => h
  stat := fun s r h => h

theorem heapInv_congr {s u : State} (h : HeapInv s) (h1 : u.heap = s.heap) (h2 : u.pqDesc = s.pqDesc) : HeapInv u := by
  unfold HeapInv at *; rw [h1, h2]; exact h

theorem heapInv_nil {u : State} (h1 : u.heap = []) : HeapInv u := by
  intro n _ h; rw [h1] at h; simp at h

theorem kept_heapInv : Kept HeapInv where
  reader := fun _ _ _ _ h _ => h
  put := putBit_all_of fun _ _ _ _ h => h
  close := fun s h => (closeWriter_frame s).mono fun u hu => heapInv_congr h (by rw [hu]) (by rw [hu])
  push := fun s e h => by rw [heapPush]; split; exact h; exact heapInsert_ordered _ h
  pop := fun s h => by
    cases hs : s.heap with
    | nil => rw [heapPop, hs]; exact h
    | cons e rest =>
      unfold HeapInv at h
      rw [hs] at h
      rw [heapPop_ok hs]; exact heapRemove_ordered h
  freq := fun s h => (analyze_frame s).mono fun u hu => heapInv_congr h (by rw [hu]) (by rw [hu])
  build := fun s h => by obtain ⟨u, hu, he, -⟩ := buildTree_frame s; rw [hu, Res.All]; exact heapInv_nil (by rw [he])
  codes := fun s h => (makeCodes_all s).mono fun u hu => heapInv_congr h (by rw [hu.1]; rfl) (by rw [hu.1]; rfl)
  rtree := fun s h => (readTree_facts s).mono fun u hu => heapInv_congr h (by rw [hu.1]) (by rw [hu.1])
  count := fun s c h => h
  init := fun d s _ => heapInv_nil rfl
  finish := fun s a b r h => h
  stat := fun s r h => h

theorem inputFreq_toNat {l : List Byte} (h : l.length ≤ Config.inbufCapMax) (b : Byte) : ((inputFreq l).get (symIndex b)).toNat = l.count b := by
  rw [get_inputFreq, BitVec.toNat_ofNat, Nat.mod_eq_of_lt]
  have := List.count_le_length (a := b) (l := l)
  simp only [Config.inbufCapMax] at h
  omega

def FreqCap (s : State) : Prop := s.inbufCap ≤ Config.inbufCapMax ∧ FreqInv s

theorem freqInv_congr {s u : State} (h : FreqCap s) (h0 : u.inbufCap = s.inbufCap) (h1 : u.freq = s.freq) (h2 : u.inbuf = s.inbuf) : FreqCap u := by
  refine ⟨by rw [h0]; exact h.1, fun b => ?_⟩
  have := h.2 b
  unfold State.freqAt at *; rw [h1, h2]; exact this

theorem kept_freqInv : Kept FreqCap where
  reader := fun _ _ _ _ h _ => h
  put := putBit_all_of fun _ _ _ _ h => h
  close := fun s h => (closeWriter_frame s).mono fun u hu => freqInv_congr h (by rw [hu]) (by rw [hu]) (by rw [hu])
  push := fun s e h => (push_all e s).mono fun u hu => freqInv_congr h (by rw [hu]; rfl) (by rw [hu]; rfl) (by rw [hu]; rfl)
  pop := fun s h => (pop_all s).mono fun u hu => freqInv_congr h (by rw [hu]; rfl) (by rw [hu]; rfl) (by rw [hu]; rfl)
  freq := fun s h => by
    have h1 := analyze_frame s
    have h2 := analyze_facts s
    cases ha : analyze s with
    | ok a u =>
      rw [ha] at h1 h2
      refine ⟨by rw [h1]; exact h.1, fun b => ?_⟩
      rw [State.freqAt, h2.2.2]; exact inputFreq_toNat (le_trans h2.2.1 h.1) b
    | raised e u =>
      rw [ha] at h1 h2
      refine ⟨by rw [h1]; exact h.1, fun b => ?_⟩
      rw [State.freqAt, h2.2.2]; exact inputFreq_toNat (le_trans h2.2.1 h.1) b
    | stuck f => trivial
  build := fun s h => by obtain ⟨u, hu, he, -⟩ := buildTree_frame s; rw [hu, Res.All]; exact freqInv_congr h (by rw [he]) (by rw [he]) (by rw [he])
  codes := fun s h => (makeCodes_all s).mono fun u hu => freqInv_congr h (by rw [hu.1]; rfl) (by rw [hu.1]; rfl) (by rw [hu.1]; rfl)
  rtree := fun s h => (readTree_facts s).mono fun u hu => freqInv_congr h (by rw [hu.1]) (by rw [hu.1]) (by rw [hu.1])
  count := fun s c h => h
  init := fun d s h => ⟨h.1, fun b => by
    show ((Vector.replicate 256 (0 : Word)).get (symIndex b)).toNat = ([] : List Byte).count b
    rw [get_replicate_zero]; rfl⟩
  finish := fun s a b r h => h
  stat := fun s r h => h

theorem tablesWf_iff (s : State) : s.tablesWf = true ↔ 1 ≤ s.inbufCap ∧ s.inbufCap ≤ Config.inbufCapMax ∧ s.inbuf.length ≤ s.inbufCap ∧ s.heap.length ≤ Config.pqCap ∧ s.node.length ≤ Config.nodeCap ∧ CodesFit s.code := by
  rw [codesFit_iff]
  simp only [State.tablesWf, Bool.and_eq_true, decide_eq_true_eq, and_assoc]

theorem kept_tables : Kept (fun s => s.tablesWf = true) where
  reader := fun _ _ _ _ h _ => h
  put := putBit_all_of fun _ _ _ _ h => h
  close := fun s h => (closeWriter_frame s).mono fun u hu => by rw [hu]; exact h
  push := fun s e h => by
    rw [heapPush]; split; exact h
    rw [Res.All]
    rw [tablesWf_iff] at h ⊢
    refine ⟨h.1, h.2.1, h.2.2.1, ?_, h.2.2.2.2⟩
    show (heapInsert _ _ _).length ≤ _
    rw [(heapInsert_perm _ _ _).length_eq]; simp; omega
  pop := fun s h => by
    cases hs : s.heap with
    | nil => rw [heapPop, hs]; exact h
    | cons e rest =>
      rw [heapPop_ok hs, Res.All]
      rw [tablesWf_iff] at h ⊢
      refine ⟨h.1, h.2.1, h.2.2.1, ?_, h.2.2.2.2⟩
      show (heapRemove _ _).length ≤ _
      have := h.2.2.2.1
      rw [hs] at this
      rw [(heapRemove_perm _ _ _).length_eq]; simp at this; omega
  freq := fun s h => by
    have h1 := analyze_frame s
    have h2 := analyze_facts s
    rw [tablesWf_iff] at h
    have key : ∀ u : State, u = { s with inbuf := u.inbuf, freq := u.freq, count := u.count, src := u.src } → u.inbuf.length ≤ s.inbufCap → u.tablesWf = true := by
      intro u hu hl
      rw [tablesWf_iff, hu]
      exact ⟨h.1, h.2.1, hl, h.2.2.2⟩
    cases ha : analyze s with
    | ok a u => rw [ha] at h1 h2; exact key u h1 h2.2.1
    | raised e u => rw [ha] at h1 h2; exact key u h1 h2.2.1
    | stuck f => trivial
  build := fun s h => by
    obtain ⟨u, hu, he, hn, -⟩ := buildTree_frame s
    rw [tablesWf_iff] at h
    rw [hu, Res.All, tablesWf_iff, he]
    exact ⟨h.1, h.2.1, h.2.2.1, by simp, hn, h.2.2.2.2.2⟩
  codes := fun s h => (makeCodes_all s).mono fun u hu => by
    rw [tablesWf_iff] at h ⊢
    rw [hu.1]
    exact ⟨h.1, h.2.1, h.2.2.1, h.2.2.2.1, h.2.2.2.2.1, hu.2⟩
  rtree := fun s h => (readTree_facts s).mono fun u hu => by
    rw [tablesWf_iff] at h ⊢
    rw [hu.1]
    exact ⟨h.1, h.2.1, h.2.2.1, h.2.2.2.1, hu.2.1, h.2.2.2.2.2⟩
  count := fun s c h => h
  init := fun d s h => by
    rw [tablesWf_iff] at h ⊢
    exact ⟨h.1, h.2.1, by simp [initUnits], by simp [initUnits], by simp [initUnits], codesFit_replicate⟩
  finish := fun s a b r h => h
  stat := fun s r h => h

theorem treeInv_congr {s u : State} (h : TreeInv s) (h0 : u.treeEmpty = s.treeEmpty) (h1 : u.root = s.root) (h2 : u.node = s.node) : TreeInv u := by
  intro he
  obtain ⟨t, ht⟩ := h (h0 ▸ he)
  exact ⟨t, he, by rw [h1]; exact ht.top, by rw [h2]; exact ht.records, ht.owned⟩

theorem treeInv_of {u : State} (h : u.treeEmpty = true ∨ ∃ t, HoldsTree u t) : TreeInv u := by
  intro he
  rcases h with h | h
  · rw [h] at he; cases he
  · exact h

theorem kept_treeInv : Kept TreeInv where
  reader := fun _ _ _ _ h _ => treeInv_congr h rfl rfl rfl
  put := putBit_all_of fun _ _ _ _ h => treeInv_congr h rfl rfl rfl
  close := fun s h => (closeWriter_frame s).mono fun u hu => treeInv_congr h (by rw [hu]) (by rw [hu]) (by rw [hu])
  push := fun s e h => (push_all e s).mono fun u hu => treeInv_congr h (by rw [hu]; rfl) (by rw [hu]; rfl) (by rw [hu]; rfl)
  pop := fun s h => (pop_all s).mono fun u hu => treeInv_congr h (by rw [hu]; rfl) (by rw [hu]; rfl) (by rw [hu]; rfl)
  freq := fun s h => (analyze_frame s).mono fun u hu => treeInv_congr h (by rw [hu]) (by rw [hu]) (by rw [hu])
  build := fun s h => by obtain ⟨u, hu, he, -, hT⟩ := buildTree_frame s; rw [hu, Res.All]; exact treeInv_of hT
  codes := fun s h => (makeCodes_all s).mono fun u hu => treeInv_congr h (by rw [hu.1]; rfl) (by rw [hu.1]; rfl) (by rw [hu.1]; rfl)
  rtree := fun s h => (readTree_facts s).mono fun u hu => treeInv_of hu.2.2
  count := fun s c h => treeInv_congr h rfl rfl rfl
  init := fun d s h => treeInv_of (.inl rfl)
  finish := fun s a b r h => treeInv_congr h rfl rfl rfl
  stat := fun s r h => treeInv_congr h rfl rfl rfl


end Sys2Proof.Machine
end

