-- ==== Sys2Proof/Laws/Raises.lean ====
section
/-! SUPPORT. Which errors a procedure can raise (60_exceptions.md R277). -/

namespace Sys2Proof.Machine

/-- Whatever a procedure raises satisfies Q. -/
def Res.Raises {α : Type} (Q : Err → Prop) : Res α → Prop
  | .ok _ _ => True
  | .raised e _ => Q e
  | .stuck _ => True

theorem Res.Raises.bind {α β : Type} {Q : Err → Prop} {r : Res α} {k : α → State → Res β} (h : r.Raises Q)
    (hk : ∀ a s, (k a s).Raises Q) : (r.bind k).Raises Q := by
  cases r with
  | ok a s => exact hk a s
  | raised e s => exact h
  | stuck f => trivial

theorem getBit_raises (s : State) : (getBit s).Raises (· = .endOfStream) := by
  cases h : readerBits s with
  | nil => rw [getBit_eos h]; rfl
  | cons b bs => obtain ⟨t, ht, -⟩ := getBit_ok h; rw [ht]; trivial

theorem getBits_raises {w : Nat} (n : Nat) : ∀ (v : BitVec w) (s : State), (getBits n v s).Raises (· = .endOfStream) := by
  induction n with
  | zero => intro v s; trivial
  | succ n ih => intro v s; exact (getBit_raises s).bind fun b s' => ih _ s'

/-- A sequence of puts raises Closed only, and only on a closed writer. -/
theorem putBits_raises (bits : List Bool) (s : State) :
    (putBits bits s).Raises fun e => e = .closed ∧ s.wclosed = true := by
  cases hw : s.wclosed with
  | false => obtain ⟨t, ht, -⟩ := putBits_ok bits hw; rw [ht]; trivial
  | true =>
    cases bits with
    | nil => trivial
    | cons b bs => rw [putBits_closed (by simp) hw]; exact ⟨rfl, rfl⟩

theorem serialize_raises (fuel : Nat) : ∀ (n : Idx) (s : State),
    (serialize fuel n s).Raises fun e => e = .closed ∧ s.wclosed = true := by
  have leaf : ∀ (b : Byte) (s : State), (putLeaf b s).Raises fun e => e = .closed ∧ s.wclosed = true :=
    fun b s => putBits_raises (true :: msbBits b) s
  have keep : ∀ (s u : State) (r : Res Unit), putBit false s = .ok () u →
      r.Raises (fun e => e = .closed ∧ u.wclosed = true) → r.Raises fun e => e = .closed ∧ s.wclosed = true := by
    intro s u r h hr
    have := putBit_writerOnly false s
    rw [h, Res.All] at this
    have hw : u.wclosed = s.wclosed := by rw [this]; rfl
    rw [hw] at hr
    exact hr
  induction fuel with
  | zero =>
    intro n s
    rw [serialize.eq_def]
    dsimp only
    split
    · trivial
    · split
      · exact leaf _ s
      · trivial
  | succ k ih =>
    intro n s
    rw [serialize.eq_def]
    dsimp only
    split
    · trivial
    · next r _ =>
      split
      · exact leaf _ s
      · cases hp : putBit false s with
        | raised e u =>
          have := putBits_raises [false] s
          rw [putBits, hp] at this
          exact this
        | stuck f => trivial
        | ok x u =>
          refine keep s u _ hp ?_
          rw [Res.bind]
          cases h1 : serialize k r.left u with
          | stuck f => trivial
          | raised e v => have := ih r.left u; rw [h1] at this; exact this
          | ok y v =>
            have hw : (serialize k r.left u).All (fun z => z.wclosed = u.wclosed) :=
              serialize_all (fun b z hz => by
                have := putBit_writerOnly b z
                cases hb : putBit b z with
                | ok a z' => rw [hb] at this; rw [Res.All, this]; exact hz
                | raised a z' => rw [hb] at this; rw [Res.All, this]; exact hz
                | stuck f => trivial) k rfl
            rw [h1, Res.All] at hw
            have := ih r.right v
            rw [hw] at this
            exact this

theorem readNode_raises (fuel : Nat) : ∀ s : State,
    (readNode fuel s).Raises fun e => e = .endOfStream ∨ e = .capacity := by
  have gb : ∀ s, (getBit s).Raises fun e => e = .endOfStream ∨ e = .capacity := fun s => by
    have := getBit_raises s
    cases h : getBit s with
    | raised e u => rw [h] at this; exact .inl this
    | _ => trivial
  have gc : ∀ s, (getChar s).Raises fun e => e = .endOfStream ∨ e = .capacity := fun s => by
    have := getBits_raises (w := 8) 8 0 s
    cases h : getChar s with
    | raised e u => rw [getChar] at h; rw [h] at this; exact .inl this
    | _ => trivial
  induction fuel with
  | zero =>
    intro s
    rw [readNode_eq]
    refine (gb s).bind fun b s1 => ?_
    split
    · exact .inr rfl
    · split
      · exact (gc _).bind fun _ _ => trivial
      · trivial
  | succ k ih =>
    intro s
    rw [readNode_eq]
    refine (gb s).bind fun b s1 => ?_
    split
    · exact .inr rfl
    · split
      · exact (gc _).bind fun _ _ => trivial
      · exact (ih _).bind fun _ _ => (ih _).bind fun _ _ => trivial

theorem descend_raises (fuel : Nat) : ∀ (n : Idx) (s : State), (descend fuel n s).Raises (· = .endOfStream) := by
  induction fuel with
  | zero =>
    intro n s
    rw [descend.eq_def]
    dsimp only
    split
    · trivial
    · split
      · trivial
      · exact (getBit_raises s).bind fun _ _ => trivial
  | succ k ih =>
    intro n s
    rw [descend.eq_def]
    dsimp only
    split
    · trivial
    · split
      · trivial
      · exact (getBit_raises s).bind fun _ _ => ih _ _

theorem nextSymbol_raises (s : State) : (nextSymbol s).Raises (· = .endOfStream) := by
  rw [nextSymbol]
  split
  · trivial
  · split
    · exact (getBit_raises s).bind fun _ _ => trivial
    · exact descend_raises _ _ _

/-- DECODE's loop raises EndOfStream, or Closed on a closed writer (R248). -/
theorem decodeLoop_raises (n : Nat) : ∀ s : State,
    (decodeLoop n s).Raises fun e => e = .endOfStream ∨ e = .closed ∧ s.wclosed = true := by
  induction n with
  | zero => intro s; trivial
  | succ n ih =>
    intro s
    rw [decodeLoop, emitSymbol]
    cases h1 : nextSymbol s with
    | raised e u => have := nextSymbol_raises s; rw [h1] at this; exact .inl this
    | stuck f => trivial
    | ok b u =>
      have ho := nextSymbol_all (readerStable_readerOnly s) (ReaderOnly.refl s)
      rw [h1, Res.All] at ho
      have hw : u.wclosed = s.wclosed := by rw [ho]; rfl
      simp only [Res.bind, putChar]
      cases h2 : putBits (msbBits b) u with
      | raised e v => have := putBits_raises (msbBits b) u; rw [h2, hw] at this; exact .inr this
      | stuck f => trivial
      | ok x v =>
        have hp := putBits_all (putStable_writerOnly u) (msbBits b) (WriterOnly.refl u)
        rw [h2, Res.All] at hp
        have hv : v.wclosed = s.wclosed := by rw [← hw, hp]; rfl
        have := ih v
        rw [hv] at this
        exact this

end Sys2Proof.Machine
end

