-- ==== Sys2Proof/Laws/Explicit.lean ====
section
/-! SUPPORT. The stream operations spelt out register by register (41_bitstream.md R140 to R145), counting (43_tree_builder.md
R191, R196), and how a command's procedure can end (60_exceptions.md R276, R277). -/

namespace Sys2Proof.Machine

/-! ### Reader -/

/-- `GetBit()` with no bit buffered (R140). -/
theorem getBit_refill {s : State} {r rest} (h0 : s.rcnt = 0) (hs : s.src = r :: rest) :
    getBit s = .ok (r.getLsbD 7) { s with rbuf := r, rcnt := 7, src := rest } := by
  simp [getBit, refill, h0, srcRead, hs, Res.bind, takeBit, State.setReader]

/-- `GetBit()` with n + 1 bits buffered (R140). -/
theorem getBit_buffered {s : State} (n : Fin 8) (h : s.rcnt = n.succ) :
    getBit s = .ok (s.rbuf.getLsbD n.val) { s with rcnt := n.castSucc } := by
  have : s.rcnt ≠ 0 := by rw [h]; exact Fin.succ_ne_zero n
  simp [getBit, refill, this, Res.bind, takeBit, State.setReader]
  simp [h]
  rfl

/-- Taking j of the k buffered bits. -/
theorem getBits_partial {w : Nat} (n j : Nat) : ∀ (k : Nat) (v : BitVec w) (s : State) (hk : k < 9) , s.rcnt = ⟨k, hk⟩ → (hj : j ≤ k) →
    getBits (j + n) v s = getBits n (((lowBits k s.rbuf).take j).foldl shiftIn v) { s with rcnt := ⟨k - j, by omega⟩ } := by
  induction j with
  | zero => intro k v s hk h _; simp; congr 1; cases s; simp at h; simp [h]
  | succ j ih =>
    intro k v s hk h hj
    obtain ⟨k, rfl⟩ : ∃ k', k = k' + 1 := ⟨k - 1, by omega⟩
    rw [show j + 1 + n = (j + n) + 1 by omega, getBits, getBit_buffered ⟨k, by omega⟩ (by rw [h]; rfl), Res.bind,
      ih k _ _ (by omega) rfl (by omega), lowBits_succ_cons, List.take_succ_cons, List.foldl_cons]
    simp only [Nat.add_sub_add_right]

theorem lowBits_split (r : Byte) : msbBits r = r.getLsbD 7 :: lowBits 7 r := by
  rw [← lowBits_full, lowBits_succ_cons]

/-- Taking j + 1 bits of a fresh byte. -/
theorem getBits_refill {w : Nat} (n j : Nat) (hj : j ≤ 7) (v : BitVec w) (s : State) {r rest} (h0 : s.rcnt = 0) (hs : s.src = r :: rest) :
    getBits (j + 1 + n) v s = getBits n (((msbBits r).take (j + 1)).foldl shiftIn v) { s with rbuf := r, rcnt := ⟨7 - j, by omega⟩, src := rest } := by
  rw [show j + 1 + n = (j + n) + 1 by omega, getBits, getBit_refill h0 hs, Res.bind, getBits_partial n j 7 _ _ (by omega) rfl hj,
    lowBits_split r, List.take_succ_cons, List.foldl_cons]

/-- The byte two partial bytes make (R141). -/
theorem foldl_byte (k : Nat) (hk : k ≤ 8) (a b : Byte) :
   ((lowBits k a ++ (msbBits b).take (8 - k)).foldl shiftIn (0 : Byte)) = (a <<< (8 - k)) ||| (b >>> k) := by
  have : ∀ (l : List Bool) (v : Nat), l.foldl shiftIn (BitVec.ofNat 8 v) = BitVec.ofNat 8 (l.foldl (fun v b => 2 * v + b.toNat) v) := by
    intro l
    induction l with
    | nil => intro v; rfl
    | cons x xs ih => intro v; rw [List.foldl_cons, shiftIn_ofNat, ih, List.foldl_cons]
  rw [show (0 : Byte) = BitVec.ofNat 8 0 from rfl, this]
  apply msbBits_injective
  rw [show (List.foldl (fun v b => 2 * v + b.toNat) 0 (lowBits k a ++ List.take (8 - k) (msbBits b))) = bitsValue (lowBits k a ++ List.take (8 - k) (msbBits b)) from rfl]
  rw [msbBits_ofNat_bitsValue _ (by simp; omega)]
  apply List.ext_getElem
  · simp; omega
  · intro i h1 h2
    simp at h1 h2
    by_cases hi : i < k
    · rw [List.getElem_append_left (by simpa using hi)]
      have a1 : 8 - 1 - i < 8 := by omega
      have a2 : ¬ (8 - 1 - i < 8 - k) := by omega
      have a3 : 8 - 1 - i - (8 - k) = k - 1 - i := by omega
      have a4 : ¬ (k + (8 - 1 - i) < 8) := by omega
      simp only [msbBits, lowBits, List.getElem_map, List.getElem_range, BitVec.getMsbD, BitVec.getLsbD_or, BitVec.getLsbD_shiftLeft, BitVec.getLsbD_ushiftRight, a1, a2, a3, decide_true, decide_false, Bool.not_false, Bool.true_and, h2]
      rw [BitVec.getLsbD_of_ge b _ (by omega)]; simp
    · rw [List.getElem_append_right (by simpa using hi)]
      have a1 : 8 - 1 - i < 8 := by omega
      have a2 : (8 - 1 - i < 8 - k) := by omega
      have a3 : k + (8 - 1 - i) = 8 - 1 - (i - k) := by omega
      have a4 : i - k < 8 := by omega
      simp only [msbBits, List.getElem_take, lowBits_length, List.getElem_map, List.getElem_range, BitVec.getMsbD, BitVec.getLsbD_or, BitVec.getLsbD_shiftLeft, BitVec.getLsbD_ushiftRight, a1, a2, a3, a4, decide_true, Bool.not_true, Bool.true_and, Bool.and_false, Bool.false_and, Bool.false_or, h2]

/-- The word four bytes make, the first most significant (R142). -/
theorem foldl_word (b0 b1 b2 b3 : Byte) : ((msbBits b3).foldl shiftIn ((msbBits b2).foldl shiftIn ((msbBits b1).foldl shiftIn ((msbBits b0).foldl shiftIn (0 : Word))))) = b0 ++ b1 ++ b2 ++ b3 := by
  have : ∀ (l : List Bool) (v : Nat), l.foldl shiftIn (BitVec.ofNat 32 v) = BitVec.ofNat 32 (l.foldl (fun v b => 2 * v + b.toNat) v) := by
    intro l
    induction l with
    | nil => intro v; rfl
    | cons x xs ih => intro v; rw [List.foldl_cons, shiftIn_ofNat, ih, List.foldl_cons]
  rw [show (0 : Word) = BitVec.ofNat 32 0 from rfl, this, this, this, this]
  simp only [foldl_bitsValue, bitsValue_msbBits, msbBits_length]
  apply BitVec.eq_of_toNat_eq
  have h : ∀ {a b : Nat} (x : BitVec a) (y : BitVec b), (x ++ y).toNat = x.toNat * 2 ^ b + y.toNat := by
    intro a b x y
    rw [BitVec.toNat_append, Nat.shiftLeft_eq, Nat.mul_comm, ← Nat.two_pow_add_eq_or_of_lt y.isLt]
  have e : (b0 ++ b1 ++ b2 ++ b3).toNat = ((b0.toNat * 2 ^ 8 + b1.toNat) * 2 ^ 8 + b2.toNat) * 2 ^ 8 + b3.toNat := by
    rw [h, h, h]
  rw [show (BitVec.toNat (b0 ++ b1 ++ b2 ++ b3 : Word)) = (b0 ++ b1 ++ b2 ++ b3).toNat from rfl, e, BitVec.toNat_ofNat]
  have := b0.isLt; have := b1.isLt; have := b2.isLt; have := b3.isLt
  omega

/-- Bit k of a sequence of bytes (R63). -/
theorem flatMap_msbBits_getElem (l : List Byte) : ∀ k, k < 8 * l.length → (l.flatMap msbBits)[k]? = some ((l.getD (k / 8) 0).getLsbD (7 - k % 8)) := by
  induction l with
  | nil => intro k h; simp at h
  | cons b l ih =>
    intro k h
    rw [List.flatMap_cons]
    by_cases hk : k < 8
    · rw [List.getElem?_append_left (by simpa using hk)]
      have h1 : k / 8 = 0 := by omega
      have h2 : k % 8 = k := by omega
      simp [msbBits, h1, h2, hk, BitVec.getMsbD]
    · rw [List.getElem?_append_right (by simpa using hk)]
      have := ih (k - 8) (by simp at h; omega)
      simp only [msbBits_length]
      rw [this]
      have h1 : k / 8 = (k - 8) / 8 + 1 := by omega
      have h2 : (k - 8) % 8 = k % 8 := by omega
      rw [h1, h2]; simp

/-- The first k bits of a sequence of bytes (R63). -/
theorem take_flatMap_msbBits (l : List Byte) (k : Nat) (h : k ≤ 8 * l.length) :
   (l.flatMap msbBits).take k = (List.range k).map fun j => (l.getD (j / 8) 0).getLsbD (7 - j % 8) := by
  have hlen : (l.flatMap msbBits).length = 8 * l.length := by simp [List.length_flatMap, Nat.mul_comm]
  apply List.ext_getElem?
  intro i
  by_cases hi : i < k
  · rw [List.getElem?_take_of_lt hi, flatMap_msbBits_getElem l i (by omega)]
    simp [hi]
  · rw [List.getElem?_eq_none (by simp; omega), List.getElem?_eq_none (by simp; omega)]

theorem suffix_eq_drop {α} {a b : List α} (h : a <:+ b) : a = b.drop (b.length - a.length) := by
  obtain ⟨t, rfl⟩ := h; simp

/-! ### Writer -/

/-- A sequence of bytes is fixed by its bits (R63). -/
theorem flatMap_msbBits_injective {a b : List Byte}
    (h : a.flatMap msbBits = b.flatMap msbBits) : a = b := by
  induction a generalizing b with
  | nil => cases b with
    | nil => rfl
    | cons y ys => exfalso; have := congrArg List.length h; simp at this; omega
  | cons x a ih => cases b with
    | nil => exfalso; have := congrArg List.length h; simp at this
    | cons y b =>
      rw [List.flatMap_cons, List.flatMap_cons] at h
      obtain ⟨h1, h2⟩ := List.append_inj h (by simp)
      rw [msbBits_injective h1, ih h2]

/-- The bytes in SNK and the partial group are fixed by the bits put. -/
theorem writer_determined {s u : State} {bytes : List Byte} {rest : List Bool} (hp : s.snk <+: u.snk)
    (hw : writerBits u = s.snk.flatMap msbBits ++ (bytes.flatMap msbBits ++ rest)) (hr : rest.length < 8) :
    u.snk = s.snk ++ bytes ∧ lowBits u.wcnt.val u.wbuf = rest ∧ u.wcnt.val = rest.length := by
  obtain ⟨x, hx⟩ := hp
  rw [writerBits, ← hx, List.flatMap_append, List.append_assoc] at hw
  have hw := List.append_cancel_left hw
  have hlen : x.length = bytes.length ∧ u.wcnt.val = rest.length := by
    have := congrArg List.length hw
    simp [List.length_flatMap] at this
    have := u.wcnt.isLt
    omega
  have hl2 : (x.flatMap msbBits).length = (bytes.flatMap msbBits).length := by simp [List.length_flatMap, hlen.1]
  obtain ⟨e1, e2⟩ := List.append_inj hw hl2
  have : x = bytes := by
    have hl := hlen.1

    clear * - e1 hl
    induction x generalizing bytes with
    | nil => cases bytes with
      | nil => rfl
      | cons b bs => simp at hl
    | cons a x ih => cases bytes with
      | nil => simp at hl
      | cons b bs =>
        rw [List.flatMap_cons, List.flatMap_cons] at e1
        obtain ⟨e3, e4⟩ := List.append_inj e1 (by simp)
        rw [msbBits_injective e3, ih e4 (by simpa using hl)]
  exact ⟨by rw [← hx, this], e2, hlen.2⟩

/-- The write buffer is fixed by the partial group if nothing else is in it (R24). -/
theorem wbuf_determined {u : State} {rest : List Bool} (h : u.wbuf.toNat < 2 ^ u.wcnt.val) (hb : lowBits u.wcnt.val u.wbuf = rest) : u.wbuf = BitVec.ofNat 8 (bitsValue rest) := by
  have := bitsValue_lowBits u.wcnt.val u.wbuf (by omega)
  rw [hb, Nat.mod_eq_of_lt h] at this
  rw [this]; simp

/-- Once a byte has left, the write buffer holds nothing but the partial group (R24), whatever it held. -/
theorem putBits_clean (bits : List Bool) : ∀ (s : State), s.wclosed = false → 8 ≤ s.wcnt.val + bits.length → (putBits bits s).All (fun u => u.wbuf.toNat < 2 ^ u.wcnt.val) := by
  induction bits with
  | nil => intro s _ h; simp at h; omega
  | cons b bs ih =>
    intro s hw h
    by_cases hc : s.wcnt.val + 1 < 8
    · have : putBit b s = .ok () (s.setWriter (shiftIn s.wbuf b) ⟨s.wcnt.val + 1, hc⟩ s.snk) := by simp [putBit, hw, hc]
      rw [putBits, this]
      exact ih _ hw (by simp at h ⊢; omega)
    · have : putBit b s = .ok () (s.setWriter 0 0 (s.snk ++ [shiftIn s.wbuf b])) := by simp [putBit, hw, hc, snkWrite]; rfl
      rw [putBits, this]
      have h2 := putBits_all putStable_writerInv bs (s := s.setWriter 0 0 (s.snk ++ [shiftIn s.wbuf b])) ⟨by simp, fun _ => rfl⟩
      show (putBits bs _).All _
      cases hp : putBits bs (s.setWriter 0 0 (s.snk ++ [shiftIn s.wbuf b])) with
      | ok a u => rw [hp] at h2; exact h2.1
      | raised e u => rw [hp] at h2; exact h2.1
      | stuck f => trivial

theorem lowBits_append {a b : Nat} (x : BitVec a) (y : BitVec b) (k : Nat) : lowBits (k + b) (x ++ y) = lowBits k x ++ msbBits y := by
  rw [← lowBits_full]
  apply List.ext_getElem
  · simp
  · intro i h1 h2
    simp at h1
    by_cases hi : i < k
    · rw [List.getElem_append_left (by simpa using hi)]
      have h3 : ¬ (k + b - 1 - i < b) := by omega
      have h4 : k + b - 1 - i - b = k - 1 - i := by omega
      simp [lowBits, BitVec.getLsbD_append, h3, h4]
    · rw [List.getElem_append_right (by simpa using hi)]
      have h3 : (k + b - 1 - i < b) := by omega
      have h4 : k + b - 1 - i = b - 1 - (i - k) := by omega
      simp only [lowBits, List.getElem_map, List.getElem_range, BitVec.getLsbD_append, h3, List.length_map, List.length_range, if_true]
      rw [h4]

theorem lowBits_split_at {w : Nat} (x : BitVec w) (m n : Nat) : lowBits (m + n) x = lowBits m (x >>> n) ++ lowBits n x := by
  apply List.ext_getElem
  · simp
  · intro i h1 h2
    simp at h1
    by_cases hi : i < m
    · rw [List.getElem_append_left (by simpa using hi)]
      have h4 : n + (m - 1 - i) = m + n - 1 - i := by omega
      simp [lowBits, h4]
    · rw [List.getElem_append_right (by simpa using hi)]
      have h4 : m + n - 1 - i = n - 1 - (i - m) := by omega
      simp [lowBits, h4]

theorem msbBits_setWidth {w : Nat} (x : BitVec w) (n : Nat) : msbBits (x.setWidth n) = lowBits n x := by
  rw [← lowBits_full]
  refine List.map_congr_left fun k hk => ?_
  have : k < n := List.mem_range.1 hk
  have : n - 1 - k < n := by omega
  simp [this]

/-- Putting a whole number of bytes (R144, R145): that many leave, the low bits stay. -/
theorem put_value {w m : Nat} (hm : w = 8 * m) (h0 : 0 < m) (v : BitVec w) (s : State) (hw : s.wclosed = false) :
    ∃ u, putBits (msbBits v) s = .ok () u ∧ u = { s with wbuf := BitVec.ofNat 8 (v.toNat % 2 ^ s.wcnt.val), snk := u.snk }
     ∧ u.snk = s.snk ++ ((List.range m).map fun i => ((s.wbuf ++ v) >>> (s.wcnt.val + 8 * (m - 1 - i))).setWidth 8) := by
  obtain ⟨u, hu, hb, ho, hp⟩ := putBits_ok (msbBits v) hw
  have hcl := putBits_clean (msbBits v) s hw (by simp; omega)
  rw [hu] at hcl
  have hk := s.wcnt.isLt
  have hbits : lowBits s.wcnt.val s.wbuf ++ msbBits v = ((List.range m).map fun i => ((s.wbuf ++ v) >>> (s.wcnt.val + 8 * (m - 1 - i))).setWidth 8).flatMap msbBits ++ lowBits s.wcnt.val v := by
    rw [← lowBits_append]
    have e1 : lowBits s.wcnt.val v = lowBits s.wcnt.val (s.wbuf ++ v) := by
      refine List.map_congr_left fun k hk => ?_
      have : k < s.wcnt.val := List.mem_range.1 hk
      have : s.wcnt.val - 1 - k < w := by omega
      simp [BitVec.getLsbD_append, this]
    rw [e1, show s.wcnt.val + w = w + s.wcnt.val by omega, lowBits_split_at]
    congr 1
    subst hm
    generalize s.wbuf ++ v = x
    clear e1 hcl hu hb ho hp
    have key : ∀ (m : Nat) {w : Nat} (x : BitVec w) (k : Nat), lowBits (8 * m) (x >>> k) = ((List.range m).map fun i => (x >>> (k + 8 * (m - 1 - i))).setWidth 8).flatMap msbBits := by
      intro m
      induction m with
      | zero => intro w x k; rfl
      | succ m ih =>
        intro w x k
        rw [List.range_succ, List.map_append, List.flatMap_append, show 8 * (m + 1) = 8 * m + 8 by omega, lowBits_split_at]
        congr 1
        · have : (x >>> k) >>> 8 = x >>> (k + 8) := by rw [BitVec.shiftRight_add]
          rw [this, ih]
          congr 1
          refine List.map_congr_left fun i hi => ?_
          have : i < m := List.mem_range.1 hi
          congr 2; omega
        · simp only [List.map_cons, List.map_nil, List.flatMap_singleton, msbBits_setWidth]
          congr 2; omega
    exact key m x _
  have hb' : writerBits u = s.snk.flatMap msbBits ++ (((List.range m).map fun i => ((s.wbuf ++ v) >>> (s.wcnt.val + 8 * (m - 1 - i))).setWidth 8).flatMap msbBits ++ lowBits s.wcnt.val v) := by
    rw [hb, writerBits, List.append_assoc, hbits]
  obtain ⟨h1, h2, h3⟩ := writer_determined (s := s) hp hb' (by simp)
  have h4 := wbuf_determined hcl h2
  rw [bitsValue_lowBits _ _ (by omega)] at h4
  have h5 : u.wcnt = s.wcnt := Fin.ext (by rw [h3]; simp)
  refine ⟨u, hu, ?_, h1⟩
  unfold WriterOnly at ho
  rw [h4, h5] at ho
  exact ho

/-- The three put commands are one (R143 to R145). -/
theorem exec_put {i : Instr} (hi : isPut i = true) (s : State) : exec i s = finishMicro (putBits (putBitsOf i) s) fun _ _ => resultNone := by
  cases i <;> simp [isPut] at hi
  · rename_i b
    show finishMicro (putBit b s) _ = _
    simp only [putBitsOf, putBits]
    cases putBit b s <;> rfl
  · rfl
  · rfl

/-! ### Counting -/

/-- The ascending comparator, key by key (R31). -/
theorem before_false_iff (a b : Element) : before false a b = true ↔
      a.freq.toNat < b.freq.toNat ∨ a.freq = b.freq ∧ a.tie.toNat < b.tie.toNat := by
  simp only [before, Bool.false_eq_true, if_false, decide_eq_true_eq, elementKey_toNat]
  have h1 := a.tie.isLt
  have h2 := b.tie.isLt
  have h3 : a.freq = b.freq ↔ a.freq.toNat = b.freq.toNat := ⟨fun h => by rw [h], BitVec.eq_of_toNat_eq⟩
  rw [h3]; omega

/-- Counting a list by symbol counts every entry once (R191). -/
theorem sum_count (l : List Byte) : (allSymbols.map fun b => l.count b).sum = l.length := by
  induction l with
  | nil => simp
  | cons a l ih =>
    have : (allSymbols.map fun b => (a :: l).count b) = allSymbols.map fun b => l.count b + if a = b then 1 else 0 := by
      refine List.map_congr_left fun b _ => ?_
      rw [List.count_cons]; simp
    rw [this, List.sum_map_add, ih, List.length_cons]
    have key : ∀ m : List Byte, (m.map fun b => if a = b then 1 else 0).sum = m.count a := by
      intro m
      induction m with
      | nil => rfl
      | cons c m ih =>
        rw [List.map_cons, List.sum_cons, ih, List.count_cons]
        by_cases h : a = c
        · subst h; simp; omega
        · have : ¬ c = a := fun e => h e.symm
          simp [h, this]
    rw [key, List.count_eq_one_of_mem allSymbols_nodup (mem_allSymbols a)]

theorem sum_filter (l : List Byte) (m : List Byte) (hm : m.Nodup) : (m.map fun b => l.count b).sum = (l.filter fun b => b ∈ m).length := by
  induction m with
  | nil => simp
  | cons a m ih =>
    rw [List.nodup_cons] at hm
    rw [List.map_cons, List.sum_cons, ih hm.2]
    clear ih
    induction l with
    | nil => simp
    | cons x l ih =>
      rw [List.count_cons, List.filter_cons, List.filter_cons]
      by_cases h1 : x = a
      · subst h1; simp [hm.1] at *; omega
      · by_cases h2 : x ∈ m <;> simp [h1, h2] at * <;> omega

/-- No frequency sum of a counted input wraps (R196). -/
theorem weight_toNat (f : Vector Word 256) (l : List Byte) (hf : ∀ b, (f.get (symIndex b)).toNat = l.count b) (hl : l.length < 2 ^ 32) (m : List Byte) (hm : m.Nodup) :
   (weight f m).toNat = (l.filter fun b => b ∈ m).length := by
  induction m with
  | nil => simp [weight]
  | cons a m ih =>
    have e := sum_filter l (a :: m) hm
    rw [List.nodup_cons] at hm
    have e2 := sum_filter l m hm.2
    have ih := ih hm.2
    rw [List.map_cons, List.sum_cons, e2] at e
    have hle : (l.filter fun b => b ∈ a :: m).length ≤ l.length := List.length_filter_le _ _
    have : weight f (a :: m) = f.get (symIndex a) + weight f m := rfl
    rw [this, BitVec.toNat_add, hf, ih, e, Nat.mod_eq_of_lt (by omega)]

theorem subtrees_symbols (t : Tree) : ∀ v ∈ t.subtrees, v.symbols.Sublist t.symbols := by
  induction t with
  | leaf i b => intro v hv; simp [Tree.subtrees] at hv; subst hv; exact List.Sublist.refl _
  | inner i l r hl hr =>
    intro v hv
    simp only [Tree.subtrees, List.mem_cons, List.mem_append] at hv
    rcases hv with rfl | hv | hv
    · exact List.Sublist.refl _
    · exact (hl v hv).trans (List.sublist_append_left _ _)
    · exact (hr v hv).trans (List.sublist_append_right _ _)

/-! ### How commands end -/

theorem closeWriter_raises (s : State) : (closeWriter s).Raises fun e => e = .closed ∧ s.wclosed = true := by
  cases hw : s.wclosed with
  | false => obtain ⟨t, ht, -⟩ := closeWriter_ok hw; rw [ht]; trivial
  | true => rw [closeWriter_closed hw]; exact ⟨rfl, rfl⟩

theorem writeTree_raises (s : State) : (writeTree s).Raises fun e => e = .closed ∧ s.wclosed = true := by
  rw [writeTree]; split
  · exact putBits_raises (true :: msbBits 0) s
  · exact serialize_raises _ _ _

theorem readCount_raises (s : State) : (readCount s).Raises (· = .endOfStream) :=
  Res.Raises.bind (r := getInt s) (getBits_raises 32 0 s) (k := fun w s' => .ok () (s'.setCount w)) fun _ _ => trivial

theorem readTree_raises (s : State) : (readTree s).Raises fun e => e = .endOfStream ∨ e = .capacity :=
  Res.Raises.bind (readNode_raises _ _) (k := fun r s' => .ok () (s'.setTree r false)) fun _ _ => trivial

/-- How a micro command that answers next ended: one response, its error that of the procedure (R132, R276). -/
theorem micro_errs {α : Type} {r : Res α} {f : α → State → Result} {s t : State} {Q : Err → Prop} (hr : r.Raises Q) (hr2 : r.All fun u => u.resps = s.resps)
    (h : finishMicro r f = .next t) : ∃ x : Response, t.resps = s.resps ++ [x] ∧ t.lastErr = x.err ∧ t.lastPhase = 0 ∧ (x.err = 0 ∧ (∃ a u, r = .ok a u) ∨ ∃ e u, r = .raised e u ∧ Q e ∧ x.err = errCode e) := by
  rcases finishMicro_next h with ⟨a, u, hu, rfl⟩ | ⟨e, u, hu, rfl⟩ <;> rw [hu] at hr hr2
  · exact ⟨_, by simp only [completeCommand, State.endCommand]; rw [hr2], rfl, rfl, .inl ⟨rfl, a, u, hu⟩⟩
  · exact ⟨_, by simp only [takeError, State.endCommand]; rw [hr2], rfl, rfl, .inr ⟨e, u, hu, hr, rfl⟩⟩

theorem closeAtEnd_resps (s : State) : (closeAtEnd s).resps = s.resps :=
  closeAtEnd_kept (P := fun u => u.resps = s.resps) (fun v hv => (closeWriter_frame v).mono fun u hu => by rw [hu]; exact hv) rfl

theorem getBits_cases {w : Nat} (n : Nat) (v : BitVec w) (s : State) : (∃ a u, getBits n v s = .ok a u) ∨ ∃ e u, getBits n v s = .raised e u := by
  by_cases h : bitsLeft s < n
  · obtain ⟨u, hu, -⟩ := getBits_eos n (v := v) h; exact .inr ⟨_, u, hu⟩
  · left
    have hl : n ≤ (readerBits s).length := by rw [readerBits_length]; omega
    obtain ⟨u, hu, -⟩ := getBits_ok (w := w) ((readerBits s).take n) (v := v.toNat) (s := s) (rest := (readerBits s).drop n) (by simp)
    rw [List.length_take, Nat.min_eq_left hl] at hu
    simp at hu
    exact ⟨_, u, hu⟩

theorem putBits_cases (bits : List Bool) (s : State) : (∃ a u, putBits bits s = .ok a u) ∨ ∃ e u, putBits bits s = .raised e u := by
  cases hw : s.wclosed with
  | false => obtain ⟨u, hu, -⟩ := putBits_ok bits hw; exact .inl ⟨_, u, hu⟩
  | true =>
    cases bits with
    | nil => exact .inl ⟨_, s, rfl⟩
    | cons b bs => exact .inr ⟨_, s, putBits_closed (by simp) hw⟩

end Sys2Proof.Machine
end

