-- ==== Sys2Proof/Laws/Abandon.lean ====
section
/-! SUPPORT. A reset during a command (70_reset_and_hazards.md R300): how far the abandoned command can have got in the
streams, and that abandoning a command answers a next state wherever the command does. -/

namespace Sys2Proof.Machine

/-! ### Where a procedure ends -/

/-- The procedure ends, with or without an error, in this state. -/
def Res.EndsAt {α : Type} (r : Res α) (u : State) : Prop := (∃ a, r = .ok a u) ∨ ∃ e, r = .raised e u

@[simp] theorem Res.endsAt_ok {α : Type} {a : α} {u v : State} : (Res.ok a u).EndsAt v ↔ u = v := by
  simp [Res.EndsAt]

@[simp] theorem Res.endsAt_raised {α : Type} {e : Err} {u v : State} : (Res.raised e u : Res α).EndsAt v ↔ u = v := by
  simp [Res.EndsAt]

@[simp] theorem Res.endsAt_stuck {α : Type} {f : Fault} {v : State} : ¬ (Res.stuck f : Res α).EndsAt v := by
  simp [Res.EndsAt]

theorem Res.All.endsAt {α : Type} {P : State → Prop} {r : Res α} {u : State} (h : r.All P) (k : r.EndsAt u) : P u := by
  rcases k with ⟨a, rfl⟩ | ⟨e, rfl⟩ <;> exact h

/-! ### How far a command has got in the streams -/

/-- Between `s` and `u` the streams have only moved forward. -/
structure Forward (s u : State) : Prop where
  src : u.src <:+ s.src
  snk : s.snk <+: u.snk

theorem Forward.refl (s : State) : Forward s s := ⟨List.suffix_refl _, List.prefix_refl _⟩

theorem Forward.trans {s t u : State} (h : Forward s t) (k : Forward t u) : Forward s u :=
  ⟨k.src.trans h.src, h.snk.trans k.snk⟩

/-- `c` is how far in the streams a command from `s` to `t` has got: bytes taken, bytes written, and how many accesses of n
allowed these are. -/
structure CutAt (n : Nat) (s t c : State) (taken written : Nat) : Prop where
  src       : c.src = s.src.drop taken
  snk       : c.snk = t.snk.take (s.snk.length + written)
  takenLe   : taken ≤ s.src.length - t.src.length
  writtenLe : written ≤ t.snk.length - s.snk.length
  sum       : taken + written = min n (streamAccesses s t)

/-- A piece that takes all its bytes before it writes one, cut after n accesses. -/
theorem cutStreams_spec (n : Nat) {s t : State} (h : Forward s t) : ∃ taken written,
    CutAt n s t (cutStreams n s t) taken written ∧ (0 < written → taken = s.src.length - t.src.length) := by
  have := h.snk.length_le
  refine ⟨min n (s.src.length - t.src.length), min (n - (s.src.length - t.src.length)) (t.snk.length - s.snk.length),
    ⟨rfl, ?_, Nat.min_le_right _ _, Nat.min_le_right _ _, by simp only [streamAccesses]; omega⟩, by omega⟩
  simp only [cutStreams]
  by_cases h : n - (s.src.length - t.src.length) ≤ t.snk.length - s.snk.length
  · rw [Nat.min_eq_left h]
  · rw [Nat.min_eq_right (by omega), List.take_of_length_le (by omega), List.take_of_length_le (by omega)]

/-- A cut in the first piece of a command is a cut of the command. -/
theorem CutAt.extend {n : Nat} {s u t c : State} {a b : Nat} (h : CutAt n s u c a b) (hsu : Forward s u) (hut : Forward u t)
    (hn : n ≤ streamAccesses s u) : CutAt n s t c a b := by
  have h1 := hut.src.length_le
  have h2 := hut.snk.length_le
  have h3 := hsu.snk.length_le
  have h4 := h.writtenLe
  have h5 := h.takenLe
  refine ⟨h.src, ?_, by omega, by omega, ?_⟩
  · obtain ⟨x, hx⟩ := hut.snk
    rw [h.snk, ← hx, List.take_append_of_le_length (by omega)]
  · rw [h.sum]; simp only [streamAccesses] at hn ⊢; omega

/-- A cut after the first piece of a command. -/
theorem CutAt.after {n : Nat} {s u t c : State} {a b : Nat} (h : CutAt (n - streamAccesses s u) u t c a b)
    (hsu : Forward s u) (hut : Forward u t) (hn : streamAccesses s u < n) :
    CutAt n s t c ((s.src.length - u.src.length) + a) ((u.snk.length - s.snk.length) + b) := by
  have h1 := hut.src.length_le
  have h2 := hut.snk.length_le
  have h3 := hsu.snk.length_le
  have h6 := hsu.src.length_le
  have h4 := h.writtenLe
  have h5 := h.takenLe
  have hs := h.sum
  simp only [streamAccesses] at hs hn
  refine ⟨?_, ?_, by omega, by omega, by simp only [streamAccesses]; omega⟩
  · rw [h.src]
    obtain ⟨p, hp⟩ := hsu.src
    have : s.src.length - u.src.length = p.length := by rw [← hp]; simp
    rw [this, ← hp, List.drop_append]; simp
  · rw [h.snk]; congr 1; omega

/-- The two ways to cut a piece of a command. -/
theorem cutPiece_next {α : Type} {n : Nat} {s c : State} {r : Res α} {k : Nat → State → Host.Outcome State Fault Refusal}
    (h : cutPiece n s r k = .next c) :
    (∃ u, r.EndsAt u ∧ c = cutStreams n s u ∧ ∀ a, r = .ok a u → n ≤ streamAccesses s u)
      ∨ ∃ a u, r = .ok a u ∧ streamAccesses s u < n ∧ k (n - streamAccesses s u) u = .next c := by
  cases r with
  | stuck f => cases h
  | raised e u => injection h with h; exact .inl ⟨u, by simp, h.symm, fun a k => by cases k⟩
  | ok a u =>
    simp only [cutPiece] at h
    split at h
    · next hn => injection h with h; exact .inl ⟨u, by simp, h.symm, fun _ _ => hn⟩
    · next hn => exact .inr ⟨a, u, rfl, by omega, h⟩

/-! ### DECODE -/

theorem emitSymbol_forward (s : State) : (emitSymbol s).All (Forward s) := by
  have h1 : (emitSymbol s).All fun u => u.src <:+ s.src :=
    emitSymbol_all (readerStable_src _) (putStable_src _) (List.suffix_refl _)
  have h2 : (emitSymbol s).All fun u => s.snk <+: u.snk :=
    emitSymbol_all (readerStable_snk _) (putStable_snk _) (List.prefix_refl _)
  cases h : emitSymbol s with
  | ok a u => rw [h] at h1 h2; exact ⟨h1, h2⟩
  | raised e u => rw [h] at h1 h2; exact ⟨h1, h2⟩
  | stuck f => trivial

theorem decodeLoop_forward (k : Nat) (s : State) : (decodeLoop k s).All (Forward s) := by
  have h1 : (decodeLoop k s).All fun u => u.src <:+ s.src :=
    decodeLoop_all (readerStable_src _) (putStable_src _) k (List.suffix_refl _)
  have h2 : (decodeLoop k s).All fun u => s.snk <+: u.snk :=
    decodeLoop_all (readerStable_snk _) (putStable_snk _) k (List.prefix_refl _)
  cases h : decodeLoop k s with
  | ok a u => rw [h] at h1 h2; exact ⟨h1, h2⟩
  | raised e u => rw [h] at h1 h2; exact ⟨h1, h2⟩
  | stuck f => trivial

/-- A symbol that is emitted is one byte of SNK; one that is not is none; `wcnt` stays (R248, R144). -/
theorem emitSymbol_cases (s : State) :
    (∃ u, emitSymbol s = .ok () u ∧ u.snk.length = s.snk.length + 1 ∧ u.wcnt = s.wcnt)
      ∨ (∃ e u, emitSymbol s = .raised e u ∧ u.snk = s.snk ∧ u.wcnt = s.wcnt) ∨ ∃ f, emitSymbol s = .stuck f := by
  have hr := nextSymbol_all (readerStable_readerOnly s) (ReaderOnly.refl s)
  cases h1 : nextSymbol s with
  | raised e v =>
    rw [h1] at hr
    exact .inr (.inl ⟨e, v, by rw [emitSymbol, h1]; rfl, by rw [hr]; rfl, by rw [hr]; rfl⟩)
  | stuck f => exact .inr (.inr ⟨f, by rw [emitSymbol, h1]; rfl⟩)
  | ok b v =>
    have he : emitSymbol s = putBits (msbBits b) v := by rw [emitSymbol, h1]; rfl
    rw [h1] at hr
    have hv : v.snk = s.snk := by rw [hr]; rfl
    have hv' : v.wcnt = s.wcnt := by rw [hr]; rfl
    cases hc : v.wclosed with
    | true => exact .inr (.inl ⟨_, v, by rw [he]; exact putBits_closed (by simp [msbBits]) hc, hv, hv'⟩)
    | false =>
      obtain ⟨x, hx, hb, -, -⟩ := putBits_ok (msbBits b) (s := v) hc
      have h1 := writerBits_length x
      have h2 := writerBits_length v
      rw [hb, List.length_append] at h1
      have h3 : (msbBits b).length = 8 := by simp [msbBits]
      have := x.wcnt.isLt
      have := v.wcnt.isLt
      rw [hv] at h2
      exact .inl ⟨x, by rw [he]; exact hx, by omega, by rw [← hv']; exact Fin.ext (by omega)⟩

theorem decodeLoop_wcnt (k : Nat) : ∀ s : State, (decodeLoop k s).All fun u => u.wcnt = s.wcnt := by
  induction k with
  | zero => intro s; rfl
  | succ k ih =>
    intro s
    rw [decodeLoop]
    rcases emitSymbol_cases s with ⟨u, h, -, hw⟩ | ⟨e, u, h, -, hw⟩ | ⟨f, h⟩ <;> rw [h]
    · exact (ih u).mono fun v hv => hv.trans hw
    · exact hw
    · trivial

/-- DECODE's loop, cut after n accesses (R300): the symbols written, and the bytes taken: all that those symbols need, and
none that the next symbol does not. -/
theorem cutDecodeLoop_spec (k : Nat) : ∀ (n : Nat) {s e c : State}, cutDecodeLoop k n s = .next c →
    (decodeLoop k s).EndsAt e → ∃ taken written, CutAt n s e c taken written
    ∧ (∀ v, (decodeLoop written s).EndsAt v → s.src.length - v.src.length ≤ taken)
    ∧ (written < k → ∀ v, (decodeLoop (written + 1) s).EndsAt v → taken ≤ s.src.length - v.src.length) := by
  induction k with
  | zero =>
    intro n s e c hc he
    injection hc with hc
    obtain rfl : s = e := by simpa [decodeLoop] using he
    subst hc
    exact ⟨0, 0, ⟨by simp, by simp, by simp, by simp, by simp [streamAccesses]⟩,
      fun v hv => by simp [decodeLoop] at hv; simp [hv], by simp⟩
  | succ k ih =>
    intro n s e c hc he
    have hf := emitSymbol_forward s
    rw [cutDecodeLoop] at hc
    rw [decodeLoop] at he
    rcases emitSymbol_cases s with ⟨u, h1, hw, -⟩ | ⟨x, u, h1, hw, -⟩ | ⟨f, h1⟩
    · rw [h1] at hc he hf
      have hue : (decodeLoop k u).EndsAt e := he
      have hfe := (decodeLoop_forward k u).endsAt hue
      have hstep : ∀ j, decodeLoop (j + 1) s = decodeLoop j u := fun j => by rw [decodeLoop, h1]; rfl
      have hzero : ∀ {y v : State}, (decodeLoop 0 y).EndsAt v → y = v := fun h => by simpa [decodeLoop] using h
      have hlate : ∀ {j v}, (decodeLoop (j + 1) s).EndsAt v → v.src.length ≤ u.src.length := fun h => by
        rw [hstep] at h; exact ((decodeLoop_forward _ u).endsAt h).src.length_le
      have hsl := hf.src.length_le
      rcases cutPiece_next hc with ⟨u', hu', rfl, hn⟩ | ⟨a, u', hu', hn, hrest⟩
      · obtain rfl : u = u' := by simpa using hu'
        obtain ⟨taken, written, hcut, hord⟩ := cutStreams_spec n hf
        have hwl := hcut.writtenLe
        have htl := hcut.takenLe
        refine ⟨taken, written, hcut.extend hf hfe (hn () rfl), fun v hv => ?_, fun hk v hv => ?_⟩
        · rcases Nat.eq_zero_or_pos written with h0 | h0
          · subst h0; rw [← hzero hv]; omega
          · have : written = 0 + 1 := by omega
            rw [this, hstep] at hv
            rw [← hzero hv, hord h0]
        · have := hlate hv
          omega
      · injection hu' with _ hu'
        subst hu'
        obtain ⟨taken, written, hcut, hlo, hhi⟩ := ih _ hrest hue
        have e1 : (u.snk.length - s.snk.length) + written = written + 1 := by omega
        refine ⟨_, written + 1, e1 ▸ hcut.after hf hfe hn, fun v hv => ?_, fun hk v hv => ?_⟩
        · have := hlate hv
          rw [hstep] at hv
          have := hlo v hv
          omega
        · have := hlate hv
          rw [hstep] at hv
          have := hhi (by omega) v hv
          omega
    · rw [h1] at hc he hf
      obtain rfl : u = e := by simpa [Res.bind] using he
      injection hc with hc
      subst hc
      obtain ⟨taken, written, hcut, -⟩ := cutStreams_spec n hf
      obtain rfl : written = 0 := by have := hcut.writtenLe; rw [hw] at this; omega
      refine ⟨taken, 0, hcut, fun v hv => by simp [decodeLoop] at hv; simp [hv], fun _ v hv => ?_⟩
      rw [decodeLoop, h1] at hv
      obtain rfl : u = v := by simpa [Res.bind] using hv
      exact hcut.takenLe
    · rw [h1] at hc; cases hc

/-- The cut of DECODE's loop, seen in the bits of the symbols that come next (R248, R140). -/
theorem inTurn_of_loop {t : Tree} {l : List (Byte × List Bool)} {rest : List Bool} {s : State} {k taken written : Nat}
    (hlo : ∀ v, (decodeLoop written s).EndsAt v → s.src.length - v.src.length ≤ taken)
    (hhi : written < k → ∀ v, (decodeLoop (written + 1) s).EndsAt v → taken ≤ s.src.length - v.src.length)
    (hT : HoldsTree s t) (hw : s.wclosed = false) (hl : ∀ p ∈ l, t.reads p.1 p.2)
    (hb : readerBits s = l.flatMap Prod.snd ++ rest) (hk : l.length ≤ k) : DecodesInTurn l s.rcnt.val 0 taken written := by
  have key : ∀ m, m ≤ l.length → ∃ v, (decodeLoop m s).EndsAt v ∧ (0 < m → v.rcnt.val < 8)
      ∧ v.src.length ≤ s.src.length
      ∧ ((l.take m).flatMap Prod.snd).length + v.rcnt.val + 8 * v.src.length = s.rcnt.val + 8 * s.src.length := by
    intro m hm
    have hb' : readerBits s = (l.take m).flatMap Prod.snd ++ ((l.drop m).flatMap Prod.snd ++ rest) := by
      rw [← List.append_assoc, ← List.flatMap_append, List.take_append_drop]; exact hb
    obtain ⟨v, hv, hrv, -, -, hcv, hsv, -⟩ := decodeLoop_ok (l.take m) hT hw (fun p hp => hl p (List.mem_of_mem_take hp)) hb'
    rw [List.length_take, Nat.min_eq_left hm] at hv
    refine ⟨v, by rw [hv]; simp, fun h0 => hcv (.inr fun h => ?_), hsv.length_le, ?_⟩
    · rcases List.take_eq_nil_iff.1 h with h | h
      · omega
      · subst h; simp at hm; omega
    · have h1 := congrArg List.length hb'
      rw [List.length_append, ← hrv, readerBits_length, readerBits_length, bitsLeft, bitsLeft] at h1
      omega
  refine ⟨fun h0 hle => ?_, fun h0 hlt => ?_⟩
  · obtain ⟨v, hv, -, h1, h2⟩ := key written hle
    have := hlo v hv
    omega
  · obtain ⟨v, hv, h3, h1, h2⟩ := key (written + 1) hlt
    have := hhi (by omega) v hv
    have := h3 (by omega)
    omega

/-- DECODE's loop can be cut anywhere if it ends. -/
theorem cutDecodeLoop_answers (k : Nat) : ∀ (n : Nat) {s e : State}, (decodeLoop k s).EndsAt e →
    ∃ c, cutDecodeLoop k n s = .next c := by
  induction k with
  | zero => intro n s e _; exact ⟨s, rfl⟩
  | succ k ih =>
    intro n s e he
    rw [decodeLoop] at he
    rw [cutDecodeLoop]
    rcases emitSymbol_cases s with ⟨u, h, -, -⟩ | ⟨x, u, h, -, -⟩ | ⟨f, h⟩ <;> rw [h] at he ⊢
    · simp only [cutPiece]
      split
      · exact ⟨_, rfl⟩
      · exact ih _ he
    · exact ⟨_, rfl⟩
    · exact absurd he (by simp [Res.bind])

/-! ### DECOMPRESS -/

/-- DECOMPRESS up to its final `Close()` (R255). -/
def decompressBody (s : State) : Res Unit :=
  (readTree (initUnits false s)).bind fun _ s1 => (readCount s1).bind fun _ s2 => decodeSymbols s2

theorem decodeSymbols_forward (s : State) : (decodeSymbols s).All (Forward s) := by
  rw [decodeSymbols]; split
  · exact Forward.refl s
  · exact decodeLoop_forward _ s

/-- A procedure that only reads leaves SNK and the writer, and takes bytes from the front of SRC. -/
def Reads (s u : State) : Prop := u.src <:+ s.src ∧ u.snk = s.snk ∧ u.wcnt = s.wcnt

theorem Reads.forward {s u : State} (h : Reads s u) : Forward s u := ⟨h.1, h.2.1 ▸ List.prefix_refl _⟩

theorem readTree_reads (s : State) : (readTree (initUnits false s)).All fun u => u.src <:+ s.src ∧ u.snk = s.snk ∧ u.wcnt = 0 :=
  readTree_all (P := fun u => u.src <:+ s.src ∧ u.snk = s.snk ∧ u.wcnt = 0) (fun _ _ _ _ h hl => ⟨hl.trans h.1, h.2⟩)
    (fun _ _ h => h) (fun _ _ _ h => h) ⟨List.suffix_refl _, rfl, rfl⟩

theorem readCount_reads (s : State) : (readCount s).All (Reads s) :=
  readCount_all (P := Reads s) (fun _ _ _ _ h hl => ⟨hl.trans h.1, h.2⟩) (fun _ _ h => h) ⟨List.suffix_refl _, rfl, rfl⟩

/-- DECOMPRESS ends in the streams as its body does: the final `Close()` finds nothing to write (R255). -/
theorem decompress_ends {s t : State} (h : exec .decompress s = .next t) :
    ∃ e, (decompressBody s).EndsAt e ∧ t.src = e.src ∧ t.snk = e.snk := by
  have hwcnt : (decompressBody s).All fun u => u.wcnt = 0 := by
    refine Res.All.bind ((readTree_reads s).mono fun _ h => h.2.2) fun _ s1 h1 => ?_
    refine Res.All.bind ((readCount_reads s1).mono fun _ h => h.2.2.trans h1) fun _ s2 h2 => ?_
    rw [decodeSymbols]; split
    · exact h2
    · exact (decodeLoop_wcnt _ s2).mono fun _ h => h.trans h2
  have hclose : ∀ e : State, e.wcnt = 0 → (closeAtEnd e).src = e.src ∧ (closeAtEnd e).snk = e.snk := fun e he => by
    cases hc : e.wclosed <;> simp [closeAtEnd, closeWriter, hc, he]
  have hbody : ∀ e, (decompressBody s).EndsAt e → t.src = (closeAtEnd e).src → t.snk = (closeAtEnd e).snk →
      ∃ e, (decompressBody s).EndsAt e ∧ t.src = e.src ∧ t.snk = e.snk := fun e he h1 h2 => by
    have := hclose e (hwcnt.endsAt he)
    exact ⟨e, he, h1.trans this.1, h2.trans this.2⟩
  have hphases : ∀ p e u, runPhases decompressPhases (initUnits false s) = .done u
      ∨ runPhases decompressPhases (initUnits false s) = .failed e p u → (decompressBody s).EndsAt u := by
    intro p e u hu
    simp only [decompressPhases, runPhases] at hu
    rw [decompressBody]
    cases h1 : readTree (initUnits false s) with
    | stuck f => simp [h1] at hu
    | raised x v => simp [h1] at hu; simp [Res.bind, hu]
    | ok a v =>
      simp only [h1] at hu
      simp only [Res.bind]
      cases h2 : readCount v with
      | stuck f => simp [h2] at hu
      | raised x w => simp [h2] at hu; simp [hu]
      | ok b w =>
        simp only [h2] at hu
        cases h3 : decodeSymbols w with
        | stuck f => simp [h3] at hu
        | raised x y => simp [h3] at hu; simp [h3, hu]
        | ok c y => simp [h3] at hu; simp [h3, hu]
  rcases runMacro_next h with ⟨u, hu, rfl⟩ | ⟨e, p, u, hu, rfl⟩
  · exact hbody u (hphases 0 .closed u (.inl hu)) rfl rfl
  · exact hbody u (hphases p e u (.inr hu)) rfl rfl

/-- DECODE, cut (R248, R300). -/
theorem cutDecode_spec {n : Nat} {s e c : State} (hc : cutDecode n s = .next c) (he : (decodeSymbols s).EndsAt e) :
    ∃ taken written, CutAt n s e c taken written ∧ ∀ (t : Tree) (l : List (Byte × List Bool)) (rest : List Bool),
      HoldsTree s t → s.wclosed = false → (∀ p ∈ l, t.reads p.1 p.2) → readerBits s = l.flatMap Prod.snd ++ rest →
      l.length ≤ s.count.toNat → DecodesInTurn l s.rcnt.val 0 taken written := by
  rw [cutDecode] at hc
  rw [decodeSymbols] at he
  split at hc
  · next h =>
    rw [if_pos h] at he
    injection hc with hc
    obtain rfl : s = e := by simpa using he
    subst hc
    refine ⟨0, 0, ⟨by simp, by simp, by simp, by simp, by simp [streamAccesses]⟩, fun t l rest hT => ?_⟩
    rw [hT.present] at h
    cases h.2
  · next h =>
    rw [if_neg h] at he
    obtain ⟨a, b, hcut, hlo, hhi⟩ := cutDecodeLoop_spec _ n hc he
    exact ⟨a, b, hcut, fun t l rest hT hw hl hb hk => inTurn_of_loop hlo hhi hT hw hl hb hk⟩

/-- DECODE can be cut anywhere if it ends. -/
theorem cutDecode_answers (n : Nat) {s e : State} (he : (decodeSymbols s).EndsAt e) : ∃ c, cutDecode n s = .next c := by
  rw [decodeSymbols] at he
  rw [cutDecode]
  split at he
  · next h => rw [if_pos h]; exact ⟨_, rfl⟩
  · next h => rw [if_neg h]; exact cutDecodeLoop_answers _ n he

/-- DECOMPRESS, cut (R255, R300): no symbol is written before the tree and the count have been taken. -/
theorem cutDecompress_spec {n : Nat} {s e c : State} (hc : cutDecompress n s = .next c) (he : (decompressBody s).EndsAt e) :
    ∃ taken written, CutAt n s e c taken written ∧ ∀ (t : Tree) (w : Word) (l : List (Byte × List Bool)) (more : List Bool),
      s.src.flatMap msbBits = t.bits ++ (msbBits w ++ (l.flatMap Prod.snd ++ more)) → t.size ≤ Config.nodeCap →
      (∀ p ∈ l, t.reads p.1 p.2) → l.length ≤ w.toNat → DecodesInTurn l 0 (t.bits.length + 32) taken written := by
  have f1 := readTree_reads s
  rw [decompressBody] at he
  rw [cutDecompress] at hc
  rcases cutPiece_next hc with ⟨u, hu, rfl, hn⟩ | ⟨a, u, hu, hn, hrest⟩
  · -- the reset comes before RTREE ends
    obtain ⟨g1, g2, -⟩ := f1.endsAt hu
    have hsu : Forward s u := ⟨g1, g2 ▸ List.prefix_refl _⟩
    obtain ⟨taken, written, hcut, -⟩ := cutStreams_spec n hsu
    obtain rfl : written = 0 := by have := hcut.writtenLe; rw [g2] at this; omega
    refine ⟨taken, 0, ?_, fun t w l more hb hsz _ _ => ⟨by omega, fun h0 _ => ?_⟩⟩
    · rcases hu with ⟨a, hu⟩ | ⟨x, hu⟩
      · rw [hu] at he
        refine hcut.extend hsu ?_ (hn a hu)
        exact (Res.All.bind ((readCount_reads u).mono fun _ h => h.forward) fun _ v hv =>
          (decodeSymbols_forward v).mono fun _ h => hv.trans h).endsAt he
      · rw [hu] at he
        obtain rfl : u = e := by simpa [Res.bind] using he
        exact hcut
    · obtain ⟨v, hv, hr, -, -, hcv, hsv⟩ := readTree_ok (s := initUnits false s) t (by rw [initUnits_readerBits]; exact hb) hsz
      rw [hv] at hu
      obtain rfl : v = u := by simpa using hu
      have h1 := congrArg List.length hb
      have h2 := congrArg List.length hr
      rw [readerBits_length, bitsLeft] at h2
      rw [List.length_append, ← h2] at h1
      simp [List.length_flatMap] at h1
      have := hcut.takenLe
      have := hsu.src.length_le
      omega
  · obtain ⟨g1, g2, -⟩ := f1.endsAt (u := u) (by rw [hu]; simp)
    have hsu : Forward s u := ⟨g1, g2 ▸ List.prefix_refl _⟩
    rw [hu] at he
    have he : ((readCount u).bind fun _ s2 => decodeSymbols s2).EndsAt e := he
    have f2 := readCount_reads u
    have hue : Forward u e := (Res.All.bind (f2.mono fun _ h => h.forward) fun _ v hv =>
      (decodeSymbols_forward v).mono fun _ h => hv.trans h).endsAt he
    have facts : ∀ (t : Tree) (rest : List Bool), s.src.flatMap msbBits = t.bits ++ rest → t.size ≤ Config.nodeCap →
        readerBits u = rest ∧ u.rcnt.val < 8 ∧ u.wclosed = false ∧ HoldsTree u (t.renumber 0)
        ∧ t.bits.length + u.rcnt.val + 8 * u.src.length = 8 * s.src.length := by
      intro t rest hb hsz
      obtain ⟨v, hv, hr, hT, ho, hcv, hsv⟩ := readTree_ok (s := initUnits false s) t (by rw [initUnits_readerBits]; exact hb) hsz
      rw [hv] at hu
      injection hu with _ hu
      subst hu
      have h1 := congrArg List.length hb
      rw [List.length_append, ← hr, readerBits_length, bitsLeft] at h1
      simp [List.length_flatMap] at h1
      exact ⟨hr, hcv, by rw [ho]; rfl, hT, by omega⟩
    have hsl := hsu.src.length_le
    rcases cutPiece_next hrest with ⟨v, hv, rfl, hn2⟩ | ⟨b, v, hv, hn2, hrest2⟩
    · -- the reset comes during RCOUNT
      have huv := (f2.endsAt hv)
      obtain ⟨taken, written, hcut, -⟩ := cutStreams_spec (n - streamAccesses s u) huv.forward
      obtain rfl : written = 0 := by have := hcut.writtenLe; rw [huv.2.1] at this; omega
      have hcut2 : CutAt (n - streamAccesses s u) u e (cutStreams (n - streamAccesses s u) u v) taken 0 := by
        rcases hv with ⟨a, hv⟩ | ⟨x, hv⟩
        · rw [hv] at he
          exact hcut.extend huv.forward ((decodeSymbols_forward v).endsAt he) (hn2 a hv)
        · rw [hv] at he
          obtain rfl : v = e := by simpa [Res.bind] using he
          exact hcut
      have e1 : (u.snk.length - s.snk.length) + 0 = 0 := by rw [g2]; omega
      refine ⟨_, 0, e1 ▸ hcut2.after hsu hue hn, fun t w l more hb hsz _ _ => ⟨by omega, fun h0 _ => ?_⟩⟩
      obtain ⟨hr, hcu, -, -, hlen⟩ := facts t _ hb hsz
      obtain ⟨x, hx, hrx, ox, hcx, -⟩ := readCount_ok w hr
      rw [hx] at hv
      obtain rfl : x.setCount w = v := by simpa using hv
      have h1 := congrArg List.length hr
      rw [List.length_append, ← hrx, readerBits_length, readerBits_length, bitsLeft, bitsLeft] at h1
      simp at h1
      have := hcut.takenLe
      have := huv.1.length_le
      simp only [State.setCount_src] at *
      omega
    · -- the reset comes during DECODE, or after it
      have huv := f2.endsAt (u := v) (by rw [hv]; simp)
      rw [hv] at he
      have he : (decodeSymbols v).EndsAt e := he
      have hve := (decodeSymbols_forward v).endsAt he
      have hn3 := hn2
      have wrap : ∀ {tk wr : Nat}, CutAt (n - streamAccesses s u - streamAccesses u v) v e c tk wr →
          CutAt n s e c ((s.src.length - u.src.length) + ((u.src.length - v.src.length) + tk)) wr := fun {tk wr} h => by
        have h2 := (h.after huv.forward hve hn3).after hsu hue hn
        have e1 : (u.snk.length - s.snk.length) + ((v.snk.length - u.snk.length) + wr) = wr := by
          have := congrArg List.length g2
          have := congrArg List.length huv.2.1
          omega
        exact e1 ▸ h2
      obtain ⟨tk, wr, hcut, hord⟩ := cutDecode_spec hrest2 he
      refine ⟨_, wr, wrap hcut, fun t w l more hb hsz hl hk => ?_⟩
      obtain ⟨hr, hcu, hwu, hT, hlen⟩ := facts t _ hb hsz
      obtain ⟨x, hx, hrx, ox, hcx, hsx⟩ := readCount_ok w hr
      rw [hx] at hv
      injection hv with _ hv
      have hTx := hT.streamsOnly ox.streamsOnly
      have hTv : HoldsTree v (t.renumber 0) := by rw [← hv]; exact ⟨hTx.present, hTx.top, hTx.records, hTx.owned⟩
      obtain ⟨o1, o2⟩ := hord (t.renumber 0) l more hTv (by rw [← hv, State.setCount_wclosed, ox]; exact hwu)
        (fun p hp => (Tree.reads_sameShape (Tree.renumber_sameShape t 0)).2 (hl p hp)) (by rw [← hv]; exact hrx)
        (by rw [← hv]; exact hk)
      have h1 := congrArg List.length hr
      rw [List.length_append, ← hrx, readerBits_length, readerBits_length, bitsLeft, bitsLeft] at h1
      simp at h1
      have e1 : v.rcnt.val = x.rcnt.val := by rw [← hv]; rfl
      have e2 : v.src.length = x.src.length := by rw [← hv]; rfl
      have := hsx.length_le
      rw [e1] at o1 o2
      refine ⟨fun h0 hle => ?_, fun h0 hlt => ?_⟩
      · have := o1 h0 hle
        omega
      · rcases Nat.eq_zero_or_pos tk with h | h
        · omega
        · have := o2 h hlt
          omega

/-- DECOMPRESS can be cut anywhere if it ends. -/
theorem cutDecompress_answers (n : Nat) {s e : State} (he : (decompressBody s).EndsAt e) :
    ∃ c, cutDecompress n s = .next c := by
  rw [decompressBody] at he
  rw [cutDecompress]
  cases h1 : readTree (initUnits false s) with
  | stuck f => rw [h1] at he; exact absurd he (by simp [Res.bind])
  | raised x u => exact ⟨_, rfl⟩
  | ok a u =>
    rw [h1] at he
    simp only [cutPiece]
    split
    · exact ⟨_, rfl⟩
    · have he : ((readCount u).bind fun _ s2 => decodeSymbols s2).EndsAt e := he
      cases h2 : readCount u with
      | stuck f => rw [h2] at he; exact absurd he (by simp [Res.bind])
      | raised x v => exact ⟨_, rfl⟩
      | ok b v =>
        rw [h2] at he
        simp only
        split
        · exact ⟨_, rfl⟩
        · exact cutDecode_answers _ he

/-- The procedure DECODE ends where the command does. -/
theorem decode_ends {s t : State} (h : exec .decode s = .next t) :
    ∃ e, (decodeSymbols s).EndsAt e ∧ t.src = e.src ∧ t.snk = e.snk := by
  rcases finishMicro_next h with ⟨a, u, hu, rfl⟩ | ⟨e, u, hu, rfl⟩ <;> exact ⟨u, by rw [hu]; simp, rfl, rfl⟩

/-- A command that answers a next state can be abandoned anywhere. -/
theorem cutCommand_answers {i : Instr} (n : Nat) {s t : State} (h : exec i s = .next t) :
    ∃ c, cutCommand i n s = .next c := by
  cases i with
  | decode => obtain ⟨e, he, -⟩ := decode_ends h; exact cutDecode_answers n he
  | decompress => obtain ⟨e, he, -⟩ := decompress_ends h; exact cutDecompress_answers n he
  | _ => exact ⟨_, by simp only [cutCommand, cutWhole, h]; rfl⟩

/-- Abandoning a command word answers a next state if every command does. -/
theorem abandon_answers (w : CmdWord) (n : Nat) {s : State} (h : ∀ i, ∃ t, exec i s = .next t) :
    ∃ t, abandon w n s = .next t := by
  rw [abandon]
  cases decode w with
  | reserved y => exact ⟨_, rfl⟩
  | instr i =>
    obtain ⟨t, ht⟩ := h i
    obtain ⟨c, hc⟩ := cutCommand_answers n ht
    simp only [hc]
    exact ⟨_, rfl⟩

end Sys2Proof.Machine
end

