-- ==== Sys2Proof/Laws/Decode.lean ====
section
/-! SUPPORT. The fields of a command word (30_encoding.md R100): a word is its five fields side by side. -/

namespace Sys2Proof

theorem getLsbD_append_five {a b c d e : Nat} (v : BitVec a) (w : BitVec b) (x : BitVec c) (y : BitVec d) (z : BitVec e)
    (i : Nat) : (v ++ w ++ x ++ y ++ z).getLsbD i
      = if i < e then z.getLsbD i else if i < e + d then y.getLsbD (i - e)
        else if i < e + d + c then x.getLsbD (i - e - d) else if i < e + d + c + b then w.getLsbD (i - e - d - c)
        else v.getLsbD (i - e - d - c - b) := by
  simp only [BitVec.getLsbD_append]
  by_cases h1 : i < e
  · simp only [h1, if_true]
  · have e2 : i - e < d ↔ i < e + d := by omega
    by_cases h2 : i < e + d
    · simp only [h1, h2, e2, if_true, if_false]
    · have e3 : i - e - d < c ↔ i < e + d + c := by omega
      by_cases h3 : i < e + d + c
      · simp only [h1, h2, h3, e2, e3, if_true, if_false]
      · have e4 : i - e - d - c < b ↔ i < e + d + c + b := by omega
        simp only [h1, h2, h3, e2, e3, e4, if_false]

theorem getLsbD_packFields (op : BitVec 8) (rsv : BitVec 6) (tie node : Idx) (arg : Word) (i : Nat) :
    (packFields op rsv tie node arg).getLsbD i
      = if i < 32 then arg.getLsbD i else if i < 41 then node.getLsbD (i - 32)
        else if i < 50 then tie.getLsbD (i - 41) else if i < 56 then rsv.getLsbD (i - 50)
        else op.getLsbD (i - 56) := by
  refine (getLsbD_append_five op rsv tie node arg i).trans ?_
  rw [Nat.sub_sub, Nat.sub_sub, Nat.sub_sub]

section Fields
variable (op : BitVec 8) (rsv : BitVec 6) (tie node : Idx) (arg : Word)

@[simp] theorem argField_packFields : argField (packFields op rsv tie node arg) = arg := by
  apply BitVec.eq_of_getLsbD_eq
  intro i hi
  simp [argField, getLsbD_packFields, hi]

@[simp] theorem nodeField_packFields : nodeField (packFields op rsv tie node arg) = node := by
  apply BitVec.eq_of_getLsbD_eq
  intro i hi
  have h : 32 + i < 41 := by omega
  simp [nodeField, getLsbD_packFields, hi, h]

@[simp] theorem tieField_packFields : tieField (packFields op rsv tie node arg) = tie := by
  apply BitVec.eq_of_getLsbD_eq
  intro i hi
  have h1 : ¬ 41 + i < 32 := by omega
  have h2 : 41 + i < 50 := by omega
  simp [tieField, getLsbD_packFields, hi, h1, h2]

@[simp] theorem rsvField_packFields : rsvField (packFields op rsv tie node arg) = rsv := by
  apply BitVec.eq_of_getLsbD_eq
  intro i hi
  have h1 : ¬ 50 + i < 32 := by omega
  have h2 : ¬ 50 + i < 41 := by omega
  have h3 : 50 + i < 56 := by omega
  simp [rsvField, getLsbD_packFields, hi, h1, h2, h3]

@[simp] theorem opField_packFields : opField (packFields op rsv tie node arg) = op := by
  apply BitVec.eq_of_getLsbD_eq
  intro i hi
  have h1 : ¬ 56 + i < 32 := by omega
  have h2 : ¬ 56 + i < 41 := by omega
  have h3 : ¬ 56 + i < 50 := by omega
  simp [opField, getLsbD_packFields, hi, h1, h2, h3]

end Fields

/-- A word is the five fields it holds. -/
theorem packFields_fields (w : CmdWord) :
    packFields (opField w) (rsvField w) (tieField w) (nodeField w) (argField w) = w := by
  apply BitVec.eq_of_getLsbD_eq
  intro i hi
  rw [getLsbD_packFields]
  simp only [opField, rsvField, tieField, nodeField, argField, BitVec.getLsbD_extractLsb']
  split
  · simp [*]
  · split
    · have h1 : i - 32 < 9 := by omega
      have h2 : 32 + (i - 32) = i := by omega
      rw [h2]; simp [h1]
    · split
      · have h1 : i - 41 < 9 := by omega
        have h2 : 41 + (i - 41) = i := by omega
        rw [h2]; simp [h1]
      · split
        · have h1 : i - 50 < 6 := by omega
          have h2 : 50 + (i - 50) = i := by omega
          rw [h2]; simp [h1]
        · have h1 : i - 56 < 8 := by omega
          have h2 : 56 + (i - 56) = i := by omega
          rw [h2]; simp [h1]

theorem packFields_and (a a' : BitVec 8) (b b' : BitVec 6) (c c' d d' : Idx) (e e' : Word) :
    packFields a b c d e &&& packFields a' b' c' d' e'
      = packFields (a &&& a') (b &&& b') (c &&& c') (d &&& d') (e &&& e') := by
  apply BitVec.eq_of_getLsbD_eq
  intro i hi
  simp only [BitVec.getLsbD_and, getLsbD_packFields]
  split
  · rfl
  · split
    · rfl
    · split
      · rfl
      · split <;> rfl

end Sys2Proof
end

