-- ==== Sys2Proof/Laws/PerInstr.lean ====
section
/-! SUPPORT. One statement per command: the fixed bits of its word are the `match` and `mask` of its row in
spec/opcode_table.json (30_encoding.md R102, R104). -/

namespace Sys2Proof.Laws.Row

/-- The `match` number of a command's row in spec/opcode_table.json. -/
def rowMatch : Instr → CmdWord
  | .init _ => 0x0000000000000000
  | .stat _ => 0x0100000000000000
  | .getbit => 0x1000000000000000
  | .getchar => 0x1100000000000000
  | .getint => 0x1200000000000000
  | .putbit _ => 0x1800000000000000
  | .putchar _ => 0x1900000000000000
  | .putint _ => 0x1A00000000000000
  | .close => 0x1B00000000000000
  | .push _ _ _ => 0x2000000000000000
  | .top => 0x2100000000000000
  | .pop => 0x2200000000000000
  | .size => 0x2300000000000000
  | .freq => 0x3000000000000000
  | .build => 0x3100000000000000
  | .codes => 0x4000000000000000
  | .wtree => 0x4100000000000000
  | .wcount => 0x4200000000000000
  | .wpayload => 0x4300000000000000
  | .compress => 0x4F00000000000000
  | .rtree => 0x5000000000000000
  | .rcount => 0x5100000000000000
  | .decode => 0x5200000000000000
  | .decompress => 0x5F00000000000000

/-- OP and RSV of the command's word are those of its row. -/
def Statement (i : Instr) : Prop := encode i &&& 0xFFFC000000000000 = rowMatch i

/-- The mask keeps OP and RSV. -/
theorem encode_and_mask (i : Instr) : encode i &&& 0xFFFC000000000000 = packFields i.opcode 0 0 0 0 := by
  have h : (0xFFFC000000000000 : CmdWord) = packFields 0xFF 0x3F 0 0 0 := by decide
  rw [encode, h, packFields_and]
  have h1 : i.opcode &&& 0xFF = i.opcode := BitVec.and_allOnes
  rw [h1]
  simp

theorem init (d : Bool) : Statement (.init d) := (encode_and_mask _).trans (by simp only [Instr.opcode, rowMatch]; decide)
theorem stat (sel : Word) : Statement (.stat sel) := (encode_and_mask _).trans (by simp only [Instr.opcode, rowMatch]; decide)
theorem getbit : Statement (.getbit) := (encode_and_mask _).trans (by simp only [Instr.opcode, rowMatch]; decide)
theorem getchar : Statement (.getchar) := (encode_and_mask _).trans (by simp only [Instr.opcode, rowMatch]; decide)
theorem getint : Statement (.getint) := (encode_and_mask _).trans (by simp only [Instr.opcode, rowMatch]; decide)
theorem putbit (b : Bool) : Statement (.putbit b) := (encode_and_mask _).trans (by simp only [Instr.opcode, rowMatch]; decide)
theorem putchar (v : Byte) : Statement (.putchar v) := (encode_and_mask _).trans (by simp only [Instr.opcode, rowMatch]; decide)
theorem putint (w : Word) : Statement (.putint w) := (encode_and_mask _).trans (by simp only [Instr.opcode, rowMatch]; decide)
theorem close : Statement (.close) := (encode_and_mask _).trans (by simp only [Instr.opcode, rowMatch]; decide)
theorem push (f : Word) (t n : Idx) : Statement (.push f t n) := (encode_and_mask _).trans (by simp only [Instr.opcode, rowMatch]; decide)
theorem top : Statement (.top) := (encode_and_mask _).trans (by simp only [Instr.opcode, rowMatch]; decide)
theorem pop : Statement (.pop) := (encode_and_mask _).trans (by simp only [Instr.opcode, rowMatch]; decide)
theorem size : Statement (.size) := (encode_and_mask _).trans (by simp only [Instr.opcode, rowMatch]; decide)
theorem freq : Statement (.freq) := (encode_and_mask _).trans (by simp only [Instr.opcode, rowMatch]; decide)
theorem build : Statement (.build) := (encode_and_mask _).trans (by simp only [Instr.opcode, rowMatch]; decide)
theorem codes : Statement (.codes) := (encode_and_mask _).trans (by simp only [Instr.opcode, rowMatch]; decide)
theorem wtree : Statement (.wtree) := (encode_and_mask _).trans (by simp only [Instr.opcode, rowMatch]; decide)
theorem wcount : Statement (.wcount) := (encode_and_mask _).trans (by simp only [Instr.opcode, rowMatch]; decide)
theorem wpayload : Statement (.wpayload) := (encode_and_mask _).trans (by simp only [Instr.opcode, rowMatch]; decide)
theorem compress : Statement (.compress) := (encode_and_mask _).trans (by simp only [Instr.opcode, rowMatch]; decide)
theorem rtree : Statement (.rtree) := (encode_and_mask _).trans (by simp only [Instr.opcode, rowMatch]; decide)
theorem rcount : Statement (.rcount) := (encode_and_mask _).trans (by simp only [Instr.opcode, rowMatch]; decide)
theorem decode : Statement (.decode) := (encode_and_mask _).trans (by simp only [Instr.opcode, rowMatch]; decide)
theorem decompress : Statement (.decompress) := (encode_and_mask _).trans (by simp only [Instr.opcode, rowMatch]; decide)

end Sys2Proof.Laws.Row
end

