-- ==== Sys2Proof/Laws/Status.lean ====
section
/-! SUPPORT. No procedure reads or writes the status registers or the responses (10_state.md R38: they are written when a
command ends), so running one commutes with writing those. -/

namespace Sys2Proof.Machine

/-- The state with other status registers and responses. -/
def State.withStatus (s : State) (err phase : BitVec 4) (resps : List Response) : State :=
  { s with lastErr := err, lastPhase := phase, resps := resps }

theorem State.endCommand_eq (s : State) (err phase : BitVec 4) (result : Option Result) :
    s.endCommand err phase result
      = s.withStatus err phase (s.resps ++ [{ err := err, phase := phase, result := result }]) := rfl

/-- Change the state a procedure leaves. -/
def Res.mapState {α : Type} (f : State → State) : Res α → Res α
  | .ok a s => .ok a (f s)
  | .raised e s => .raised e (f s)
  | .stuck x => .stuck x

/-- The procedure neither reads nor writes the status registers and the responses. -/
def Blind {α : Type} (r : State → Res α) : Prop :=
  ∀ s e p l, r (s.withStatus e p l) = (r s).mapState fun u => u.withStatus e p l

theorem Blind.bind {α β : Type} {r : State → Res α} {k : α → State → Res β} (hr : Blind r) (hk : ∀ a, Blind (k a)) :
    Blind fun s => (r s).bind k := by
  intro s e p l
  show (r (s.withStatus e p l)).bind k = _
  rw [hr]
  show _ = ((r s).bind k).mapState _
  cases r s with
  | ok a u => exact hk a u e p l
  | raised x u => rfl
  | stuck x => rfl

theorem blind_refill : Blind refill := by
  intro s e p l
  unfold refill srcRead
  rw [show (s.withStatus e p l).rcnt = s.rcnt from rfl, show (s.withStatus e p l).src = s.src from rfl]
  by_cases h : s.rcnt = 0
  · rw [if_pos h, if_pos h]; cases s.src <;> rfl
  · rw [if_neg h, if_neg h]; rfl


theorem blind_getBit : Blind getBit := blind_refill.bind fun _ _ _ _ _ => rfl

theorem blind_getBits {w : Nat} (n : Nat) : ∀ v : BitVec w, Blind (getBits n v) := by
  induction n with
  | zero => intro v s e p l; rfl
  | succ n ih => intro v; exact blind_getBit.bind fun b => ih (shiftIn v b)

theorem blind_putBit (b : Bool) : Blind (putBit b) := by
  intro s e p l
  unfold putBit
  rw [show (s.withStatus e p l).wclosed = s.wclosed from rfl]
  cases s.wclosed with
  | true => rfl
  | false =>
    by_cases h : s.wcnt.val + 1 < 8
    · rw [dif_pos h, dif_pos (show (s.withStatus e p l).wcnt.val + 1 < 8 from h)]; rfl
    · rw [dif_neg h, dif_neg (show ¬ (s.withStatus e p l).wcnt.val + 1 < 8 from h)]; rfl


theorem blind_putBits (bits : List Bool) : Blind (putBits bits) := by
  induction bits with
  | nil => intro s e p l; rfl
  | cons b bs ih => exact (blind_putBit b).bind fun _ => ih

theorem blind_closeWriter : Blind closeWriter := by
  intro s e p l
  unfold closeWriter
  rw [show (s.withStatus e p l).wclosed = s.wclosed from rfl, show (s.withStatus e p l).wcnt = s.wcnt from rfl]
  cases s.wclosed with
  | true => rfl
  | false =>
    by_cases h : s.wcnt.val = 0
    · rw [if_pos h, if_pos h]; rfl
    · rw [if_neg h, if_neg h]; rfl


theorem blind_heapPush (x : Element) : Blind (heapPush x) := by
  intro s e p l
  unfold heapPush
  rw [show (s.withStatus e p l).heap = s.heap from rfl]
  by_cases h : Config.pqCap ≤ s.heap.length
  · rw [if_pos h, if_pos h]; rfl
  · rw [if_neg h, if_neg h]; rfl


theorem blind_heapPop : Blind heapPop := by
  intro s e p l
  unfold heapPop
  rw [show (s.withStatus e p l).heap = s.heap from rfl]
  cases s.heap <;> rfl


theorem blind_freqLoop (l : List Byte) : Blind (freqLoop l) := by
  induction l with
  | nil => intro s e p l; rfl
  | cons r rest ih =>
    intro s e p l
    rw [freqLoop, freqLoop]
    by_cases h : s.inbuf.length = s.inbufCap
    · rw [if_pos h, if_pos (show (s.withStatus e p l).inbuf.length = (s.withStatus e p l).inbufCap from h)]; rfl
    · rw [if_neg h, if_neg (show ¬ (s.withStatus e p l).inbuf.length = (s.withStatus e p l).inbufCap from h)]
      exact ih (s.setInput (s.inbuf ++ [r]) (bumpFreq s.freq r) rest) e p l

theorem blind_analyze : Blind analyze := by
  intro s e p l
  have h : Blind fun u => (freqLoop s.src u).bind fun _ s' => .ok () (s'.setCount s'.inLen) :=
    (blind_freqLoop s.src).bind fun _ _ _ _ _ => rfl
  exact h ((s.setInput [] (Vector.replicate 256 0) s.src).setCount 0) e p l

theorem blind_buildLeaves (l : List Byte) : Blind (buildLeaves l) := by
  induction l with
  | nil => intro s e p l; rfl
  | cons b bs ih =>
    intro s e p l
    rw [buildLeaves, buildLeaves]
    by_cases h : s.freqAt b = 0
    · rw [if_pos h, if_pos (show (s.withStatus e p l).freqAt b = 0 from h)]; exact ih s e p l
    · rw [if_neg h, if_neg (show ¬ (s.withStatus e p l).freqAt b = 0 from h)]
      exact ((blind_heapPush { freq := s.freqAt b, tie := b.setWidth 9, node := nextNode s }).bind fun _ => ih)
        (appendNode (leafRec b (s.freqAt b)) s) e p l

theorem blind_buildPair (j : Nat) : Blind (buildPair j) :=
  blind_heapPop.bind fun a => blind_heapPop.bind fun b => fun s e p l =>
    blind_heapPush { freq := a.freq + b.freq, tie := BitVec.ofNat 9 (256 + j), node := nextNode s }
      (appendNode (innerRec a.node b.node (a.freq + b.freq)) s) e p l

theorem blind_buildPairs (fuel : Nat) : ∀ j, Blind (buildPairs fuel j) := by
  induction fuel with
  | zero => intro j s e p l; rfl
  | succ fuel ih =>
    intro j s e p l
    rw [buildPairs, buildPairs]
    by_cases h : s.heap.length ≤ 1
    · rw [if_pos h, if_pos (show (s.withStatus e p l).heap.length ≤ 1 from h)]; rfl
    · rw [if_neg h, if_neg (show ¬ (s.withStatus e p l).heap.length ≤ 1 from h)]
      exact ((blind_buildPair j).bind fun _ => ih (j + 1)) s e p l

theorem blind_buildTree : Blind buildTree := by
  have h : Blind fun s1 => if s1.heap.length = 0 then Res.ok () s1 else (buildPairs s1.heap.length 0 s1).bind fun _ s2 =>
      (heapPop s2).bind fun r s3 => .ok () (s3.setTree r.node false) := by
    intro s e p l
    by_cases h : s.heap.length = 0
    · simp only [if_pos h, if_pos (show (s.withStatus e p l).heap.length = 0 from h)]; rfl
    · simp only [if_neg h, if_neg (show ¬ (s.withStatus e p l).heap.length = 0 from h)]
      exact ((blind_buildPairs s.heap.length 0).bind fun _ => blind_heapPop.bind fun _ _ _ _ _ => rfl) s e p l
  exact fun s e p l => ((blind_buildLeaves allSymbols).bind fun _ => h) (buildStart s) e p l

theorem blind_walkCodes (fuel : Nat) : ∀ n path, Blind (walkCodes fuel n path) := by
  induction fuel with
  | zero =>
    intro n path s e p l
    rw [walkCodes, walkCodes, show (s.withStatus e p l).nodeAt n = s.nodeAt n from rfl]
    cases s.nodeAt n with
    | none => rfl
    | some r => by_cases h : r.leaf = true <;> simp only [h] <;> rfl
  | succ k ih =>
    intro n path s e p l
    rw [walkCodes, walkCodes, show (s.withStatus e p l).nodeAt n = s.nodeAt n from rfl]
    cases s.nodeAt n with
    | none => rfl
    | some r =>
      by_cases h : r.leaf = true
      · simp only [h]; rfl
      · simp only [Bool.not_eq_true _ ▸ h]
        exact ((ih r.left (path ++ [false])).bind fun _ => ih r.right (path ++ [true])) s e p l

theorem blind_makeCodes : Blind makeCodes := by
  intro s e p l
  generalize h0 : s.setCode (Vector.replicate 256 []) = u
  have h1 : (s.withStatus e p l).setCode (Vector.replicate 256 []) = u.withStatus e p l := by rw [← h0]; rfl
  unfold makeCodes
  simp only [h0, h1]
  rw [show (u.withStatus e p l).treeEmpty = u.treeEmpty from rfl, show (u.withStatus e p l).root = u.root from rfl,
    show (u.withStatus e p l).nodeAt u.root = u.nodeAt u.root from rfl]
  cases u.treeEmpty with
  | true => rfl
  | false =>
    cases u.nodeAt u.root with
    | none => rfl
    | some r =>
      cases hl : r.leaf with
      | true => simp only [hl]; rfl
      | false => simp only [hl]; exact blind_walkCodes _ _ _ u e p l

theorem blind_serialize (fuel : Nat) : ∀ n, Blind (serialize fuel n) := by
  have hleaf : ∀ b, Blind (putLeaf b) := fun b => (blind_putBit true).bind fun _ => blind_putBits _
  induction fuel with
  | zero =>
    intro n s e p l
    rw [serialize, serialize, show (s.withStatus e p l).nodeAt n = s.nodeAt n from rfl]
    cases s.nodeAt n with
    | none => rfl
    | some r =>
      cases h : r.leaf with
      | true => simp only [h]; exact hleaf r.sym s e p l
      | false => simp only [h]; rfl
  | succ k ih =>
    intro n s e p l
    rw [serialize, serialize, show (s.withStatus e p l).nodeAt n = s.nodeAt n from rfl]
    cases s.nodeAt n with
    | none => rfl
    | some r =>
      cases h : r.leaf with
      | true => simp only [h]; exact hleaf r.sym s e p l
      | false =>
        simp only [h]
        exact ((blind_putBit false).bind fun _ => (ih r.left).bind fun _ => ih r.right) s e p l

theorem blind_writeTree : Blind writeTree := by
  intro s e p l
  rw [writeTree, writeTree, show (s.withStatus e p l).treeEmpty = s.treeEmpty from rfl,
    show (s.withStatus e p l).root = s.root from rfl]
  cases s.treeEmpty with
  | true => exact ((blind_putBit true).bind fun _ => blind_putBits (msbBits 0)) s e p l
  | false => exact blind_serialize _ _ s e p l

theorem blind_writeCount : Blind writeCount := fun s e p l => blind_putBits (msbBits s.count) s e p l

theorem blind_writePayload : Blind writePayload := by
  intro s e p l
  rw [writePayload, writePayload, payloadLoop_eq, payloadLoop_eq]
  exact blind_putBits (s.inbuf.flatMap s.codeAt) s e p l

theorem blind_readNode (fuel : Nat) : Blind (readNode fuel) := by
  induction fuel with
  | zero =>
    refine blind_getBit.bind fun b s e p l => ?_
    by_cases h : s.node.length = Config.nodeCap
    · simp only [if_pos h, if_pos (show (s.withStatus e p l).node.length = Config.nodeCap from h)]; rfl
    · simp only [if_neg h, if_neg (show ¬ (s.withStatus e p l).node.length = Config.nodeCap from h)]
      cases b with
      | true => exact ((blind_getBits 8 (0 : Byte)).bind fun _ _ _ _ _ => rfl) (allocNode s) e p l
      | false => rfl
  | succ k ih =>
    refine blind_getBit.bind fun b s e p l => ?_
    by_cases h : s.node.length = Config.nodeCap
    · simp only [if_pos h, if_pos (show (s.withStatus e p l).node.length = Config.nodeCap from h)]; rfl
    · simp only [if_neg h, if_neg (show ¬ (s.withStatus e p l).node.length = Config.nodeCap from h)]
      cases b with
      | true => exact ((blind_getBits 8 (0 : Byte)).bind fun _ _ _ _ _ => rfl) (allocNode s) e p l
      | false => exact (ih.bind fun _ => ih.bind fun _ _ _ _ _ => rfl) (allocNode s) e p l

theorem blind_readTree : Blind readTree := fun s e p l =>
  ((blind_readNode Config.stackCap).bind fun _ _ _ _ _ => rfl) ((s.setArena []).setTree s.root true) e p l

theorem blind_readCount : Blind readCount :=
  (blind_getBits 32 (0 : Word)).bind fun _ _ _ _ _ => rfl

theorem blind_descend (fuel : Nat) : ∀ n, Blind (descend fuel n) := by
  induction fuel with
  | zero =>
    intro n s e p l
    rw [descend, descend, show (s.withStatus e p l).nodeAt n = s.nodeAt n from rfl]
    cases s.nodeAt n with
    | none => rfl
    | some r =>
      cases h : r.leaf with
      | true => simp only [h]; rfl
      | false => simp only [h]; exact (blind_getBit.bind fun _ _ _ _ _ => rfl) s e p l
  | succ k ih =>
    intro n s e p l
    rw [descend, descend, show (s.withStatus e p l).nodeAt n = s.nodeAt n from rfl]
    cases s.nodeAt n with
    | none => rfl
    | some r =>
      cases h : r.leaf with
      | true => simp only [h]; rfl
      | false => simp only [h]; exact (blind_getBit.bind fun b => ih (if b then r.right else r.left)) s e p l

theorem blind_nextSymbol : Blind nextSymbol := by
  intro s e p l
  rw [nextSymbol, nextSymbol, show (s.withStatus e p l).root = s.root from rfl,
    show (s.withStatus e p l).nodeAt s.root = s.nodeAt s.root from rfl,
    show bitsLeft (s.withStatus e p l) = bitsLeft s from rfl]
  cases s.nodeAt s.root with
  | none => rfl
  | some r =>
    cases h : r.leaf with
    | true => simp only [h]; exact (blind_getBit.bind fun _ _ _ _ _ => rfl) s e p l
    | false => simp only [h]; exact blind_descend _ _ s e p l

theorem blind_decodeLoop (n : Nat) : Blind (decodeLoop n) := by
  induction n with
  | zero => intro s e p l; rfl
  | succ n ih => exact (blind_nextSymbol.bind fun b => blind_putBits (msbBits b)).bind fun _ => ih

theorem blind_decodeSymbols : Blind decodeSymbols := by
  intro s e p l
  rw [decodeSymbols, decodeSymbols]
  by_cases h : s.count ≠ 0 ∧ s.treeEmpty = true
  · rw [if_pos h, if_pos (show (s.withStatus e p l).count ≠ 0 ∧ (s.withStatus e p l).treeEmpty = true from h)]; rfl
  · rw [if_neg h, if_neg (show ¬ ((s.withStatus e p l).count ≠ 0 ∧ (s.withStatus e p l).treeEmpty = true) from h)]
    exact blind_decodeLoop s.count.toNat s e p l

end Sys2Proof.Machine
end

