-- ==== Sys2Proof/Tests/Slice0.lean ====
section
/-! SUPPORT. Tests. Expected results are the spec's own examples and vectors (95_test_vectors.md, the "Example" and "Corner
cases" entries of the command rules) or are worked out by hand from 30_encoding.md. Then, for every obligation with
hypotheses, states and operands that meet them (`witness_…`). -/

namespace Sys2Proof.Tests

set_option Elab.async false

open Sys2Proof Sys2Proof.Machine

/-! ### Helpers -/

/-- The reset state with these bytes in SRC. -/
def ready (src : List Byte) : State := { State.reset with src := src }

/-- A closed writer. -/
def shut (s : State) : State := { s with wclosed := true }

/-- The command ends in a next state with this property. -/
def nextIs (o : Host.Outcome State Fault Refusal) (p : State → Bool) : Bool :=
  match o with
  | .next t => p t
  | .fault _ => false
  | .refused _ => false

theorem nextIs_next {o : Host.Outcome State Fault Refusal} {p : State → Bool} (h : nextIs o p = true) :
    ∃ t, o = .next t ∧ p t = true := by
  cases o with
  | next t => exact ⟨t, rfl, h⟩
  | fault f => cases h
  | refused r => cases h

/-- The command answers a next state. -/
theorem nextIs_some {o : Host.Outcome State Fault Refusal} (h : nextIs o (fun _ => true) = true) : ∃ t, o = .next t :=
  let ⟨t, ht, _⟩ := nextIs_next h
  ⟨t, ht⟩

/-- The response word of the last command, a failed command's undelivered fields as 0. -/
def lastWord (t : State) : CmdWord := (t.resps.getLast?.map fun r => responseWord r 0).getD 0

/-- The tree of 43_tree_builder.md's example for "ab": symbols 0x61 and 0x62 under node 2. -/
def treeAb : Machine.Tree := .inner 2 (.leaf 0 0x61) (.leaf 1 0x62)

/-- A state that holds that tree, with 2 symbols to decode and SRC = 0b01000000 0xFF. -/
def holdsAb : State :=
  { State.reset with
    node := [some (leafRec 0x61 1), some (leafRec 0x62 1), some (innerRec 0 1 2)]
    root := 2, treeEmpty := false, count := 2, inbuf := [0x61, 0x62], src := [0x40, 0xFF] }

theorem holdsAb_tree : HoldsTree holdsAb treeAb := ⟨by decide, by decide, by decide, by decide⟩

/-- Its two codes. -/
theorem treeAb_reads : ∀ p ∈ [((0x61 : Byte), [false]), (0x62, [true])], treeAb.reads p.1 p.2 := by
  intro p hp
  simp only [List.mem_cons, List.not_mem_nil, or_false] at hp
  rcases hp with rfl | rfl <;> simp [Machine.Tree.reads, treeAb, Machine.Tree.paths]

/-! ### Well-formed terms: STAT's selector is the one range the types do not hold -/

theorem test_wellFormed_stat_4 : (Instr.stat 4).wellFormed = true := by decide
theorem test_illFormed_stat_5 : (Instr.stat 5).wellFormed = false := by decide
theorem test_illFormed_stat_max : (Instr.stat 0xFFFFFFFF).wellFormed = false := by decide

/-! ### Decoding: OP[63:56] RSV[55:50] TIE[49:41] NODE[40:32] ARG[31:0], written out from 30_encoding.md R100, R104 -/

theorem test_decode_init : decode 0b00000000_000000_000000000_000000000_00000000000000000000000000000001
    = .instr (.init true) := by decide
theorem test_decode_stat : decode 0b00000001_000000_000000000_000000000_00000000000000000000000000000100
    = .instr (.stat 4) := by decide
theorem test_decode_getbit : decode 0b00010000_000000_000000000_000000000_00000000000000000000000000000000
    = .instr .getbit := by decide
theorem test_decode_getchar : decode 0b00010001_000000_000000000_000000000_00000000000000000000000000000000
    = .instr .getchar := by decide
theorem test_decode_getint : decode 0b00010010_000000_000000000_000000000_00000000000000000000000000000000
    = .instr .getint := by decide
theorem test_decode_putbit : decode 0b00011000_000000_000000000_000000000_00000000000000000000000000000001
    = .instr (.putbit true) := by decide
theorem test_decode_putchar : decode 0b00011001_000000_000000000_000000000_00000000000000000000000001100001
    = .instr (.putchar 0x61) := by decide
theorem test_decode_putint : decode 0b00011010_000000_000000000_000000000_11011110101011011011111011101111
    = .instr (.putint 0xDEADBEEF) := by decide
theorem test_decode_close : decode 0b00011011_000000_000000000_000000000_00000000000000000000000000000000
    = .instr .close := by decide
theorem test_decode_push : decode 0b00100000_000000_001100010_000000001_00000000000000000000000000000010
    = .instr (.push 2 0x62 1) := by decide
theorem test_decode_top : decode 0b00100001_000000_000000000_000000000_00000000000000000000000000000000
    = .instr .top := by decide
theorem test_decode_pop : decode 0b00100010_000000_000000000_000000000_00000000000000000000000000000000
    = .instr .pop := by decide
theorem test_decode_size : decode 0b00100011_000000_000000000_000000000_00000000000000000000000000000000
    = .instr .size := by decide
theorem test_decode_freq : decode 0b00110000_000000_000000000_000000000_00000000000000000000000000000000
    = .instr .freq := by decide
theorem test_decode_build : decode 0b00110001_000000_000000000_000000000_00000000000000000000000000000000
    = .instr .build := by decide
theorem test_decode_codes : decode 0b01000000_000000_000000000_000000000_00000000000000000000000000000000
    = .instr .codes := by decide
theorem test_decode_wtree : decode 0b01000001_000000_000000000_000000000_00000000000000000000000000000000
    = .instr .wtree := by decide
theorem test_decode_wcount : decode 0b01000010_000000_000000000_000000000_00000000000000000000000000000000
    = .instr .wcount := by decide
theorem test_decode_wpayload : decode 0b01000011_000000_000000000_000000000_00000000000000000000000000000000
    = .instr .wpayload := by decide
theorem test_decode_compress : decode 0b01001111_000000_000000000_000000000_00000000000000000000000000000000
    = .instr .compress := by decide
theorem test_decode_rtree : decode 0b01010000_000000_000000000_000000000_00000000000000000000000000000000
    = .instr .rtree := by decide
theorem test_decode_rcount : decode 0b01010001_000000_000000000_000000000_00000000000000000000000000000000
    = .instr .rcount := by decide
theorem test_decode_decode : decode 0b01010010_000000_000000000_000000000_00000000000000000000000000000000
    = .instr .decode := by decide
theorem test_decode_decompress : decode 0b01011111_000000_000000000_000000000_00000000000000000000000000000000
    = .instr .decompress := by decide

/-- Bits a command does not use are ignored (R101); a bit of RSV or an unlisted OP is not (R105; 95_test_vectors.md). -/
theorem test_decode_ignored : decode 0x10FFFFFFFFFFFFFF = .reserved .rsvNotZero
    ∧ decode 0x1003FFFFFFFFFFFF = .instr .getbit ∧ decode 0x0200000000000000 = .reserved (.opcode 2)
    ∧ decode 0x00000000FFFFFFFE = .instr (.init false) := by decide

/-- The same decoder through the opcode table's numbering of an instruction's bits. -/
theorem test_decodeTableWord : decodeTableWord 64 0x2000C40100000002 = some (.push 2 0x62 1)
    ∧ decodeTableWord 64 0x0200000000000000 = none := by decide

/-! ### One step of each command -/

/-- 40_control.md R130's example: after INIT 1 the status word is 0x00030000. -/
theorem test_init : nextIs (exec (.init true) (ready [])) (fun t => statusWord t = 0x00030000 ∧ lastWord t = 0)
    = true := by decide +kernel

/-- 40_control.md R131's example: after reset STAT 0 returns 0x00020000. -/
theorem test_stat : nextIs (exec (.stat 0) (ready [])) (fun t => lastWord t = 0x00020000) = true := by decide +kernel
/-- R131: a selector above 4 is Illegal. -/
theorem test_stat_illegal : nextIs (exec (.stat 5) (ready [])) (fun t => lastWord t = 0x5000000000000000 ∧ t.lastErr = 5)
    = true := by decide +kernel

/-- R140's example: SRC = B0, the first bit is 1. -/
theorem test_getbit : nextIs (exec .getbit (ready [0xB0]))
    (fun t => lastWord t = 1 ∧ t.rbuf = 0xB0 ∧ t.rcnt = 7 ∧ t.src = []) = true := by decide +kernel
/-- R140: no byte to refill from. -/
theorem test_getbit_eos : nextIs (exec .getbit (ready [])) (fun t => lastWord t = 0x2000000000000000) = true := by
  decide +kernel

/-- R141's example: rbuf = 0xB0, rcnt = 7, SRC = 80: the byte is 0x61. -/
theorem test_getchar : nextIs (exec .getchar { ready [0x80] with rbuf := 0xB0, rcnt := 7 })
    (fun t => lastWord t = 0x61 ∧ t.rbuf = 0x80 ∧ t.rcnt = 7) = true := by decide +kernel
/-- R141: the buffered bits are consumed by the command that fails. -/
theorem test_getchar_eos : nextIs (exec .getchar { ready [] with rbuf := 0xB0, rcnt := 7 })
    (fun t => lastWord t = 0x2000000000000000 ∧ t.rcnt = 0) = true := by decide +kernel

/-- R142's example. -/
theorem test_getint : nextIs (exec .getint (ready [0x00, 0x00, 0x00, 0x0B])) (fun t => lastWord t = 11 ∧ t.src = [])
    = true := by decide +kernel
/-- 95_test_vectors.md V23. -/
theorem test_getint_eos : nextIs (exec .getint (ready [0x12, 0x34, 0x56]))
    (fun t => lastWord t = 0x2000000000000000 ∧ t.rbuf = 0x56 ∧ t.rcnt = 0) = true := by decide +kernel

/-- R143's example, the eighth PUTBIT: SnkWrite(0xB0). -/
theorem test_putbit : nextIs (exec (.putbit false) { ready [] with wbuf := 0b1011000, wcnt := 7 })
    (fun t => t.snk = [0xB0] ∧ t.wbuf = 0 ∧ t.wcnt = 0) = true := by decide +kernel
/-- R143: a closed writer. -/
theorem test_putbit_closed : nextIs (exec (.putbit true) (shut (ready [])))
    (fun t => lastWord t = 0x6000000000000000 ∧ t.wcnt = 0) = true := by decide +kernel

/-- R144's example. -/
theorem test_putchar : nextIs (exec (.putchar 0x61) { ready [] with wbuf := 1, wcnt := 1 })
    (fun t => t.snk = [0xB0] ∧ t.wbuf = 1 ∧ t.wcnt = 1) = true := by decide +kernel

/-- R145's example. -/
theorem test_putint : nextIs (exec (.putint 4) (ready [])) (fun t => t.snk = [0, 0, 0, 4] ∧ t.wcnt = 0) = true := by
  decide +kernel

/-- R146's example. -/
theorem test_close : nextIs (exec .close { ready [] with wbuf := 0b10000, wcnt := 5 })
    (fun t => t.snk = [0x80] ∧ t.wcnt = 0 ∧ t.wclosed = true) = true := by decide +kernel
/-- 95_test_vectors.md V27: nothing buffered, no byte. -/
theorem test_close_empty : nextIs (exec .close (ready [])) (fun t => t.snk = [] ∧ statusWord t = 0x28000) = true := by
  decide +kernel

/-- R170's example, the third PUSH. -/
theorem test_push : nextIs (exec (.push 11 0 0) { ready [] with heap := [⟨12, 0, 0⟩, ⟨13, 0, 0⟩] })
    (fun t => t.heap = [⟨11, 0, 0⟩, ⟨13, 0, 0⟩, ⟨12, 0, 0⟩]) = true := by decide +kernel

/-- R171's example. -/
theorem test_top : nextIs (exec .top { ready [] with heap := [⟨11, 0, 0⟩, ⟨13, 0, 0⟩, ⟨12, 0, 0⟩] })
    (fun t => lastWord t = 11 ∧ t.heap.length = 3) = true := by decide +kernel

/-- R172's example, the first POP. -/
theorem test_pop : nextIs (exec .pop { ready [] with heap := [⟨11, 0, 0⟩, ⟨13, 0, 0⟩, ⟨12, 0, 0⟩] })
    (fun t => lastWord t = 11 ∧ t.heap = [⟨12, 0, 0⟩, ⟨13, 0, 0⟩]) = true := by decide +kernel
/-- 95_test_vectors.md V32, the first POP: the smaller child each time. -/
theorem test_pop_path : nextIs
    (exec .pop { ready [] with
      heap := [⟨1, 0, 4⟩, ⟨3, 0, 2⟩, ⟨2, 0, 6⟩, ⟨5, 0, 1⟩, ⟨9, 0, 5⟩, ⟨8, 0, 3⟩, ⟨7, 0, 7⟩] })
    (fun t => t.heap = [⟨2, 0, 6⟩, ⟨3, 0, 2⟩, ⟨7, 0, 7⟩, ⟨5, 0, 1⟩, ⟨9, 0, 5⟩, ⟨8, 0, 3⟩]) = true := by decide +kernel

/-- R173's example. -/
theorem test_size : nextIs (exec .size { ready [] with heap := [⟨11, 0, 0⟩, ⟨13, 0, 0⟩, ⟨12, 0, 0⟩] })
    (fun t => lastWord t = 3) = true := by decide +kernel

/-- R190: the table is indexed by the unsigned byte; a second FREQ does not accumulate (95_test_vectors.md V45). -/
theorem test_freq : nextIs (exec .freq { ready [0x62, 0xFF, 0x62] with inbuf := [0x61], count := 9 })
    (fun t => lastWord t = 3 ∧ t.freqAt 0x62 = 2 ∧ t.freqAt 0xFF = 1 ∧ t.freqAt 0x61 = 0 ∧ t.count = 3 ∧ t.src = [])
    = true := by decide +kernel
/-- 95_test_vectors.md V77: one byte too many. -/
theorem test_freq_capacity : nextIs (exec .freq { ready [0x61, 0x62, 0x63, 0x64, 0x65] with inbufCap := 4 })
    (fun t => lastWord t = 0x4000000000000000 ∧ t.inbuf.length = 4 ∧ t.count = 0 ∧ t.src = []) = true := by
  decide +kernel

/-- 95_test_vectors.md V4's table: "ab". -/
theorem test_build : nextIs
    (exec .build { ready [] with freq := ((Vector.replicate 256 0).set 0x61 1).set 0x62 1, heap := [⟨7, 0, 0⟩] })
    (fun t => lastWord t = 0x0000000200000003
      ∧ t.node = [some (leafRec 0x61 1), some (leafRec 0x62 1), some (innerRec 0 1 2)] ∧ t.heap = []) = true := by
  decide +kernel

/-- 95_test_vectors.md V4: the codes of "ab". -/
theorem test_codes : nextIs (exec .codes holdsAb)
    (fun t => t.codeAt 0x61 = [false] ∧ t.codeAt 0x62 = [true] ∧ t.codeAt 0x63 = []) = true := by decide +kernel
/-- R210: of two leaves with one symbol the later wins (95_test_vectors.md V55). -/
theorem test_codes_twice : nextIs
    (exec .codes { ready [] with
      node := [some (innerRec 1 2 0), some (leafRec 0x61 0), some (leafRec 0x61 0)], treeEmpty := false })
    (fun t => t.codeAt 0x61 = [true]) = true := by decide +kernel

/-- R213: the tree of "ab" is `0 101100001 101100010`. -/
theorem test_wtree : nextIs (exec .wtree holdsAb) (fun t => t.snk = [0x58, 0x6C] ∧ t.wcnt = 3 ∧ t.wbuf = 0b010) = true := by
  decide +kernel
/-- R213: the marker of the empty tree. -/
theorem test_wtree_empty : nextIs (exec .wtree (ready [])) (fun t => t.snk = [0x80] ∧ t.wcnt = 1 ∧ t.wbuf = 0) = true := by
  decide +kernel

/-- R216's example: count 11 after a pending bit 0. -/
theorem test_wcount : nextIs (exec .wcount { ready [] with count := 11, wcnt := 1 })
    (fun t => t.snk = [0x00, 0x00, 0x00, 0x05] ∧ t.wcnt = 1 ∧ t.wbuf = 1) = true := by decide +kernel

/-- 95_test_vectors.md V54: no codes, no bits. -/
theorem test_wpayload_none : nextIs (exec .wpayload { ready [] with inbuf := [0x61, 0x62] })
    (fun t => t.snk = [] ∧ t.wcnt = 0 ∧ t.lastErr = 0) = true := by decide +kernel
/-- R218: the codes of "rb" in R210's example, `111 110`. -/
theorem test_wpayload : nextIs
    (exec .wpayload { ready [] with
      inbuf := [0x72, 0x62]
      code := ((Vector.replicate 256 []).set 0x72 [true, true, true]).set 0x62 [true, true, false] })
    (fun t => t.snk = [] ∧ t.wcnt = 6 ∧ t.wbuf = 0b111110) = true := by decide +kernel

/-- R225 (a). -/
theorem test_compress_empty : nextIs (exec .compress (ready []))
    (fun t => t.snk = [0x80, 0x00, 0x00, 0x00, 0x00, 0x00] ∧ lastWord t = 0x0700000000000000) = true := by decide +kernel
/-- 95_test_vectors.md V5: "aab". -/
theorem test_compress : nextIs (exec .compress (ready [0x61, 0x61, 0x62]))
    (fun t => t.snk = [0x58, 0xAC, 0x20, 0x00, 0x00, 0x00, 0x78] ∧ lastWord t = 0x0700000000000003) = true := by
  decide +kernel

/-- R240's example. -/
theorem test_rtree : nextIs (exec .rtree (ready [0x58, 0x4B, 0x1D, 0x91, 0x62, 0xB9, 0x00, 0x00]))
    (fun t => lastWord t = 9 ∧ t.root = 0 ∧ t.rcnt = 7 ∧ t.src = [0x00]
      ∧ t.node = [some (innerRec 1 2 0), some (leafRec 0x61 0), some (innerRec 3 6 0), some (innerRec 4 5 0),
        some (leafRec 0x63 0), some (leafRec 0x64 0), some (innerRec 7 8 0), some (leafRec 0x62 0), some (leafRec 0x72 0)])
    = true := by decide +kernel
/-- 95_test_vectors.md V71: a truncated tree. -/
theorem test_rtree_eos : nextIs (exec .rtree (ready [0x58, 0x4B, 0x1D]))
    (fun t => lastWord t = 0x2000000000000000 ∧ t.treeEmpty = true ∧ t.node.length = 6) = true := by decide +kernel

/-- R245's example. -/
theorem test_rcount : nextIs (exec .rcount { ready [0x00, 0x00, 0x05, 0xB7, 0x45] with rcnt := 7 })
    (fun t => lastWord t = 11 ∧ t.count = 11 ∧ t.rbuf = 0xB7 ∧ t.rcnt = 7) = true := by decide +kernel

/-- R248: `0 1` are 'a' and 'b' in the tree of "ab". -/
theorem test_decode : nextIs (exec .decode holdsAb)
    (fun t => lastWord t = 2 ∧ t.snk = [0x61, 0x62] ∧ t.rcnt = 6 ∧ t.src = [0xFF]) = true := by decide +kernel
/-- 95_test_vectors.md V85: symbols asked for, no tree. -/
theorem test_decode_illegal : nextIs (exec .decode { ready [0xFF] with count := 1 })
    (fun t => lastWord t = 0x5000000000000000 ∧ t.src = [0xFF]) = true := by decide +kernel

/-- 95_test_vectors.md V5: "aab" back, two bits left. -/
theorem test_decompress : nextIs (exec .decompress (ready [0x58, 0xAC, 0x20, 0x00, 0x00, 0x00, 0x78]))
    (fun t => t.snk = [0x61, 0x61, 0x62] ∧ lastWord t = 0x0700000000000003 ∧ t.rcnt = 2) = true := by decide +kernel
/-- 95_test_vectors.md V72: a truncated count. -/
theorem test_decompress_eos : nextIs (exec .decompress (ready [0x58, 0x4B, 0x1D, 0x91, 0x62, 0xB9, 0x00, 0x00]))
    (fun t => lastWord t = 0x2900000000000000 ∧ t.wclosed = true ∧ t.node.length = 9) = true := by decide +kernel

/-- A command word is fetched and run. -/
theorem test_withFetchWord : nextIs (step ((ready []).withFetchWord 64 0x2000C40100000002))
    (fun t => t.heap = [⟨2, 0x62, 1⟩] ∧ t.inputs = []) = true := by decide +kernel

/-- R300, R142: GETINT, reset after it has taken two bytes: they stay taken, there is no response. -/
theorem test_reset_during_getint : nextIs (step { ready [1, 2, 3, 4, 5] with rcnt := 3, inputs := [.resetDuring 0x1200000000000000 2] })
    (fun t => t.src = [3, 4, 5] ∧ t.rcnt = 0 ∧ t.rbuf = 0 ∧ t.resps = []) = true := by decide +kernel
/-- R300, R145: PUTINT, reset after it has written three bytes. -/
theorem test_reset_during_putint : nextIs (step { ready [1] with inputs := [.resetDuring 0x1A000000DEADBEEF 3] })
    (fun t => t.src = [1] ∧ t.snk = [0xDE, 0xAD, 0xBE] ∧ t.resps = []) = true := by decide +kernel
/-- R300, R248: DECODE, reset after it has taken a byte and written a symbol. -/
theorem test_reset_during_decode : nextIs (step { holdsAb with inputs := [.resetDuring 0x5200000000000000 2] })
    (fun t => t.src = [0xFF] ∧ t.snk = [0x61] ∧ t.treeEmpty = true ∧ t.count = 0) = true := by decide +kernel
/-- R300, R255, 95_test_vectors.md V5: DECOMPRESS of the artifact of "aab", reset after all seven bytes are taken and one
symbol is written. -/
theorem test_reset_during_decompress : nextIs
    (step { ready [0x58, 0xAC, 0x20, 0x00, 0x00, 0x00, 0x78] with inputs := [.resetDuring 0x5F00000000000000 8] })
    (fun t => t.src = [] ∧ t.snk = [0x61] ∧ t.wclosed = false ∧ t.resps = []) = true := by decide +kernel

/-! ### Witnesses: states and operands that meet the obligations' hypotheses, clause by clause -/

/-- R101: the ignored bits of two INIT words differ. -/
theorem witness_EncodeOfDecode : decode 0x00000000FFFFFFFE = .instr (.init false)
    ∧ (0x0003FFFF00000000 : CmdWord) &&& usedBits (.init false) = 0x00000000FFFFFFFE &&& usedBits (.init false) := by
  decide

theorem witness_ReservedWordIsIllegal : rsvField 0x0004000000000000 ≠ 0 ∧ (opField 0x0200000000000000).toNat ∉ listedOps
    ∧ (opField 0xFF00000000000000).toNat ∉ listedOps ∧ rsvField 0x5F00000000000000 = 0
    ∧ (opField 0x5F00000000000000).toNat ∈ listedOps ∧ 4 < (5 : Word).toNat := by decide

theorem witness_StepRunsDecodedCommand :
    ((ready []).withFetchWord 64 0x2300000000000000).inputs = .command 0x2300000000000000 :: []
    ∧ decode 0x2300000000000000 = .instr .size
    ∧ ((ready []).withFetchWord 64 0x0200000000000000).inputs = .command 0x0200000000000000 :: []
    ∧ decode 0x0200000000000000 = .reserved (.opcode 2) := by decide

theorem witness_StepServesHost : (ready []).inputs = []
    ∧ { ready [] with inputs := [.srcReplace [1]] }.inputs = .srcReplace [1] :: []
    ∧ { ready [] with inputs := [.srcAppend [1]] }.inputs = .srcAppend [1] :: []
    ∧ { ready [] with inputs := [.snkRemove 0 1] }.inputs = .snkRemove 0 1 :: []
    ∧ { ready [] with inputs := [.snkClear] }.inputs = .snkClear :: []
    ∧ { ready [] with inputs := [.reset] }.inputs = .reset :: [] := by decide

/-- A reset during a reserved word, GETINT, DECODE of two symbols, DECOMPRESS of the artifact of "a"
(95_test_vectors.md V3). -/
theorem witness_StepServesHost_resetDuring :
    ({ ready [] with inputs := [.resetDuring 0x0200000000000000 0] }.inputs = .resetDuring 0x0200000000000000 0 :: []
      ∧ decode 0x0200000000000000 = .reserved (.opcode 2))
    ∧ (decode 0x1200000000000000 = .instr .getint ∧ ∃ t, exec .getint (ready [1, 2, 3, 4]) = .next t)
    ∧ (decode 0x5200000000000000 = .instr .decode ∧ (∃ t, exec .decode holdsAb = .next t) ∧ HoldsTree holdsAb treeAb
      ∧ (∀ p ∈ [((0x61 : Byte), [false]), (0x62, [true])], treeAb.reads p.1 p.2)
      ∧ readerBits holdsAb = [((0x61 : Byte), [false]), (0x62, [true])].flatMap Prod.snd
        ++ (List.replicate 6 false ++ List.replicate 8 true)
      ∧ [((0x61 : Byte), [false]), (0x62, [true])].length ≤ holdsAb.count.toNat ∧ holdsAb.wclosed = false)
    ∧ (decode 0x5F00000000000000 = .instr .decompress ∧ (∃ t, exec .decompress (ready [0xB0, 0x80, 0, 0, 0, 0x80]) = .next t)
      ∧ (ready [0xB0, 0x80, 0, 0, 0, 0x80]).src.flatMap msbBits
        = (Machine.Tree.leaf 0 0x61).bits ++ msbBits (1 : Word) ++ [((0x61 : Byte), [false])].flatMap Prod.snd
          ++ List.replicate 6 false
      ∧ (Machine.Tree.leaf 0 0x61).size ≤ Config.nodeCap
      ∧ (∀ p ∈ [((0x61 : Byte), [false])], (Machine.Tree.leaf 0 0x61).reads p.1 p.2)
      ∧ [((0x61 : Byte), [false])].length ≤ (1 : Word).toNat) := by
  refine ⟨by decide, ⟨by decide, nextIs_some (by decide +kernel)⟩,
    ⟨by decide, nextIs_some (by decide +kernel), holdsAb_tree, treeAb_reads, by decide, by decide, by decide⟩,
    ⟨by decide, nextIs_some (by decide +kernel), by decide, by decide, fun p hp => ?_, by decide⟩⟩
  simp only [List.mem_singleton] at hp
  subst hp
  simp [Machine.Tree.reads]

theorem witness_ResetState : { holdsAb with inputs := [.reset] }.inputs = .reset :: [] := by decide

/-- The selectors at the ends of both ranges. -/
theorem witness_StatReadsStatus : ((0 : Word), statusWord (ready [])) ∈ [((0 : Word), statusWord (ready [])), (4, 0)]
    ∧ 4 < (5 : Word).toNat ∧ 4 < (0xFFFFFFFF : Word).toNat := by decide

theorem witness_ResponseWordFields : (okResponse resultNone).result = some resultNone := by decide

/-- A micro command, STAT with and without error, a failed micro command, a macro command that ends either way. -/
theorem witness_CommandEpilogue :
    (∃ t, exec .size (ready []) = .next t) ∧ (∃ t, exec (.stat 0) (ready []) = .next t)
    ∧ (∃ t, exec (.stat 5) (ready []) = .next t) ∧ (∃ t, exec .pop (ready []) = .next t)
    ∧ (∃ t, exec .compress (ready []) = .next t) ∧ ∃ t, exec .decompress (ready [0x58, 0x4B, 0x1D, 0x91, 0x62, 0xB9, 0, 0])
      = .next t :=
  ⟨⟨_, rfl⟩, ⟨_, rfl⟩, ⟨_, rfl⟩, ⟨_, rfl⟩, (nextIs_next test_compress_empty).imp fun _ h => h.1,
    (nextIs_next test_decompress_eos).imp fun _ h => h.1⟩

theorem witness_GetbitReturnsNextBit : ((ready []).rcnt = 0 ∧ (ready []).src = [])
    ∧ ((ready [0xB0]).rcnt = 0 ∧ (ready [0xB0]).src = 0xB0 :: [])
    ∧ { ready [] with rcnt := 1 }.rcnt = (0 : Fin 8).succ ∧ { ready [] with rcnt := 8 }.rcnt = (7 : Fin 8).succ := by decide

theorem witness_GetcharReturnsNextByte :
    ({ ready [0x80] with rcnt := 7 }.rcnt.val < 8 ∧ (ready [0x80]).rcnt.val < 8 ∧ (ready [0x80]).src = 0x80 :: [])
    ∧ { ready [] with rcnt := 8 }.rcnt = 8 ∧ ({ ready [] with rcnt := 7 }.rcnt.val < 8 ∧ (ready []).src = []) := by decide

theorem witness_GetintReturnsNextWord : 32 ≤ (readerBits (ready [0, 0, 0, 11])).length
    ∧ ((ready [0, 0, 0, 11]).rcnt = 0 ∧ (ready [0, 0, 0, 11]).src = 0 :: 0 :: 0 :: 11 :: [])
    ∧ (readerBits { ready [0, 0, 11] with rcnt := 7 }).length < 32 := by decide

theorem witness_ReaderLaw : (ready [0xB0]).rcnt = 0 ∧ 8 ≤ 8 * (ready [0xB0]).src.length
    ∧ 8 = 8 * (ready [0xB0]).src.length := by decide

theorem witness_PutbitAppendsBit : (shut (ready [])).wclosed = true
    ∧ ((ready []).wclosed = false ∧ (ready []).wcnt = (0 : Fin 7).castSucc)
    ∧ ({ ready [] with wcnt := 6 }.wclosed = false ∧ { ready [] with wcnt := 6 }.wcnt = (6 : Fin 7).castSucc)
    ∧ ({ ready [] with wcnt := 7 }.wclosed = false ∧ { ready [] with wcnt := 7 }.wcnt = 7) := by decide

/-- For PUTCHAR, PUTINT and WCOUNT. -/
theorem witness_PutcharAppendsByte : (shut (ready [])).wclosed = true ∧ (ready []).wclosed = false := by decide
theorem witness_PutintAppendsWord : (shut (ready [])).wclosed = true ∧ (ready []).wclosed = false := by decide
theorem witness_WcountWritesCount : (shut (ready [])).wclosed = true ∧ (ready []).wclosed = false := by decide

theorem witness_CloseFlushesOnce : (shut (ready [])).wclosed = true
    ∧ ((ready []).wclosed = false ∧ (ready []).wcnt = 0)
    ∧ ({ ready [] with wcnt := 7 }.wclosed = false ∧ { ready [] with wcnt := 7 }.wcnt ≠ 0) := by decide

theorem witness_WriterLaw : (∀ i ∈ [Instr.putbit true, .putchar 0xAB, .putint 0xDEADBEEF], isPut i = true)
    ∧ (ready []).wclosed = false ∧ (ready []).wcnt = 0 := by decide

theorem witness_ComparatorOrder : before false ⟨1, 0, 0⟩ ⟨1, 1, 0⟩ = true ∧ before false ⟨1, 1, 0⟩ ⟨2, 0, 0⟩ = true
    ∧ before true ⟨2, 0, 0⟩ ⟨1, 1, 0⟩ = true ∧ before true ⟨1, 1, 0⟩ ⟨1, 0, 0⟩ = true := by decide

/-- A full queue. -/
def fullQueue : State := { ready [] with heap := List.replicate Config.pqCap ⟨7, 0, 0⟩ }

theorem replicate_ordered (desc : Bool) (k : Nat) (e : Element) : heapOrdered desc (List.replicate k e) := by
  have h : ∀ m, m < (List.replicate k e).length → heapGet (List.replicate k e) m = e := fun m hm => by
    rw [heapGet_eq hm]; exact List.getElem_replicate ..
  intro n _ hn
  rw [h n hn, h _ (Nat.lt_of_le_of_lt (by simp only [parentIndex]; omega) hn)]
  cases desc <;> simp [before]

theorem fullQueue_ordered : heapOrdered fullQueue.pqDesc fullQueue.heap := replicate_ordered _ _ _

theorem witness_PushInsertsOnce : fullQueue.heap.length = Config.pqCap ∧ (ready []).heap.length < Config.pqCap
    ∧ { fullQueue with heap := fullQueue.heap.tail }.heap.length < Config.pqCap
    ∧ heapOrdered fullQueue.pqDesc fullQueue.heap :=
  ⟨by decide +kernel, by decide +kernel, by decide +kernel, fullQueue_ordered⟩

theorem witness_PushSiftsUp : fullQueue.heap.length = Config.pqCap
    ∧ { fullQueue with heap := fullQueue.heap.tail }.heap.length < Config.pqCap := by decide +kernel

theorem witness_TopReturnsRoot : (ready []).heap = [] ∧ { ready [] with heap := [⟨1, 2, 3⟩] }.heap = ⟨1, 2, 3⟩ :: [] := by
  decide

theorem witness_PopRemovesRoot : (ready []).heap = [] ∧ fullQueue.heap = ⟨7, 0, 0⟩ :: fullQueue.heap.tail
    ∧ heapOrdered fullQueue.pqDesc fullQueue.heap := ⟨by decide +kernel, by decide +kernel, fullQueue_ordered⟩

theorem witness_PopSiftsDown : (ready []).heap = [] ∧ { ready [] with heap := [⟨1, 2, 3⟩] }.heap = [⟨1, 2, 3⟩]
    ∧ { ready [] with heap := [⟨1, 0, 0⟩, ⟨2, 0, 0⟩] }.heap = ⟨1, 0, 0⟩ :: ⟨2, 0, 0⟩ :: []
    ∧ fullQueue.heap = ⟨7, 0, 0⟩ :: ⟨7, 0, 0⟩ :: fullQueue.heap.tail.tail ∧ fullQueue.heap.length ≤ Config.pqCap := by decide +kernel

theorem witness_SizeCountsElements : fullQueue.heap.length ≤ Config.pqCap := by decide +kernel

theorem witness_QueueLaw : (ready []).heap = [] ∧ fullQueue.heap.length ≤ Config.pqCap := by decide +kernel

theorem witness_FreqCountsInput : { ready [0x61] with inbufCap := 1 }.src.length ≤ { ready [0x61] with inbufCap := 1 }.inbufCap
    ∧ { ready [0x61, 0x62] with inbufCap := 1 }.inbufCap < { ready [0x61, 0x62] with inbufCap := 1 }.src.length := by decide

/-- A buffered input with its frequency table. -/
def counted : State := { ready [] with inbuf := [0x61, 0x61, 0x62], freq := inputFreq [0x61, 0x61, 0x62], count := 3 }

theorem counted_freq : FreqInv counted := fun b => inputFreq_toNat (by decide) b

theorem counted_wf : counted.tablesWf = true :=
  (tablesWf_iff _).2 ⟨by decide, by decide, by decide, by decide, by decide, codesFit_replicate⟩

/-- An input that fits, and one byte too many. -/
theorem witness_FrequencySum : counted.tablesWf = true ∧ counted.src.length ≤ counted.inbufCap
    ∧ { counted with inbufCap := 3, src := [1, 2, 3, 4] }.tablesWf = true
    ∧ { counted with inbufCap := 3, src := [1, 2, 3, 4] }.inbufCap < [1, 2, 3, 4].length :=
  ⟨counted_wf, by decide, (tablesWf_iff _).2 ⟨by decide, by decide, by decide, by decide, by decide, codesFit_replicate⟩,
    by decide⟩

/-- The same state with a command to run next. -/
def countedThen (w : CmdWord) : State := { counted with inputs := [.command w] }

theorem witness_FrequencyInvariantKept : (countedThen 0x3000000000000000).tablesWf = true
    ∧ FreqInv (countedThen 0x3000000000000000) ∧ ∃ t, step (countedThen 0x3000000000000000) = .next t :=
  ⟨counted_wf, counted_freq, nextIs_some (by decide +kernel)⟩

theorem witness_BuildMakesTree : usedSymbols (ready []).freq = [] ∧ usedSymbols counted.freq ≠ [] := by decide +kernel

theorem witness_BuildSumLaw : counted.tablesWf = true ∧ FreqInv counted
    ∧ huffmanTree counted.freq = some (.inner 2 (.leaf 1 0x62) (.leaf 0 0x61)) :=
  ⟨counted_wf, counted_freq, by decide +kernel⟩

/-- An invariant of the writer that a step meets, and the other invariants. -/
theorem witness_WriterInvariantKept : WriterInv (countedThen 0x1900000000000061)
    ∧ ∃ t, step (countedThen 0x1900000000000061) = .next t :=
  ⟨⟨by decide, by decide⟩, nextIs_some (by decide +kernel)⟩

theorem witness_HeapInvariantKept : HeapInv (countedThen 0x2000C40100000002)
    ∧ ∃ t, step (countedThen 0x2000C40100000002) = .next t :=
  ⟨heapInv_nil rfl, nextIs_some (by decide +kernel)⟩

/-- The step that runs BUILD answers a next state (R195: BUILD never fails). -/
theorem countedThen_build : ∃ t, step (countedThen 0x3100000000000000) = .next t := by
  obtain ⟨u, hu, -⟩ := buildTree_frame ((countedThen 0x3100000000000000).setInputs [])
  have h : step (countedThen 0x3100000000000000)
      = execBuild ((countedThen 0x3100000000000000).setInputs []) := rfl
  rw [h, execBuild, hu]
  exact ⟨_, rfl⟩

theorem witness_TableBoundsKept : (countedThen 0x3100000000000000).tablesWf = true
    ∧ ∃ t, step (countedThen 0x3100000000000000) = .next t := ⟨counted_wf, countedThen_build⟩

theorem witness_TreeInvariantKept : TreeInv holdsAb ∧ holdsAb.treeEmpty = false ∧ TreeInv (countedThen 0x3100000000000000)
    ∧ ∃ t, step (countedThen 0x3100000000000000) = .next t :=
  ⟨fun _ => ⟨treeAb, holdsAb_tree⟩, by decide, treeInv_of (.inl rfl), countedThen_build⟩

theorem witness_StatusCodesKept : StatusInv (countedThen 0x2200000000000000)
    ∧ ∃ t, step (countedThen 0x2200000000000000) = .next t :=
  ⟨⟨by decide, by decide⟩, nextIs_some (by decide +kernel)⟩

theorem witness_EveryStepAnswers : (countedThen 0x4F00000000000000).tablesWf = true
    ∧ TreeInv (countedThen 0x4F00000000000000) := ⟨counted_wf, treeInv_of (.inl rfl)⟩

theorem witness_CodesAreTreePaths : (ready []).treeEmpty = true ∧ HoldsTree holdsAb treeAb
    ∧ holdsAb.node.length ≤ Config.nodeCap := ⟨by decide, holdsAb_tree, by decide⟩

/-- After BUILD and CODES some symbol has a code, which begins itself. -/
theorem witness_PrefixLaw : ∃ t, runCommands [.build, .codes] counted = .next t
    ∧ decide (t.codeAt 0x61 ≠ [] ∧ t.codeAt 0x62 ≠ [] ∧ t.codeAt 0x61 <+: t.codeAt 0x61) = true :=
  nextIs_next (p := fun t => decide (t.codeAt 0x61 ≠ [] ∧ t.codeAt 0x62 ≠ [] ∧ t.codeAt 0x61 <+: t.codeAt 0x61))
    (by decide +kernel)

theorem witness_WtreeWritesPreorder : ((ready []).treeEmpty = true ∧ (ready []).wclosed = false)
    ∧ (HoldsTree holdsAb treeAb ∧ holdsAb.node.length ≤ Config.nodeCap ∧ holdsAb.wclosed = false)
    ∧ ((shut (ready [])).treeEmpty = true ∧ (shut (ready [])).wclosed = true)
    ∧ HoldsTree (shut holdsAb) treeAb ∧ (shut holdsAb).node.length ≤ Config.nodeCap ∧ (shut holdsAb).wclosed = true :=
  ⟨by decide, ⟨holdsAb_tree, by decide, by decide⟩, by decide,
    ⟨by decide, by decide, by decide, by decide⟩, by decide, by decide⟩

theorem witness_WpayloadWritesCodes : (ready []).wclosed = false
    ∧ ((shut holdsAb).wclosed = true ∧ ∀ b ∈ (shut holdsAb).inbuf, (shut holdsAb).codeAt b = [])
    ∧ ∃ b ∈ (shut holdsAb).inbuf, { shut holdsAb with code := Vector.replicate 256 [true] }.codeAt b ≠ [] :=
  ⟨by decide, by decide +kernel, 0x61, by decide, by decide +kernel⟩

theorem witness_CompressionLaw : (ready [0x61]).src.length ≤ (ready [0x61]).inbufCap
    ∧ { ready [0x61] with inbufCap := 1 }.src.length ≤ { ready [0x61] with inbufCap := 1 }.inbufCap
    ∧ huffmanTree (inputFreq (ready []).src) = none ∧ huffmanTree (inputFreq (ready [0x61]).src) = some (.leaf 0 0x61) := by
  decide +kernel

theorem witness_CompressTooLong :
    { ready [0x61, 0x62] with inbufCap := 1 }.inbufCap < { ready [0x61, 0x62] with inbufCap := 1 }.src.length := by decide

/-- COMPRESS of an input that fits answers a next state (R226). -/
theorem compress_answers {s : State} (h : s.src.length ≤ s.inbufCap) : ∃ t, exec .compress s = .next t := by
  obtain ⟨u, hu, -⟩ := compressPhases_ok h
  have h : exec .compress s = runMacro compressPhases s := rfl
  rw [h, runMacro, hu]
  exact ⟨_, rfl⟩

theorem witness_CompressionDeterministic : (ready []).src = (holdsAb.setReader 0 0 []).src
    ∧ (ready []).src.length ≤ (ready []).inbufCap ∧ (∃ t, exec .compress (ready []) = .next t)
    ∧ ∃ t, exec .compress (holdsAb.setReader 0 0 []) = .next t :=
  ⟨by decide, by decide, compress_answers (by decide), compress_answers (by decide)⟩

/-- A macro command's sequence without error. -/
def quiet (is : List Instr) (s : State) : Bool :=
  nextIs (runCommands is s) fun t => decide (∀ r ∈ t.resps.drop s.resps.length, r.err = 0)

/-- The commands before a phase without error, the phase with one, then CLOSE. -/
def failsAt (earlier : List Instr) (i : Instr) (s : State) : Bool :=
  quiet earlier s && nextIs (runCommands earlier s) fun t =>
    nextIs (exec i t) fun u => decide (u.lastErr ≠ 0) && nextIs (exec .close u) fun _ => true

/-- Both sequences without error, and each phase failing: an input too long, an empty SRC, no count, no symbol. -/
theorem witness_MacroIsItsSequence :
    quiet [.init false, .freq, .build, .codes, .wtree, .wcount, .wpayload, .close] (ready []) = true
    ∧ quiet [.init false, .rtree, .rcount, .decode, .close] (ready [0x80, 0, 0, 0, 0, 0]) = true
    ∧ failsAt [.init false] .freq { ready [0x61, 0x62] with inbufCap := 1 } = true
    ∧ failsAt [.init false] .rtree (ready []) = true
    ∧ failsAt [.init false, .rtree] .rcount (ready [0x80, 0]) = true
    ∧ failsAt [.init false, .rtree, .rcount] .decode (ready [0x80, 0xFF, 0, 0, 0, 0]) = true := by
  decide +kernel

/-- A comb of n + 1 leaves. -/
def comb : Nat → Machine.Tree
  | 0 => .leaf 0 0
  | n + 1 => .inner 0 (.leaf 0 0) (comb n)

/-- A tree of the largest size, an SRC that begins with a tree, one that ends inside a tree. -/
theorem witness_RtreeRebuildsTree : (comb 255).size = Config.nodeCap
    ∧ (readerBits (ready [0x80, 0x7F]) = (Machine.Tree.leaf 0 0).bits ++ List.replicate 7 true
      ∧ (Machine.Tree.leaf 0 0).size ≤ Config.nodeCap)
    ∧ ∀ t : Machine.Tree, t.size ≤ Config.nodeCap → ¬ t.bits <+: readerBits (ready []) :=
  ⟨by decide +kernel, by decide, fun t _ h => by
    have : t.bits = [] := List.prefix_nil.1 h
    cases t <;> simp [Machine.Tree.bits] at this⟩

/-- 64 zero bytes hold no tree of at most 511 nodes: RTREE ends in Capacity (95_test_vectors.md V74). -/
theorem witness_RtreeRebuildsTree_capacity : ∀ t : Machine.Tree, t.size ≤ Config.nodeCap →
    ¬ t.bits <+: readerBits (ready (List.replicate 64 0)) := by
  rintro t ht ⟨rest, hb⟩
  obtain ⟨u, hu, -⟩ := readTree_ok t hb.symm ht
  have h : (match readTree (ready (List.replicate 64 0)) with | .ok _ _ => true | .raised _ _ => false | .stuck _ => true)
      = false := by decide +kernel
  rw [hu] at h
  cases h

theorem witness_RcountReadsCount : readerBits (ready [0, 0, 0, 11, 0xFF]) = msbBits (11 : Word) ++ List.replicate 8 true
    ∧ (readerBits { ready [0, 0, 0] with rcnt := 7 }).length < 32 := by decide

/-- Count 0; no tree; the two symbols of 0b01; a count the bits left cannot satisfy; a closed writer. -/
theorem witness_DecodeWalksTree : (ready []).count = 0
    ∧ ({ ready [] with count := 1 }.count ≠ 0 ∧ { ready [] with count := 1 }.treeEmpty = true)
    ∧ (HoldsTree holdsAb treeAb ∧ (∀ p ∈ [((0x61 : Byte), [false]), (0x62, [true])], treeAb.reads p.1 p.2)
      ∧ readerBits holdsAb = [((0x61 : Byte), [false]), (0x62, [true])].flatMap Prod.snd
        ++ (List.replicate 6 false ++ List.replicate 8 true)
      ∧ [((0x61 : Byte), [false]), (0x62, [true])].length = holdsAb.count.toNat ∧ holdsAb.wclosed = false)
    ∧ (HoldsTree { holdsAb with src := [] } treeAb ∧ readerBits { holdsAb with src := [] } = [] ++ []
      ∧ 0 < holdsAb.count.toNat ∧ ∀ b bits, treeAb.reads b bits → ¬ bits <+: [])
    ∧ HoldsTree (shut holdsAb) treeAb ∧ treeAb.reads 0x61 [false]
      ∧ readerBits (shut holdsAb) = [((0x61 : Byte), [false])].flatMap Prod.snd
        ++ (true :: (List.replicate 6 false ++ List.replicate 8 true))
      ∧ (shut holdsAb).count ≠ 0 ∧ (shut holdsAb).wclosed = true := by
  refine ⟨by decide, by decide, ⟨holdsAb_tree, treeAb_reads, by decide, by decide, by decide⟩,
    ⟨⟨by decide, by decide, by decide, by decide⟩, by decide, by decide, fun b bits h hp => ?_⟩,
    ⟨by decide, by decide, by decide, by decide⟩, ?_, by decide, by decide, by decide⟩
  · exact Machine.Tree.reads_ne_nil h (List.prefix_nil.1 hp)
  · simp [Machine.Tree.reads, treeAb, Machine.Tree.paths]

/-- The artifact of the empty input, and that of "a" (95_test_vectors.md V3), six bits after it. -/
theorem witness_DecompressDecodesArtifact :
    ((ready [0x80, 0, 0, 0, 0, 0]).src.flatMap msbBits
        = (Machine.Tree.leaf 0 0).bits ++ msbBits (0 : Word) ++ ([] : List (Byte × List Bool)).flatMap Prod.snd
          ++ List.replicate 7 false
      ∧ ([] : List (Byte × List Bool)).length = (0 : Word).toNat)
    ∧ ((ready [0xB0, 0x80, 0, 0, 0, 0x80]).src.flatMap msbBits
        = (Machine.Tree.leaf 0 0x61).bits ++ msbBits (1 : Word) ++ [((0x61 : Byte), [false])].flatMap Prod.snd
          ++ List.replicate 6 false
      ∧ (Machine.Tree.leaf 0 0x61).size ≤ Config.nodeCap ∧ [((0x61 : Byte), [false])].length = (1 : Word).toNat
      ∧ ∀ p ∈ [((0x61 : Byte), [false])], (Machine.Tree.leaf 0 0x61).reads p.1 p.2) :=
  ⟨by decide, by decide, by decide, by decide, fun p hp => by
    simp only [List.mem_singleton] at hp
    subst hp
    simp [Machine.Tree.reads]⟩

theorem witness_RoundTrip : (ready []).tablesWf = true ∧ (ready []).src.length ≤ (ready []).inbufCap
    ∧ (∃ t, exec .compress (ready []) = .next t
      ∧ t.snk = (ready []).snk ++ [0x80, 0, 0, 0, 0, 0])
    ∧ (ready [0x80, 0, 0, 0, 0, 0, 0xFF]).src = [0x80, 0, 0, 0, 0, 0] ++ [0xFF] :=
  ⟨(tablesWf_iff _).2 ⟨by decide, by decide, by decide, by decide, by decide, codesFit_replicate⟩, by decide,
    (nextIs_next test_compress_empty).imp fun _ h => ⟨h.1, (of_decide_eq_true h.2).1⟩, by decide⟩

theorem witness_StreamsMoveForward : ∃ t, exec .getchar (ready [0x61, 0x62]) = .next t := nextIs_some (by decide +kernel)

/-- Every command named in the frames answers a next state. -/
theorem witness_StreamCommandFrames :
    ([Instr.getbit, .getchar, .getint, .putbit true, .putchar 0, .putint 0, .wtree, .wcount, .wpayload, .close, .decode,
      .rcount, .rtree].all fun i => nextIs (exec i holdsAb) fun _ => true) = true := by decide +kernel

theorem witness_TableCommandFrames :
    ([Instr.top, .size, .pop, .push 1 2 3, .freq, .build, .codes].all fun i => nextIs (exec i holdsAb) fun _ => true)
      = true := by decide +kernel

theorem witness_ErrorsOfCommands : ∃ t, exec .pop (ready []) = .next t := nextIs_some (by decide +kernel)

end Sys2Proof.Tests
end

section
/-! The comparator as the order of a rank (10_state.md R31), and the state after reset (10_state.md R40). -/

namespace Sys2Proof.Machine

/-! ### The comparator -/

theorem before_iff_rank_lt {desc : Bool} {a b : Element} : before desc a b = true ↔ rank desc a < rank desc b := by
  rw [before_eq, decide_eq_true_iff]

theorem not_before_iff_rank_le {desc : Bool} {a b : Element} : before desc a b = false ↔ rank desc b ≤ rank desc a := by
  rw [before_eq, decide_eq_false_iff_not, not_lt]

/-- R31: the key is the frequency and the tie key, and nothing is lost in their concatenation. -/
theorem elementKey_inj {a b : Element} : elementKey a = elementKey b ↔ a.freq = b.freq ∧ a.tie = b.tie := by
  rw [← BitVec.toNat_inj, elementKey_toNat, elementKey_toNat, ← BitVec.toNat_inj, ← BitVec.toNat_inj]
  have hta : a.tie.toNat < 512 := a.tie.isLt
  have htb : b.tie.toNat < 512 := b.tie.isLt
  omega

theorem rank_inj {desc : Bool} {a b : Element} : rank desc a = rank desc b ↔ elementKey a = elementKey b := by
  cases desc <;> simp [rank, BitVec.toNat_inj]

/-- Descending is the converse of ascending. -/
theorem before_true_eq (a b : Element) : before true a b = before false b a := rfl

theorem before_irrefl (desc : Bool) (a : Element) : before desc a a = false :=
  not_before_iff_rank_le.mpr le_rfl

theorem before_trans {desc : Bool} {a b c : Element} (hab : before desc a b = true) (hbc : before desc b c = true) :
    before desc a c = true :=
  before_iff_rank_lt.mpr (lt_trans (before_iff_rank_lt.mp hab) (before_iff_rank_lt.mp hbc))

/-- Elements are equivalent exactly if their keys are equal: `node` plays no part. -/
theorem before_incomparable_iff (desc : Bool) (a b : Element) :
    (before desc a b = false ∧ before desc b a = false) ↔ a.freq = b.freq ∧ a.tie = b.tie :=
  calc (before desc a b = false ∧ before desc b a = false)
      ↔ rank desc b ≤ rank desc a ∧ rank desc a ≤ rank desc b := and_congr not_before_iff_rank_le not_before_iff_rank_le
    _ ↔ rank desc a = rank desc b := by rw [and_comm, le_antisymm_iff]
    _ ↔ a.freq = b.freq ∧ a.tie = b.tie := rank_inj.trans elementKey_inj

/-- Settles O23: the comparator compares ranks, which are integers, and equal ranks are equal keys. -/
theorem comparatorOrder : Obligations.ComparatorOrder :=
  ⟨before_false_iff, before_true_eq, before_irrefl, fun _ _ _ _ => before_trans, before_incomparable_iff⟩

/-! ### Reset -/

@[simp] theorem State.reset_freqAt (b : Byte) : State.reset.freqAt b = 0 := by
  simp [State.freqAt, State.reset]

@[simp] theorem State.reset_codeLen (b : Byte) : State.reset.codeLen b = 0 := by
  simp [State.codeLen, State.codeAt, State.reset]

/-- R40: reset leaves the reset state; the streams, the host's moves and the responses are not HUFFENG's. -/
theorem resetUnits_eq (s : State) : resetUnits s = { State.reset with
    inbufCap := s.inbufCap, src := s.src, snk := s.snk, inputs := s.inputs, resps := s.resps } := rfl

/-- INIT 0 is reset and then the epilogue of a command without error, which records what reset leaves (R130, R132). -/
theorem exec_init_false (s : State) :
    exec (.init false) s = .next (completeCommand 0 resultNone (resetUnits s)) := rfl

theorem step_reset {s : State} {rest : List HostEvent} (h : s.inputs = .reset :: rest) :
    step s = .next (resetUnits (s.setInputs rest)) := by
  rw [step, h]; rfl

/-- R40's table of reset values, register by register. -/
theorem State.reset_registers :
    State.reset.rbuf = 0 ∧ State.reset.rcnt = 0 ∧ State.reset.wbuf = 0 ∧ State.reset.wcnt = 0
    ∧ State.reset.wclosed = false ∧ State.reset.pqSize = 0 ∧ State.reset.pqDesc = false ∧ State.reset.nNodes = 0
    ∧ State.reset.root = 0 ∧ State.reset.treeEmpty = true ∧ State.reset.count = 0 ∧ State.reset.inLen = 0
    ∧ State.reset.lastErr = 0 ∧ State.reset.lastPhase = 0
    ∧ (∀ b, State.reset.freqAt b = 0) ∧ ∀ b, State.reset.codeLen b = 0 :=
  ⟨rfl, rfl, rfl, rfl, rfl, rfl, rfl, rfl, rfl, rfl, rfl, rfl, rfl, rfl, State.reset_freqAt, State.reset_codeLen⟩

/-- Settles O7: both INIT 0 and the reset signal are `resetUnits`, which leaves the reset state. -/
theorem resetState : Obligations.ResetState := by
  refine ⟨State.reset_registers, fun s => ?_, fun s rest h => ?_⟩
  · rw [exec_init_false, resetUnits_eq]; rfl
  · rw [step_reset h, resetUnits_eq]; rfl

end Sys2Proof.Machine
end

section
/-! Reserved words (30_encoding.md R104, R105). -/

namespace Sys2Proof.Machine

/-- R104: the opcode map selects a command for the listed OP values and for no other. -/
theorem decodeRow_instr_iff {op : BitVec 8} {w : CmdWord} :
    (∃ i, decodeRow op w = .instr i) ↔ op.toNat ∈ listedOps := by
  unfold decodeRow
  split <;> simp_all [listedOps]

/-- R102, R105: a word selects a command exactly if RSV is 0 and OP is listed. -/
theorem decode_instr_iff {w : CmdWord} :
    (∃ i, decode w = .instr i) ↔ rsvField w = 0 ∧ (opField w).toNat ∈ listedOps := by
  rw [decode, ← decodeRow_instr_iff (w := w)]
  by_cases hr : rsvField w = 0
  · rw [if_pos hr, and_iff_right hr]
  · rw [if_neg hr]
    exact ⟨fun ⟨_, h⟩ => (nomatch h), fun h => absurd h.1 hr⟩

theorem illegalCommand_eq (s : State) : illegalCommand s = { s with
    lastErr := 5, lastPhase := 0, resps := s.resps ++ [{ err := 5, phase := 0, result := none }] } := rfl

theorem issue_reserved {w : CmdWord} {y : Reserved} (h : decode w = .reserved y) (s : State) :
    issue w s = .next (illegalCommand s) := by
  rw [issue, h]

theorem issue_not_instr {w : CmdWord} (h : ¬ ∃ i, decode w = .instr i) (s : State) :
    issue w s = .next (illegalCommand s) := by
  cases hd : decode w with
  | instr i => exact absurd ⟨i, hd⟩ h
  | reserved y => exact issue_reserved hd s

/-- R131: STAT has five selectors. -/
theorem statValue_eq_none {sel : Word} (h : 4 < sel.toNat) (s : State) : statValue sel s = none := by
  unfold statValue
  split
  iterate 5 · omega
  rfl

theorem exec_stat_illegal {sel : Word} (h : 4 < sel.toNat) (s : State) :
    exec (.stat sel) s = .next (illegalCommand s) := by
  show execStat sel s = _
  rw [execStat, statValue_eq_none h]

/-- Settles O3: a word selects a command exactly if RSV is 0 and OP is listed (`decode_instr_iff`), and every other word
and every STAT selector above 4 is the illegal command. -/
theorem reservedWordIsIllegal : Obligations.ReservedWordIsIllegal := by
  refine ⟨fun s w h => ?_, fun w hr ho => decode_instr_iff.mpr ⟨hr, ho⟩, fun s sel h => ?_, by decide +kernel⟩
  · have hnot : ¬ ∃ i, decode w = .instr i := by rw [decode_instr_iff]; tauto
    rw [issue_not_instr hnot, illegalCommand_eq]
  · rw [exec_stat_illegal h, illegalCommand_eq]

end Sys2Proof.Machine
end

section
/-! COMPRESS and DECOMPRESS as sequences of micro commands (30_encoding.md R109; 44_codec_encode.md R225;
45_codec_decode.md R255). A phase of the envelope `runMacro` and the micro command of the same name run one procedure,
which neither reads nor writes the status registers and the responses (`Blind`), so the two runs differ in those only. -/

namespace Sys2Proof.Machine

/-! ### One phase and its micro command -/

/-- The micro command `i` runs the procedure of the phase `p`, and the procedure does not see the status registers and
the responses. -/
def RunsPhase (i : Instr) (p : Phase) : Prop :=
  Blind p.run ∧ ∃ f : Unit → State → Result, ∀ s, exec i s = finishMicro (p.run s) f

theorem runsPhase_freq : RunsPhase .freq ⟨phaseFreq, analyze⟩ := ⟨blind_analyze, _, fun _ => rfl⟩
theorem runsPhase_build : RunsPhase .build ⟨phaseBuild, buildTree⟩ := ⟨blind_buildTree, _, fun _ => rfl⟩
theorem runsPhase_codes : RunsPhase .codes ⟨phaseCodes, makeCodes⟩ := ⟨blind_makeCodes, _, fun _ => rfl⟩
theorem runsPhase_wtree : RunsPhase .wtree ⟨phaseWtree, writeTree⟩ := ⟨blind_writeTree, _, fun _ => rfl⟩
theorem runsPhase_wcount : RunsPhase .wcount ⟨phaseWcount, writeCount⟩ := ⟨blind_writeCount, _, fun _ => rfl⟩
theorem runsPhase_wpayload : RunsPhase .wpayload ⟨phaseWpayload, writePayload⟩ := ⟨blind_writePayload, _, fun _ => rfl⟩
theorem runsPhase_rtree : RunsPhase .rtree ⟨phaseRtree, readTree⟩ := ⟨blind_readTree, _, fun _ => rfl⟩
theorem runsPhase_rcount : RunsPhase .rcount ⟨phaseRcount, readCount⟩ := ⟨blind_readCount, _, fun _ => rfl⟩
theorem runsPhase_decode : RunsPhase .decode ⟨phaseDecode, decodeSymbols⟩ := ⟨blind_decodeSymbols, _, fun _ => rfl⟩
theorem runsPhase_close : RunsPhase .close ⟨phaseClose, closeWriter⟩ := ⟨blind_closeWriter, _, fun _ => rfl⟩

theorem errCode_ne_zero (e : Err) : errCode e ≠ 0 := by
  cases e <;> decide

/-- A blind procedure leaves the responses as they are: it is its own run on the state with its own status. -/
theorem Blind.all_resps {α : Type} {r : State → Res α} (h : Blind r) (s : State) :
    (r s).All fun u => u.resps = s.resps := by
  have hself : r s = (r s).mapState fun u => u.withStatus s.lastErr s.lastPhase s.resps :=
    h s s.lastErr s.lastPhase s.resps
  rw [hself]
  cases r s with
  | ok a u => exact rfl
  | raised x u => exact rfl
  | stuck f => trivial

/-- What a micro command and the phase of its procedure have in common, whatever the phase finds in the status registers
and the responses: both end without error, or with the same error, and in the same state but for those. -/
theorem RunsPhase.exec_next {i : Instr} {p : Phase} (h : RunsPhase i p) {s t : State} (ht : exec i s = .next t) :
    (t.lastErr = 0 ∧ (∃ x, t.resps = s.resps ++ [okResponse x])
        ∧ ∀ e q l, p.run (s.withStatus e q l) = .ok () (t.withStatus e q l))
      ∨ ∃ x : Err, t.lastErr = errCode x ∧ t.resps = s.resps ++ [errResponse x 0]
        ∧ ∀ e q l, p.run (s.withStatus e q l) = .raised x (t.withStatus e q l) := by
  obtain ⟨hb, f, hf⟩ := h
  rw [hf] at ht
  have hresps := hb.all_resps s
  rcases finishMicro_next ht with ⟨a, u, hu, rfl⟩ | ⟨x, u, hu, rfl⟩ <;> rw [hu, Res.All] at hresps <;> rw [← hresps]
  · exact .inl ⟨rfl, ⟨f a u, rfl⟩, fun e q l => by rw [hb, hu]; rfl⟩
  · exact .inr ⟨x, rfl, rfl, fun e q l => by rw [hb, hu]; rfl⟩

/-- The envelope's `Close()` leaves what CLOSE leaves, but for the status registers and the responses. -/
theorem closeAtEnd_of_exec_close {s t : State} (h : exec .close s = .next t) (e q : BitVec 4) (l : List Response) :
    closeAtEnd (s.withStatus e q l) = t.withStatus e q l := by
  rcases runsPhase_close.exec_next h with ⟨-, -, hrun⟩ | ⟨x, -, -, hrun⟩ <;>
    rw [closeAtEnd, show closeWriter _ = _ from hrun e q l]

/-! ### Sequences -/

theorem runCommands_cons_next {i : Instr} {is : List Instr} {s t : State} :
    runCommands (i :: is) s = .next t ↔ ∃ u, exec i s = .next u ∧ runCommands is u = .next t := by
  rw [runCommands]
  cases exec i s <;> simp

theorem runCommands_append_next {is js : List Instr} {s t : State} :
    runCommands (is ++ js) s = .next t ↔ ∃ u, runCommands is s = .next u ∧ runCommands js u = .next t := by
  induction is generalizing s with
  | nil => simp [runCommands]
  | cons i is ih =>
    simp only [List.cons_append, runCommands_cons_next, ih]
    constructor
    · rintro ⟨v, hv, u, hu, ht⟩; exact ⟨u, ⟨v, hv, hu⟩, ht⟩
    · rintro ⟨u, ⟨v, hv, hu⟩, ht⟩; exact ⟨v, hv, u, hu, ht⟩

theorem runCommands_singleton_next {i : Instr} {s t : State} :
    runCommands [i] s = .next t ↔ exec i s = .next t := by
  rw [runCommands_cons_next]
  simp [runCommands]

theorem runPhases_append_of_done {ps qs : List Phase} {s u : State} (h : runPhases ps s = .done u) :
    runPhases (ps ++ qs) s = runPhases qs u := by
  induction ps generalizing s with
  | nil => injection h with h; rw [← h]; rfl
  | cons p ps ih =>
    rw [runPhases] at h
    rw [List.cons_append, runPhases]
    cases hp : p.run s with
    | ok a v => rw [hp] at h; exact ih h
    | raised e v => rw [hp] at h; exact absurd h (by simp)
    | stuck f => rw [hp] at h; exact absurd h (by simp)

/-- Commands that answer without error leave what the phases of the same procedures leave, but for the status registers
and the responses. -/
theorem runPhases_of_runCommands {is : List Instr} {ps : List Phase} (h : List.Forall₂ RunsPhase is ps) :
    ∀ {s t : State}, runCommands is s = .next t → ∃ l, t.resps = s.resps ++ l
      ∧ ((∀ r ∈ l, r.err = 0) →
        ∀ e q k, runPhases ps (s.withStatus e q k) = .done (t.withStatus e q k)) := by
  induction h with
  | nil =>
    intro s t ht
    injection ht with ht
    exact ⟨[], by rw [ht, List.append_nil], fun _ _ _ _ => by rw [ht]; rfl⟩
  | cons hp _ ih =>
    intro s t ht
    obtain ⟨u, hu, ht⟩ := runCommands_cons_next.mp ht
    obtain ⟨l, hl, hrest⟩ := ih ht
    rcases hp.exec_next hu with ⟨-, ⟨x, hx⟩, hrun⟩ | ⟨x, -, hx, -⟩
    · refine ⟨okResponse x :: l, by rw [hl, hx, List.append_assoc]; rfl, fun hq e q k => ?_⟩
      rw [runPhases_cons_ok (hrun e q k), hrest (List.forall_mem_cons.mp hq).2]
    · refine ⟨errResponse x 0 :: l, by rw [hl, hx, List.append_assoc]; rfl, fun hq => ?_⟩
      exact absurd (List.forall_mem_cons.mp hq).1 (errCode_ne_zero x)

/-- INIT 0 and then commands that answer without error leave what the envelope's INIT 0 and the phases of the same
procedures leave, but for the status registers and the responses. -/
theorem runPhases_of_init_runCommands {is : List Instr} {ps : List Phase} (h : List.Forall₂ RunsPhase is ps)
    {s t : State} (ht : runCommands (.init false :: is) s = .next t) : ∃ l, t.resps = s.resps ++ l
      ∧ ((∀ r ∈ l, r.err = 0) →
        runPhases ps (initUnits false s) = .done (t.withStatus s.lastErr s.lastPhase s.resps)) := by
  obtain ⟨u, hu, ht⟩ := runCommands_cons_next.mp ht
  obtain ⟨l, hl, hrest⟩ := runPhases_of_runCommands h ht
  injection hu with hu
  subst hu
  refine ⟨okResponse resultNone :: l, by rw [hl]; exact List.append_assoc .., fun hq => ?_⟩
  exact hrest (List.forall_mem_cons.mp hq).2 s.lastErr s.lastPhase s.resps

/-! ### The envelope -/

/-- R109: an envelope whose micro commands answer without error leaves their final state, with phase 7 and one
response. -/
theorem runMacro_of_runCommands {is : List Instr} {ps : List Phase} (h : List.Forall₂ RunsPhase is ps) {s t : State}
    (ht : runCommands (.init false :: is ++ [.close]) s = .next t) (hq : ∀ r ∈ t.resps.drop s.resps.length, r.err = 0) :
    runMacro ps s = .next { t with
      lastPhase := 7, resps := s.resps ++ [{ err := 0, phase := 7, result := some (resultWord t.count) }] } := by
  obtain ⟨u, hu, ht⟩ := runCommands_append_next.mp ht
  rw [runCommands_singleton_next] at ht
  obtain ⟨l, hl, hdone⟩ := runPhases_of_init_runCommands h hu
  rcases runsPhase_close.exec_next ht with ⟨he, ⟨x, hx⟩, -⟩ | ⟨x, -, hx, -⟩ <;>
    rw [hx, hl, List.append_assoc, List.drop_left, List.forall_mem_append] at hq
  · rw [runMacro, hdone hq.1]
    simp only [closeAtEnd_of_exec_close ht, completeCommand, State.endCommand_eq]
    rw [← he]; rfl
  · exact absurd (List.forall_mem_singleton.mp hq.2) (errCode_ne_zero x)

/-- R225, R255: an envelope whose earlier micro commands answer without error, and one of whose phases then fails, leaves
what CLOSE leaves after the failure, with that phase's number and one response with the error. -/
theorem runMacro_of_failure {is : List Instr} {ps qs : List Phase} {i : Instr} {p : Phase}
    (h : List.Forall₂ RunsPhase is ps) (hp : RunsPhase i p) {s t u v : State}
    (ht : runCommands (.init false :: is) s = .next t) (hq : ∀ r ∈ t.resps.drop s.resps.length, r.err = 0)
    (hu : exec i t = .next u) (he : u.lastErr ≠ 0) (hv : exec .close u = .next v) :
    runMacro (ps ++ p :: qs) s = .next { v with
      lastErr := u.lastErr, lastPhase := p.number,
      resps := s.resps ++ [{ err := u.lastErr, phase := p.number, result := none }] } := by
  obtain ⟨l, hl, hdone⟩ := runPhases_of_init_runCommands h ht
  rw [hl, List.drop_left] at hq
  rcases hp.exec_next hu with ⟨h0, -, -⟩ | ⟨x, hx, -, hrun⟩
  · exact absurd h0 he
  · rw [runMacro, runPhases_append_of_done (hdone hq), runPhases_cons_raised (hrun _ _ _)]
    simp only [closeAtEnd_of_exec_close hv, takeError, State.endCommand_eq]
    rw [← hx]; rfl

/-- Settles O45: each phase runs the procedure of its micro command, so the envelope's run and the run of the micro
commands differ only in the status registers and the responses. -/
theorem macroIsItsSequence : Obligations.MacroIsItsSequence := by
  have hcompress : List.Forall₂ RunsPhase [.freq, .build, .codes, .wtree, .wcount, .wpayload] compressPhases :=
    .cons runsPhase_freq <| .cons runsPhase_build <| .cons runsPhase_codes <| .cons runsPhase_wtree <|
      .cons runsPhase_wcount <| .cons runsPhase_wpayload .nil
  have hdecompress : List.Forall₂ RunsPhase [.rtree, .rcount, .decode] decompressPhases :=
    .cons runsPhase_rtree <| .cons runsPhase_rcount <| .cons runsPhase_decode .nil
  constructor
  · intro s t m seq hm ht hq
    simp only [List.mem_cons, List.not_mem_nil, or_false, Prod.mk.injEq] at hm
    rcases hm with ⟨rfl, rfl⟩ | ⟨rfl, rfl⟩
    · exact runMacro_of_runCommands hcompress ht hq
    · exact runMacro_of_runCommands hdecompress ht hq
  · intro s t u v m i earlier p hm ht hq hu he hv
    simp only [List.mem_cons, List.not_mem_nil, or_false, Prod.mk.injEq] at hm
    rcases hm with ⟨rfl, rfl, rfl, rfl⟩ | ⟨rfl, rfl, rfl, rfl⟩ | ⟨rfl, rfl, rfl, rfl⟩ | ⟨rfl, rfl, rfl, rfl⟩
    · exact runMacro_of_failure .nil runsPhase_freq ht hq hu he hv
    · exact runMacro_of_failure .nil runsPhase_rtree ht hq hu he hv
    · exact runMacro_of_failure (.cons runsPhase_rtree .nil) runsPhase_rcount ht hq hu he hv
    · exact runMacro_of_failure (.cons runsPhase_rtree (.cons runsPhase_rcount .nil)) runsPhase_decode ht hq hu he hv

end Sys2Proof.Machine
end

section
/-! INIT and STAT (40_control.md). -/

namespace Sys2Proof.Machine

/-- R130, R132: INIT is its clearing of the units and then the epilogue of a command without error. -/
theorem exec_init (desc : Bool) (s : State) :
    exec (.init desc) s = .next (completeCommand 0 resultNone (initUnits desc s)) := rfl

/-- Settles O8: the epilogue adds the status registers and the response to what `initUnits` writes. -/
theorem initClearsUnits : Obligations.InitClearsUnits := by
  intro desc s
  rw [exec_init, completeCommand, State.endCommand_eq]
  rfl

/-- R131: a STAT whose selector shows `v` answers with `v` and the present `last_phase`, and changes nothing else. -/
theorem exec_stat_of_statValue {sel v : Word} {s : State} (h : statValue sel s = some v) :
    exec (.stat sel) s = .next { s with
      resps := s.resps ++ [{ err := 0, phase := s.lastPhase, result := some (resultWord v) }] } := by
  show execStat sel s = _
  rw [execStat, h]

/-- Settles O9: the five selectors are the five cases of `statValue`; above 4 it has no value (`exec_stat_illegal`). -/
theorem statReadsStatus : Obligations.StatReadsStatus := by
  refine fun s => ⟨fun sel v hmem => exec_stat_of_statValue ?_, fun sel h => exec_stat_illegal h s⟩
  simp only [List.mem_cons, List.not_mem_nil, or_false, Prod.mk.injEq] at hmem
  rcases hmem with ⟨rfl, rfl⟩ | ⟨rfl, rfl⟩ | ⟨rfl, rfl⟩ | ⟨rfl, rfl⟩ | ⟨rfl, rfl⟩ <;> rfl

end Sys2Proof.Machine
end

section
/-! The bit reader: GETBIT, GETCHAR and GETINT (41_bitstream.md R140 to R142). -/

namespace Sys2Proof.Machine

theorem readerBits_eq_nil {s : State} (h0 : s.rcnt = 0) (hs : s.src = []) : readerBits s = [] := by
  simp [readerBits, h0, hs]

/-! ### GETBIT -/

theorem exec_getbit (s : State) :
    exec .getbit s = finishMicro (getBit s) fun b _ => resultWord ((BitVec.ofBool b).setWidth 32) := rfl

/-- Settles O13: the three cases of `GetBit()`, each followed by the epilogue. -/
theorem getbitReturnsNextBit : Obligations.GetbitReturnsNextBit := by
  refine fun s => ⟨fun h0 hs => ?_, fun r rest h0 hs => ?_, fun n hn => ?_⟩ <;> rw [exec_getbit]
  · rw [getBit_eos (readerBits_eq_nil h0 hs)]; rfl
  · rw [getBit_refill h0 hs]; rfl
  · rw [getBit_buffered n hn]; rfl

/-! ### GETCHAR -/

theorem exec_getchar (s : State) :
    exec .getchar s = finishMicro (getChar s) fun v _ => resultWord (v.setWidth 32) := rfl

/-- Taking all buffered bits, before any refill (R140). -/
theorem getBits_drain {w : Nat} (n : Nat) (v : BitVec w) (s : State) :
    getBits (s.rcnt.val + n) v s = getBits n ((lowBits s.rcnt.val s.rbuf).foldl shiftIn v) { s with rcnt := 0 } := by
  rw [getBits_partial n s.rcnt.val s.rcnt.val v s s.rcnt.isLt rfl le_rfl, List.take_of_length_le (by simp)]
  simp only [Nat.sub_self, Fin.mk_zero']

/-- With fewer than eight bits buffered, `GetChar()` takes them all and then the missing ones. -/
theorem getChar_drain {s : State} (hk : s.rcnt.val < 8) :
    getChar s = getBits (7 - s.rcnt.val + 1) ((lowBits s.rcnt.val s.rbuf).foldl shiftIn 0) { s with rcnt := 0 } := by
  rw [← getBits_drain, getChar, show s.rcnt.val + (7 - s.rcnt.val + 1) = 8 by omega]

/-- R141: `GetChar()` across a byte boundary takes one byte of SRC and leaves as many bits buffered as there were. -/
theorem getChar_straddle {s : State} {c : Byte} {rest : List Byte} (hk : s.rcnt.val < 8) (hs : s.src = c :: rest) :
    getChar s = .ok ((s.rbuf <<< (8 - s.rcnt.val)) ||| (c >>> s.rcnt.val)) { s with rbuf := c, src := rest } := by
  have hleft : 7 - (7 - s.rcnt.val) = s.rcnt.val := by omega
  have hmissing : 7 - s.rcnt.val + 1 = 8 - s.rcnt.val := by omega
  rw [getChar_drain hk, ← Nat.add_zero (7 - s.rcnt.val + 1),
    getBits_refill 0 _ (by omega) _ { s with rcnt := 0 } rfl hs, getBits, ← List.foldl_append, hmissing,
    foldl_byte _ (by omega)]
  simp only [hleft]

/-- R141: with eight bits buffered, `GetChar()` returns them and SRC is not touched. -/
theorem getChar_full {s : State} (h8 : s.rcnt = 8) : getChar s = .ok s.rbuf { s with rcnt := 0 } := by
  have hv : s.rcnt.val = 8 := by rw [h8]; rfl
  have hbyte := foldl_byte 8 le_rfl s.rbuf 0
  have hdrain := getBits_drain 0 (0 : Byte) s
  rw [hv] at hdrain
  rw [getChar, hdrain, getBits]
  congr 1
  simpa using hbyte

/-- R141: with SRC empty, the buffered bits are consumed and no byte is made of them. -/
theorem getChar_eos {s : State} (hk : s.rcnt.val < 8) (hs : s.src = []) :
    getChar s = .raised .endOfStream { s with rcnt := 0 } := by
  have hnone : readerBits { s with rcnt := 0 } = [] := readerBits_eq_nil rfl hs
  rw [getChar_drain hk, getBits, getBit_eos hnone, Res.bind]

/-- Settles O14: the three cases of `GetChar()`, each followed by the epilogue. -/
theorem getcharReturnsNextByte : Obligations.GetcharReturnsNextByte := by
  refine fun s => ⟨fun c rest hk hs => ?_, fun h8 => ?_, fun hk hs => ?_⟩ <;> rw [exec_getchar]
  · rw [getChar_straddle hk hs]; rfl
  · rw [getChar_full h8]; rfl
  · rw [getChar_eos hk hs]; rfl

/-! ### GETINT -/

theorem exec_getint (s : State) : exec .getint s = finishMicro (getInt s) fun w _ => resultWord w := rfl

/-- R142: with 32 bits left, `GetInt()` returns and consumes them, and takes no byte ahead of need. -/
theorem getInt_consumes {s : State} (h : 32 ≤ (readerBits s).length) :
    ∃ w u, getInt s = .ok w u ∧ ConsumesBits s u (msbBits w) := by
  have hbits := take_eq_msbBits h
  obtain ⟨u, hu, hrest, honly, hcnt, hsrc⟩ := getInt_ok _ hbits
  exact ⟨_, u, hu, honly, hsrc, by rw [hrest]; exact hbits, fun _ => hcnt⟩

/-- A whole byte of SRC, from an exhausted buffer to an exhausted buffer. -/
theorem getBits_byte {w : Nat} (n : Nat) (v : BitVec w) (s : State) (a b : Byte) (rest : List Byte) :
    getBits (8 + n) v (s.setReader a 0 (b :: rest)) = getBits n ((msbBits b).foldl shiftIn v) (s.setReader b 0 rest) := by
  rw [getBits_refill n 7 le_rfl v (s.setReader a 0 (b :: rest)) rfl rfl, List.take_of_length_le (by simp)]; rfl

/-- R142: on a byte boundary the word is the next four bytes of SRC, most significant first. -/
theorem getInt_aligned {s : State} {b0 b1 b2 b3 : Byte} {rest : List Byte} (h0 : s.rcnt = 0)
    (hs : s.src = b0 :: b1 :: b2 :: b3 :: rest) :
    getInt s = .ok (b0 ++ b1 ++ b2 ++ b3) { s with rbuf := b3, src := rest } :=
  calc getInt s
      = getBits 32 0 (s.setReader s.rbuf 0 (b0 :: b1 :: b2 :: b3 :: rest)) := by rw [← h0, ← hs]; rfl
    _ = .ok (b0 ++ b1 ++ b2 ++ b3) (s.setReader b3 0 rest) := by
      rw [getBits_byte 24, getBits_byte 16, getBits_byte 8, getBits_byte 0, getBits, foldl_word]
    _ = .ok (b0 ++ b1 ++ b2 ++ b3) { s with rbuf := b3, src := rest } := by rw [← h0]; rfl

/-- R142: with fewer than 32 bits left, `GetInt()` consumes them all. -/
theorem getInt_eos {s : State} (h : (readerBits s).length < 32) :
    ∃ u, getInt s = .raised .endOfStream u ∧ u = { s with rbuf := u.rbuf, rcnt := 0, src := [] } := by
  obtain ⟨u, hu, hleft, honly⟩ := getBits_eos 32 (v := (0 : Word)) (readerBits_length s ▸ h)
  rw [bitsLeft] at hleft
  have hcnt : u.rcnt = 0 := Fin.ext (by simp; omega)
  have hsrc : u.src = [] := List.length_eq_zero_iff.mp (by omega)
  rw [ReaderOnly, hcnt, hsrc] at honly
  exact ⟨u, hu, honly⟩

/-- Settles O15: the three cases of `GetInt()`, each followed by the epilogue. -/
theorem getintReturnsNextWord : Obligations.GetintReturnsNextWord := by
  refine fun s => ⟨fun h => ?_, fun b0 b1 b2 b3 rest h0 hs => ?_, fun h => ?_⟩ <;> simp only [exec_getint]
  · obtain ⟨w, u, hu, hconsumes⟩ := getInt_consumes h
    exact ⟨w, u, by rw [hu]; rfl, hconsumes⟩
  · rw [getInt_aligned h0 hs]; rfl
  · obtain ⟨u, hu, hframe⟩ := getInt_eos h
    exact ⟨u, by rw [hu]; rfl, hframe⟩

end Sys2Proof.Machine
end

section
/-! The bit writer: PUTBIT, PUTCHAR, PUTINT and CLOSE (41_bitstream.md R143 to R146). -/

namespace Sys2Proof.Machine

/-- A put command with at least one bit, on a closed writer (R143 to R145): Closed, and nothing changes. -/
theorem exec_put_closed {i : Instr} (hi : isPut i = true) (hne : putBitsOf i ≠ []) {s : State} (h : s.wclosed = true) :
    exec i s = .next (takeError .closed 0 s) := by
  rw [exec_put hi, putBits_closed hne h]; rfl

/-! ### PUTBIT -/

theorem exec_putbit (b : Bool) (s : State) : exec (.putbit b) s = finishMicro (putBit b s) fun _ _ => resultNone := rfl

/-- R143: one of the first seven bits of a group stays in the buffer. -/
theorem putBit_buffers (b : Bool) {s : State} (n : Fin 7) (hw : s.wclosed = false) (hn : s.wcnt = n.castSucc) :
    putBit b s = .ok () { s with wbuf := shiftIn s.wbuf b, wcnt := n.succ } := by
  have hlt : s.wcnt.val + 1 < 8 := by rw [hn]; simp; omega
  have hcnt : (⟨s.wcnt.val + 1, hlt⟩ : Fin 8) = n.succ := Fin.ext (by simp [hn])
  simp only [putBit, hw, Bool.false_eq_true, if_false, dif_pos hlt, hcnt, State.setWriter]

/-- R143: the eighth bit of a group sends the byte to SNK and clears the buffer. -/
theorem putBit_flushes (b : Bool) {s : State} (hw : s.wclosed = false) (h7 : s.wcnt = 7) :
    putBit b s = .ok () { s with wbuf := 0, wcnt := 0, snk := s.snk ++ [shiftIn s.wbuf b] } := by
  have hge : ¬ s.wcnt.val + 1 < 8 := by rw [h7]; decide
  simp only [putBit, hw, Bool.false_eq_true, if_false, dif_neg hge, snkWrite, State.setWriter]

/-- Settles O17: the three cases of `PutBit(b)`, each followed by the epilogue. -/
theorem putbitAppendsBit : Obligations.PutbitAppendsBit := by
  refine fun b s => ⟨exec_put_closed (i := .putbit b) rfl (List.cons_ne_nil _ _), fun n hw hn => ?_, fun hw h7 => ?_⟩ <;>
    rw [exec_putbit]
  · rw [putBit_buffers b n hw hn]; rfl
  · rw [putBit_flushes b hw h7]; rfl

/-! ### PUTCHAR and PUTINT -/

theorem msbBits_ne_nil {w : Nat} (h : w ≠ 0) (v : BitVec w) : msbBits v ≠ [] := by
  rwa [← List.length_pos_iff, msbBits_length, Nat.pos_iff_ne_zero]

/-- R144, R145: a put command whose bits are those of a value of m bytes, on an open writer: m bytes leave, the low bits
of the value stay. -/
theorem exec_put_open {i : Instr} (hi : isPut i = true) {w m : Nat} (hm : w = 8 * m) (h0 : 0 < m) {v : BitVec w}
    (hv : putBitsOf i = msbBits v) {s : State} (hw : s.wclosed = false) :
    exec i s = .next (completeCommand 0 resultNone { s with
      wbuf := BitVec.ofNat 8 (v.toNat % 2 ^ s.wcnt.val)
      snk := s.snk ++ (List.range m).map fun j => ((s.wbuf ++ v) >>> (s.wcnt.val + 8 * (m - 1 - j))).setWidth 8 }) := by
  obtain ⟨u, hu, hframe, hsnk⟩ := put_value hm h0 v s hw
  rw [exec_put hi, hv, hu, ← hsnk, ← hframe]; rfl

/-- Settles O18: `exec_put_closed`, and `exec_put_open` with a value of one byte. -/
theorem putcharAppendsByte : Obligations.PutcharAppendsByte :=
  fun v _ => ⟨exec_put_closed (i := .putchar v) rfl (msbBits_ne_nil (by decide) v),
    exec_put_open (i := .putchar v) (m := 1) rfl rfl (by decide) rfl⟩

/-- Settles O19: `exec_put_closed`, and `exec_put_open` with a value of four bytes. -/
theorem putintAppendsWord : Obligations.PutintAppendsWord :=
  fun w _ => ⟨exec_put_closed (i := .putint w) rfl (msbBits_ne_nil (by decide) w),
    exec_put_open (i := .putint w) (m := 4) rfl rfl (by decide) rfl⟩

/-! ### CLOSE -/

theorem exec_close (s : State) : exec .close s = finishMicro (closeWriter s) fun _ _ => resultNone := rfl

/-- R146: with no bit buffered nothing is written. -/
theorem closeWriter_empty {s : State} (hw : s.wclosed = false) (h0 : s.wcnt = 0) :
    closeWriter s = .ok () { s with wclosed := true } := by
  have hv : s.wcnt.val = 0 := by rw [h0]; rfl
  simp only [closeWriter, hw, Bool.false_eq_true, if_false, if_pos hv]

/-- R146: the partial group leaves as one byte, its bits high and zeros below. -/
theorem closeWriter_partial {s : State} (hw : s.wclosed = false) (h0 : s.wcnt ≠ 0) :
    closeWriter s = .ok () { s with
      wbuf := 0, wcnt := 0, wclosed := true, snk := s.snk ++ [s.wbuf <<< (8 - s.wcnt.val)] } := by
  have hv : s.wcnt.val ≠ 0 := fun h => h0 (Fin.ext h)
  simp only [closeWriter, hw, Bool.false_eq_true, if_false, if_neg hv, snkWrite, State.setWriter]

/-- Settles O20: the three cases of `Close()`, each followed by the epilogue. -/
theorem closeFlushesOnce : Obligations.CloseFlushesOnce := by
  refine fun s => ⟨fun h => ?_, fun hw h0 => ?_, fun hw h0 => ?_⟩ <;> rw [exec_close]
  · rw [closeWriter_closed h]; rfl
  · rw [closeWriter_empty hw h0]; rfl
  · rw [closeWriter_partial hw h0]; rfl

end Sys2Proof.Machine
end

section
/-! The priority queue: PUSH, TOP, POP and SIZE (42_priority_queue.md R170 to R173). -/

namespace Sys2Proof.Machine

/-! ### PUSH -/

theorem exec_push (f : Word) (tie node : Idx) (s : State) :
    exec (.push f tie node) s = finishMicro (heapPush { freq := f, tie := tie, node := node } s) fun _ _ => resultNone := rfl

theorem heapGet_append_left {h : List Element} {n : Nat} (hn : n < h.length) (l : List Element) :
    heapGet (h ++ l) n = heapGet h n :=
  List.getD_append h l noElement n hn

@[simp] theorem heapGet_concat_length (h : List Element) (e : Element) : heapGet (h ++ [e]) h.length = e := by
  simp [heapGet]

theorem parentIndex_iterate_succ_lt {n j : Nat} (h : 0 < parentIndex^[j] n) : parentIndex^[j + 1] n < n := by
  rw [Function.iterate_succ_apply']
  exact lt_of_lt_of_le (parentIndex_lt h) (parentIndex_iterate_le n j)

/-- Each step to a parent at least halves `n + 1`, so an index whose j-th ancestor is not the root is large. -/
theorem two_pow_le_of_parentIndex_iterate_pos (j : Nat) : ∀ {n : Nat}, 0 < parentIndex^[j] n → 2 ^ (j + 1) ≤ n + 1 := by
  induction j with
  | zero => intro n hn; exact Nat.succ_le_succ hn
  | succ j ih =>
    intro n hn
    have hparent : 2 ^ (j + 1) ≤ parentIndex n + 1 := ih hn
    have htwo : 2 ≤ 2 ^ (j + 1) := le_self_pow (by decide) (by omega)
    rw [parentIndex] at hparent
    rw [pow_succ]
    omega

/-- R170: where PUSH's new element goes, in terms of the array before it. -/
theorem heapInsert_path (d : Bool) (h : List Element) (e : Element) : ∃ k,
    heapGet (heapInsert d h e) (parentIndex^[k] h.length) = e
    ∧ (∀ j, j < k → 0 < parentIndex^[j] h.length ∧ before d e (heapGet h (parentIndex^[j + 1] h.length)) = true
      ∧ heapGet (heapInsert d h e) (parentIndex^[j] h.length) = heapGet h (parentIndex^[j + 1] h.length))
    ∧ (0 < parentIndex^[k] h.length → before d e (heapGet h (parentIndex^[k + 1] h.length)) = false)
    ∧ ∀ i, i < h.length → (∀ j, j ≤ k → i ≠ parentIndex^[j] h.length) → heapGet (heapInsert d h e) i = heapGet h i := by
  obtain ⟨k, -, hat, hpast, hstop, hrest⟩ := siftUp_path d h.length (h ++ [e]) h.length (by simp) le_rfl
  have hget : ∀ {j}, 0 < parentIndex^[j] h.length →
      heapGet (h ++ [e]) (parentIndex^[j + 1] h.length) = heapGet h (parentIndex^[j + 1] h.length) :=
    fun hj => heapGet_append_left (parentIndex_iterate_succ_lt hj) [e]
  rw [heapGet_concat_length] at hat hpast hstop
  refine ⟨k, hat, fun j hj => ?_, fun hk => ?_, fun i hi hoff => ?_⟩
  · obtain ⟨hpos, hbefore, hmoved⟩ := hpast j hj
    rw [hget hpos] at hbefore hmoved
    exact ⟨hpos, hbefore, hmoved⟩
  · rw [← hget hk]; exact hstop hk
  · rw [← heapGet_append_left hi [e]]; exact hrest i hoff

/-- Settles O27: `heapInsert_path`; in a queue with a free place an entry has at most 8 ancestors. -/
theorem pushSiftsUp : Obligations.PushSiftsUp := by
  rintro e s _ rfl
  refine ⟨fun hfull => ?_, fun hcap => ?_⟩
  · rw [exec_push, heapPush_full _ hfull.ge]; rfl
  · obtain ⟨k, hat, hpast, hstop, hrest⟩ := heapInsert_path s.pqDesc s.heap e
    have hk : k ≤ 8 := by
      by_contra hk
      have h512 : 2 ^ (8 + 1) ≤ s.heap.length + 1 := two_pow_le_of_parentIndex_iterate_pos 8 (hpast 8 (by omega)).1
      rw [Config.pqCap] at hcap
      omega
    exact ⟨heapInsert s.pqDesc s.heap e, k, by rw [exec_push, heapPush_ok e hcap]; rfl, heapInsert_length _ _ _, hk, hat,
      hpast, hstop, hrest⟩

/-! ### TOP -/

theorem exec_top (s : State) : exec .top s = finishMicro (heapTop s) fun e _ => resultElement e := rfl

theorem heapTop_ok {s : State} {e : Element} {rest : List Element} (h : s.heap = e :: rest) : heapTop s = .ok e s := by
  rw [heapTop, h]

theorem heapTop_empty {s : State} (h : s.heap = []) : heapTop s = .raised .underflow s := by
  rw [heapTop, h]

/-- Settles O25: the two cases of `Top()`, each followed by the epilogue. -/
theorem topReturnsRoot : Obligations.TopReturnsRoot := by
  refine fun s => ⟨fun h => ?_, fun e rest h => ?_⟩ <;> rw [exec_top]
  · rw [heapTop_empty h]; rfl
  · rw [heapTop_ok h]; rfl

/-! ### POP -/

theorem exec_pop (s : State) : exec .pop s = finishMicro (heapPop s) fun e _ => resultElement e := rfl

theorem exec_pop_empty {s : State} (h : s.heap = []) : exec .pop s = .next (takeError .underflow 0 s) := by
  rw [exec_pop, heapPop_empty h]; rfl

theorem exec_pop_cons {s : State} {e : Element} {rest : List Element} (h : s.heap = e :: rest) :
    exec .pop s = .next (completeCommand 0 { tie := e.tie, node := e.node, result := e.freq }
      { s with heap := heapRemove s.pqDesc s.heap }) := by
  rw [exec_pop, heapPop_ok h, h]; rfl

/-- The array POP sifts (R172): the last element in the root's place, and one entry fewer. -/
def lastOverFirst (h : List Element) : List Element := heapGet h (h.length - 1) :: h.dropLast.tail

theorem heapRemove_eq_siftDown (d : Bool) {h : List Element} (h2 : 2 ≤ h.length) :
    heapRemove d h = siftDown d h.length (lastOverFirst h) 0 := by
  rcases h with _ | ⟨a, _ | ⟨b, rest⟩⟩
  · simp at h2
  · simp at h2
  · rfl

theorem lastOverFirst_length {h : List Element} (h2 : 2 ≤ h.length) : (lastOverFirst h).length = h.length - 1 := by
  simp [lastOverFirst]; omega

@[simp] theorem heapGet_lastOverFirst_zero (h : List Element) : heapGet (lastOverFirst h) 0 = heapGet h (h.length - 1) := rfl

theorem heapGet_lastOverFirst {h : List Element} {n : Nat} (h1 : 1 ≤ n) (hn : n < h.length - 1) :
    heapGet (lastOverFirst h) n = heapGet h n := by
  obtain ⟨m, rfl⟩ : ∃ m, n = m + 1 := ⟨n - 1, by omega⟩
  rw [heapGet_eq (by rw [lastOverFirst_length (by omega)]; exact hn), heapGet_eq (by omega)]
  simp [lastOverFirst]

/-- The child sift-down chooses, read off the array before the POP: the root's entry is nobody's child. -/
theorem chosenChild_lastOverFirst (d : Bool) {h : List Element} (h2 : 2 ≤ h.length) :
    chosenChild d (lastOverFirst h) = fun i =>
      if rightIndex i < h.length - 1 ∧ before d (heapGet h (rightIndex i)) (heapGet h (leftIndex i)) = true
      then rightIndex i else leftIndex i := by
  funext i
  rw [chosenChild, lastOverFirst_length h2]
  by_cases hr : rightIndex i < h.length - 1
  · have hlr : leftIndex i < rightIndex i := by simp only [leftIndex, rightIndex]; omega
    have hl : 1 ≤ leftIndex i := by simp only [leftIndex]; omega
    rw [heapGet_lastOverFirst (by omega) hr, heapGet_lastOverFirst hl (by omega)]
  · rw [if_neg (fun hc => hr hc.1), if_neg (fun hc => hr hc.1)]

/-- Each step to a child at least doubles the index plus one. -/
theorem two_pow_le_chosenChild_iterate (d : Bool) (h : List Element) (k : Nat) : 2 ^ k ≤ (chosenChild d h)^[k] 0 + 1 := by
  induction k with
  | zero => exact le_rfl
  | succ k ih =>
    rw [Function.iterate_succ_apply', pow_succ]
    rcases chosenChild_or d h ((chosenChild d h)^[k] 0) with e | ⟨e, -⟩ <;> rw [e] <;>
      simp only [leftIndex, rightIndex] <;> omega

/-- R172: where the last element goes on a POP, in terms of the array before it. -/
theorem heapRemove_path (d : Bool) {h : List Element} (h2 : 2 ≤ h.length) {child : Nat → Nat}
    (hchild : child = chosenChild d (lastOverFirst h)) : ∃ k,
    child^[k] 0 < h.length - 1 ∧ heapGet (heapRemove d h) (child^[k] 0) = heapGet h (h.length - 1)
    ∧ (∀ j, j < k → leftIndex (child^[j] 0) < h.length - 1
      ∧ before d (heapGet h (child^[j + 1] 0)) (heapGet h (h.length - 1)) = true
      ∧ heapGet (heapRemove d h) (child^[j] 0) = heapGet h (child^[j + 1] 0))
    ∧ (leftIndex (child^[k] 0) < h.length - 1 →
      before d (heapGet h (child^[k + 1] 0)) (heapGet h (h.length - 1)) = false)
    ∧ ∀ i, i < h.length - 1 → (∀ j, j ≤ k → i ≠ child^[j] 0) → heapGet (heapRemove d h) i = heapGet h i := by
  have hlen := lastOverFirst_length h2
  obtain ⟨k, -, hlt, hat, hpast, hstop, hrest⟩ := siftDown_path d h.length (lastOverFirst h) 0 (by omega) (by omega)
  simp only [← heapRemove_eq_siftDown d h2, heapGet_lastOverFirst_zero, ← hchild, hlen] at hlt hat hpast hstop hrest
  have hget : ∀ {j}, leftIndex (child^[j] 0) < h.length - 1 →
      heapGet (lastOverFirst h) (child^[j + 1] 0) = heapGet h (child^[j + 1] 0) := fun {j} hleft => by
    have hgt := chosenChild_gt d (lastOverFirst h) (child^[j] 0)
    have hin := chosenChild_lt (desc := d) (h := lastOverFirst h) (hlen ▸ hleft)
    rw [← hchild] at hgt hin
    rw [Function.iterate_succ_apply']
    exact heapGet_lastOverFirst (by omega) (hlen ▸ hin)
  refine ⟨k, hlt, hat, fun j hj => ?_, fun hk => ?_, fun i hi hoff => ?_⟩
  · obtain ⟨hleft, hbefore, hmoved⟩ := hpast j hj
    rw [hget hleft] at hbefore hmoved
    exact ⟨hleft, hbefore, hmoved⟩
  · rw [← hget hk]; exact hstop hk
  · have hroot : i ≠ 0 := hoff 0 (Nat.zero_le k)
    rw [← heapGet_lastOverFirst (by omega) hi]
    exact hrest i hoff

/-- Settles O28: `heapRemove_path`; in an array of at most 256 entries no path from the root is longer than 8. -/
theorem popSiftsDown : Obligations.PopSiftsDown := by
  intro s child hchild
  refine ⟨exec_pop_empty, fun e he => by rw [exec_pop_cons he, he]; rfl, fun e b rest hs => ?_⟩
  have h2 : 2 ≤ s.heap.length := by simp [hs]
  have hchosen : child = chosenChild s.pqDesc (lastOverFirst s.heap) :=
    hchild.trans (chosenChild_lastOverFirst s.pqDesc h2).symm
  obtain ⟨k, hlt, hpath⟩ := heapRemove_path s.pqDesc h2 hchosen
  have hdepth : 2 ^ k ≤ child^[k] 0 + 1 := hchosen ▸ two_pow_le_chosenChild_iterate _ _ k
  have hk : s.heap.length ≤ Config.pqCap → k ≤ 8 := fun hcap =>
    (Nat.pow_le_pow_iff_right (by decide : 1 < 2)).1 (by rw [Config.pqCap] at hcap; omega)
  refine ⟨heapRemove s.pqDesc s.heap, k, exec_pop_cons hs, heapRemove_length _ _, hk, ?_⟩
  rw [heapRemove_length]
  exact ⟨hlt, hpath⟩

/-! ### SIZE -/

theorem exec_size (s : State) :
    exec .size s = .next (completeCommand 0 (resultWord (s.pqSize.setWidth 32)) s) := rfl

theorem pqSize_toNat {s : State} (h : s.heap.length ≤ Config.pqCap) : s.pqSize.toNat = s.heap.length := by
  rw [State.pqSize, BitVec.toNat_ofNat]
  exact Nat.mod_eq_of_lt (lt_of_le_of_lt h (by decide))

/-- Settles O29: `pq_size` has 9 bits, which hold every number of elements up to PQ_CAP, and RESULT has more. -/
theorem sizeCountsElements : Obligations.SizeCountsElements := fun s h =>
  ⟨s.pqSize.setWidth 32, exec_size s, by rw [BitVec.toNat_setWidth_of_le (by decide), pqSize_toNat h]⟩

end Sys2Proof.Machine
end

section
/-! The frequency analyzer and the tree builder: FREQ and BUILD (43_tree_builder.md R190 to R197). -/

namespace Sys2Proof.Machine

/-! ### FREQ -/

theorem exec_freq (s : State) : exec .freq s = finishMicro (analyze s) fun _ t => resultWord t.inLen := rfl

/-- Settles O32: the two ways FREQ's loop ends, `analyze_ok` and `analyze_over`, each followed by the epilogue. -/
theorem freqCountsInput : Obligations.FreqCountsInput := by
  refine fun s => ⟨fun hfits => ?_, fun hover => ?_⟩ <;> rw [exec_freq]
  · rw [analyze_ok hfits]; rfl
  · rw [analyze_over hover]; rfl

/-! ### BUILD -/

theorem exec_build (s : State) : exec .build s = finishMicro (buildTree s) fun _ t =>
    { tie := 0, node := t.root, result := t.nNodes.setWidth 32 } := rfl

theorem exec_build_ok {s u : State} (h : buildTree s = .ok () u) :
    exec .build s = .next (completeCommand 0 { tie := 0, node := u.root, result := u.nNodes.setWidth 32 } u) := by
  rw [exec_build, h]; rfl

/-- Settles O35: for the empty table BUILD stops after its start (`buildTree_empty`); for every other one its queue and
arena hold, turn by turn, the entries of the least-key rule (`Forest`, `buildTree_some`), whose records carry the sums
(`weighed`). -/
theorem buildMakesTree : Obligations.BuildMakesTree := by
  refine fun s => ⟨fun hnone => ?_, fun hsome => ?_⟩
  · exact exec_build_ok (buildTree_empty hnone).2
  · obtain ⟨t, u, htree, hbuild, hframe, hholds, hrecords, hsymbols, hlength, hleaves, hroot⟩ := buildTree_some hsome
    exact ⟨t, u, htree, exec_build_ok hbuild, hframe, hholds, hsymbols, by omega, by omega, hleaves, hrecords⟩

end Sys2Proof.Machine
end

section
/-! The encoder path: CODES, WTREE, WCOUNT and WPAYLOAD (44_codec_encode.md R210 to R218). The last three put a sequence
of bits that the state determines, so each is `putBits` of that sequence and then the epilogue. -/

namespace Sys2Proof.Machine

/-! ### CODES -/

theorem exec_codes (s : State) : exec .codes s = finishMicro (makeCodes s) fun _ _ => resultNone := rfl

/-- Settles O37: the two ways CODES ends, `makeCodes_empty` and `makeCodes_ok`, each followed by the epilogue. -/
theorem codesAreTreePaths : Obligations.CodesAreTreePaths := by
  refine fun s => ⟨fun hempty => ?_, fun t hholds hcap => ?_⟩
  · rw [exec_codes, makeCodes_empty hempty]; rfl
  · obtain ⟨c, hrun, hcode⟩ := makeCodes_ok hholds hcap
    exact ⟨c, by rw [exec_codes, hrun]; rfl, hcode⟩

/-! ### A command that puts a sequence of bits -/

/-- On an open writer the bits are appended, and the command ends without error (R143). -/
theorem exec_putBits_open {i : Instr} {bits : List Bool} {s : State}
    (hi : exec i s = finishMicro (putBits bits s) fun _ _ => resultNone) (hw : s.wclosed = false) :
    ∃ u, exec i s = .next (completeCommand 0 resultNone u) ∧ AppendsBits s u bits := by
  obtain ⟨u, hu, hbits, honly, hsnk⟩ := putBits_ok bits hw
  exact ⟨u, by rw [hi, hu]; rfl, honly, hsnk, hbits⟩

/-- On a closed writer the first bit, if there is one, raises Closed, and nothing changes (R143). -/
theorem exec_putBits_closed {i : Instr} {bits : List Bool} {s : State}
    (hi : exec i s = finishMicro (putBits bits s) fun _ _ => resultNone) (hne : bits ≠ []) (hw : s.wclosed = true) :
    exec i s = .next (takeError .closed 0 s) := by
  rw [hi, putBits_closed hne hw]; rfl

/-! ### WTREE -/

theorem exec_wtree (s : State) : exec .wtree s = finishMicro (writeTree s) fun _ _ => resultNone := rfl

/-- R213: with no tree WTREE puts the marker of the empty tree. -/
theorem exec_wtree_empty {s : State} (h : s.treeEmpty = true) :
    exec .wtree s = finishMicro (putBits (true :: msbBits (0 : Byte)) s) fun _ _ => resultNone := by
  rw [exec_wtree, writeTree_empty h]

/-- R213: with a tree WTREE puts its preorder bits. -/
theorem exec_wtree_tree {s : State} {t : Tree} (h : HoldsTree s t) (hcap : s.node.length ≤ Config.nodeCap) :
    exec .wtree s = finishMicro (putBits t.bits s) fun _ _ => resultNone := by
  rw [exec_wtree, writeTree_ok h hcap]

theorem Tree.bits_ne_nil (t : Tree) : t.bits ≠ [] := by
  cases t with
  | leaf i b => exact List.cons_ne_nil _ _
  | inner i l r => exact List.cons_ne_nil _ _

/-- Settles O39: WTREE puts the marker or the tree's bits, and neither sequence is empty. -/
theorem wtreeWritesPreorder : Obligations.WtreeWritesPreorder := by
  refine fun s => ⟨fun hempty hw => ?_, fun t hholds hcap hw => ?_, fun hstate hw => ?_⟩
  · exact exec_putBits_open (exec_wtree_empty hempty) hw
  · exact exec_putBits_open (exec_wtree_tree hholds hcap) hw
  · rcases hstate with hempty | ⟨⟨t, hholds⟩, hcap⟩
    · exact exec_putBits_closed (exec_wtree_empty hempty) (List.cons_ne_nil _ _) hw
    · exact exec_putBits_closed (exec_wtree_tree hholds hcap) t.bits_ne_nil hw

/-! ### WCOUNT -/

theorem exec_wcount (s : State) :
    exec .wcount s = finishMicro (putBits (msbBits s.count) s) fun _ _ => resultNone := rfl

/-- Settles O40: WCOUNT puts the 32 bits of `count`. -/
theorem wcountWritesCount : Obligations.WcountWritesCount := fun s =>
  ⟨exec_putBits_open (exec_wcount s), exec_putBits_closed (exec_wcount s) (msbBits_ne_nil (by decide) s.count)⟩

/-! ### WPAYLOAD -/

/-- R218: WPAYLOAD puts the codes of the buffered symbols, one after another. -/
theorem exec_wpayload (s : State) :
    exec .wpayload s = finishMicro (putBits (s.inbuf.flatMap s.codeAt) s) fun _ _ => resultNone := by
  rw [← payloadLoop_eq]; rfl

/-- Settles O41: on a closed writer WPAYLOAD fails exactly if the codes of the buffered symbols together have a bit. -/
theorem wpayloadWritesCodes : Obligations.WpayloadWritesCodes := by
  refine fun s => ⟨exec_putBits_open (exec_wpayload s), fun _ hnone => ?_, fun hw ⟨b, hb, hcode⟩ => ?_⟩
  · rw [exec_wpayload, List.flatMap_eq_nil_iff.mpr hnone]; rfl
  · have hbits : s.inbuf.flatMap s.codeAt ≠ [] := fun hnil => hcode (List.flatMap_eq_nil_iff.mp hnil b hb)
    exact exec_putBits_closed (exec_wpayload s) hbits hw

end Sys2Proof.Machine
end

section
/-! The decoder path: RCOUNT and DECODE (45_codec_decode.md R245, R248). -/

namespace Sys2Proof.Machine

/-! ### RCOUNT -/

theorem exec_rcount (s : State) : exec .rcount s = finishMicro (readCount s) fun _ t => resultWord t.count := rfl

/-- Settles O47: `GetInt()` with and without 32 bits left; `count` is written only after it has returned. -/
theorem rcountReadsCount : Obligations.RcountReadsCount := by
  refine fun s => ⟨fun w rest hb => ?_, fun hshort => ?_⟩ <;> simp only [exec_rcount]
  · obtain ⟨u, hu, hrest, honly, hcnt, hsrc⟩ := readCount_ok w hb
    exact ⟨u, by rw [hu]; rfl, ⟨honly, hsrc, by rw [hb, hrest], fun _ => hcnt⟩, hrest⟩
  · obtain ⟨u, hu, hframe⟩ := getInt_eos hshort
    exact ⟨u, by rw [readCount, hu]; rfl, hframe⟩

/-! ### DECODE -/

theorem exec_decode (s : State) : exec .decode s = finishMicro (decodeSymbols s) fun _ t => resultWord t.count := rfl

/-- R248: with no symbol asked for, DECODE does nothing, tree or no tree. -/
theorem decodeSymbols_count_zero {s : State} (h : s.count = 0) : decodeSymbols s = .ok () s := by
  rw [decodeSymbols, if_neg fun hc => hc.1 h, h]; rfl

theorem decodeSymbols_empty {s : State} (h0 : s.count ≠ 0) (h : s.treeEmpty = true) :
    decodeSymbols s = .raised .illegal s :=
  if_pos ⟨h0, h⟩

theorem decodeSymbols_tree {s : State} {t : Tree} (h : HoldsTree s t) : decodeSymbols s = decodeLoop s.count.toNat s :=
  if_neg fun hc => by simp [h.present] at hc

theorem StreamsOnly.count_eq {s u : State} (h : StreamsOnly s u) : u.count = s.count := by
  rw [h]; rfl

/-- With no bit left, the reader's buffer is exhausted and SRC is empty. -/
theorem StreamsOnly.drained {s u : State} (h : StreamsOnly s u) (h0 : bitsLeft u = 0) :
    u = { s with rbuf := u.rbuf, rcnt := 0, src := [], wbuf := u.wbuf, wcnt := u.wcnt, snk := u.snk } := by
  rw [bitsLeft] at h0
  have hcnt : u.rcnt = 0 := Fin.ext (by simp; omega)
  have hsrc : u.src = [] := List.length_eq_zero_iff.mp (by omega)
  rwa [StreamsOnly, hcnt, hsrc] at h

/-- R248: on a closed writer the first symbol's bits are taken before its first bit raises Closed. -/
theorem decodeLoop_closed_consumes {s : State} {t : Tree} {b : Byte} {bits rest : List Bool} (n : Nat)
    (h : HoldsTree s t) (hw : s.wclosed = true) (hr : t.reads b bits) (hb : readerBits s = bits ++ rest) :
    ∃ u, decodeLoop (n + 1) s = .raised .closed u ∧ ConsumesBits s u bits := by
  obtain ⟨u, hu, hrest, honly, hcnt, hsrc⟩ := nextSymbol_ok h hr hb
  have hput : putChar b u = .raised .closed u :=
    putBits_closed (msbBits_ne_nil (by decide) b) (by rw [honly]; exact hw)
  exact ⟨u, by rw [decodeLoop, emitSymbol, hu, Res.bind, hput]; rfl, honly, hsrc, by rw [hb, hrest], fun _ => hcnt⟩

/-- Settles O48: with a tree DECODE is its loop, which ends after `count` symbols (`decodeLoop_ok`), when the bits left
hold no further symbol (`decodeLoop_eos`), or at the first symbol on a closed writer. -/
theorem decodeWalksTree : Obligations.DecodeWalksTree := by
  refine fun s => ⟨fun h0 => ?_, fun h0 hempty => ?_, fun t l rest hholds hreads hb => ?_⟩
  · rw [exec_decode, decodeSymbols_count_zero h0, ← h0]; rfl
  · rw [exec_decode, decodeSymbols_empty h0 hempty]; rfl
  · simp only [exec_decode, decodeSymbols_tree hholds]
    refine ⟨fun hlen hw => ?_, fun hlen hw hno => ?_, fun p hl h0 hw => ?_⟩
    · obtain ⟨u, hu, hrest, hbits, hframe, hcnt, hsrc, hsnk⟩ := decodeLoop_ok l hholds hw hreads hb
      exact ⟨u, by rw [← hlen, hu, ← hframe.count_eq]; rfl, hframe, hrest, hsrc, fun h => hcnt (.inl h), hbits, hsnk⟩
    · obtain ⟨u, hu, hleft, hbits, hframe, hsnk⟩ := decodeLoop_eos l hholds hw hlen hreads hb hno
      exact ⟨u, by rw [hu]; rfl, hframe.drained hleft, hbits, hsnk⟩
    · subst hl
      obtain ⟨n, hn⟩ := Nat.exists_eq_succ_of_ne_zero fun hz => h0 (BitVec.eq_of_toNat_eq hz)
      obtain ⟨u, hu, hconsumes⟩ := decodeLoop_closed_consumes n hholds hw (hreads p (List.mem_singleton_self p))
        (by rw [hb, List.flatMap_singleton])
      exact ⟨u, by rw [hn, hu]; rfl, hconsumes⟩

end Sys2Proof.Machine
end

section
/-! Command words: the decoder and the encoder (30_encoding.md R100 to R104, R108). -/

namespace Sys2Proof

/-- The command of the same row as `i` whose operands are the fields of `w` (R101). -/
def Instr.withFieldsOf (w : CmdWord) : Instr → Instr
  | .init _ => .init ((argField w).getLsbD 0)
  | .stat _ => .stat (argField w)
  | .putbit _ => .putbit ((argField w).getLsbD 0)
  | .putchar _ => .putchar ((argField w).setWidth 8)
  | .putint _ => .putint (argField w)
  | .push _ _ _ => .push (argField w) (tieField w) (nodeField w)
  | i => i

theorem decodeRow_opcode (i : Instr) (w : CmdWord) : decodeRow i.opcode w = .instr (i.withFieldsOf w) := by
  cases i <;> rfl

/-- The opcode map has one row for each command: what a row decodes to has that row's OP value (R104). -/
theorem opcode_of_decodeRow {op : BitVec 8} {w : CmdWord} {i : Instr} (h : decodeRow op w = .instr i) : op = i.opcode := by
  unfold decodeRow at h
  split at h <;> cases h <;> exact BitVec.eq_of_toNat_eq ‹_›

theorem decode_of_fields {w : CmdWord} {i : Instr} (hr : rsvField w = 0) (ho : opField w = i.opcode) :
    decode w = .instr (i.withFieldsOf w) := by
  rw [decode, if_pos hr, ho, decodeRow_opcode]

theorem fields_of_decode {w : CmdWord} {i : Instr} (h : decode w = .instr i) :
    rsvField w = 0 ∧ opField w = i.opcode := by
  rw [decode] at h
  split at h
  · next hr => exact ⟨hr, opcode_of_decodeRow h⟩
  · cases h

/-! ### From the command to the word and back -/

theorem getLsbD_zero_setWidth_ofBool (b : Bool) : ((BitVec.ofBool b).setWidth 32).getLsbD 0 = b := by
  cases b <;> rfl

/-- R108: the assembler puts every operand where the decoder takes it from. -/
theorem withFieldsOf_encode (i : Instr) : i.withFieldsOf (encode i) = i := by
  cases i <;> simp only [Instr.withFieldsOf, encode, argField_packFields, tieField_packFields, nodeField_packFields,
    Instr.argOf, Instr.tieOf, Instr.nodeOf, getLsbD_zero_setWidth_ofBool,
    BitVec.setWidth_setWidth_of_le _ (show 8 ≤ 32 by decide), BitVec.setWidth_eq]

/-- Settles O1: OP and RSV of the encoder's word select the row, and `withFieldsOf_encode` gives the operands back. -/
theorem decodeOfEncode : Obligations.DecodeOfEncode := fun i => by
  rw [decode_of_fields (i := i) (by simp [encode]) (by simp [encode]), withFieldsOf_encode]

theorem encode_injective : Function.Injective encode := fun i j h => by
  have hi := decodeOfEncode i
  rw [h, decodeOfEncode j] at hi
  injection hi with hi
  exact hi.symm

end Sys2Proof

namespace Sys2Proof.Machine

/-! ### From the word to the command and back -/

/-- R101: every command uses all of OP and RSV. -/
theorem usedBits_eq (i : Instr) : ∃ tie node arg,
    usedBits i = packFields (BitVec.allOnes 8) (BitVec.allOnes 6) tie node arg := by
  cases i <;> exact ⟨_, _, _, rfl⟩

theorem opField_and_usedBits (w : CmdWord) (i : Instr) : opField (w &&& usedBits i) = opField w := by
  obtain ⟨tie, node, arg, hused⟩ := usedBits_eq i
  conv_lhs => rw [hused, ← packFields_fields w, packFields_and, opField_packFields, BitVec.and_allOnes]

theorem rsvField_and_usedBits (w : CmdWord) (i : Instr) : rsvField (w &&& usedBits i) = rsvField w := by
  obtain ⟨tie, node, arg, hused⟩ := usedBits_eq i
  conv_lhs => rw [hused, ← packFields_fields w, packFields_and, rsvField_packFields, BitVec.and_allOnes]

theorem setWidth_ofBool_getLsbD_zero (v : Word) : (BitVec.ofBool (v.getLsbD 0)).setWidth 32 = v &&& 1 := by
  apply BitVec.eq_of_getLsbD_eq
  intro k hk
  rw [BitVec.getLsbD_and, BitVec.getLsbD_setWidth, BitVec.getLsbD_ofBool]
  cases k <;> simp

theorem setWidth_setWidth_byte (v : Word) : (v.setWidth 8).setWidth 32 = v &&& 0xFF := by
  apply BitVec.eq_of_toNat_eq
  have hv := v.isLt
  rw [BitVec.toNat_setWidth, BitVec.toNat_setWidth, BitVec.toNat_and]
  exact (Nat.mod_eq_of_lt (by omega)).trans (Nat.and_two_pow_sub_one_eq_mod v.toNat 8).symm

theorem and_word_ones (v : Word) : v &&& 0xFFFFFFFF = v := BitVec.and_allOnes

theorem and_idx_ones (v : Idx) : v &&& 0x1FF = v := BitVec.and_allOnes

/-- R101: the encoder's word of what a word decodes to has the bits the command uses, and zeros elsewhere. -/
theorem encode_withFieldsOf {w : CmdWord} {i : Instr} (hr : rsvField w = 0) (ho : opField w = i.opcode) :
    encode (i.withFieldsOf w) = w &&& usedBits i := by
  conv_rhs => rw [← packFields_fields w, hr, ho]
  cases i <;>
    simp only [encode, usedBits, packFields_and, Instr.withFieldsOf, Instr.argOf, Instr.tieOf, Instr.nodeOf,
      setWidth_ofBool_getLsbD_zero, setWidth_setWidth_byte, and_word_ones, and_idx_ones] <;>
    simp [Instr.opcode]

/-- Settles O2: the decoded command's operands are the word's fields (`encode_withFieldsOf`); a word with the same used
bits is in the same row and has the same encoder's word, and the encoder is injective. -/
theorem encodeOfDecode : Obligations.EncodeOfDecode := by
  intro w i h
  obtain ⟨hr, ho⟩ := fields_of_decode h
  have hi : i.withFieldsOf w = i := by
    have hw := decode_of_fields hr ho
    rw [h] at hw
    injection hw with hw
    exact hw.symm
  have hword : encode i = w &&& usedBits i := by rw [← encode_withFieldsOf hr ho, hi]
  refine ⟨hword, fun v hv => ?_⟩
  have hrv : rsvField v = 0 := by rw [← rsvField_and_usedBits v i, hv, rsvField_and_usedBits, hr]
  have hov : opField v = i.opcode := by rw [← opField_and_usedBits v i, hv, opField_and_usedBits, ho]
  have hiv : i.withFieldsOf v = i := encode_injective (by rw [encode_withFieldsOf hrv hov, hv, hword])
  rw [decode_of_fields hrv hov, hiv]

/-- Settles O4: seven of the words are the encoder's words of their commands; the eighth has a bit of RSV set. -/
theorem wordsDecode : Obligations.WordsDecode :=
  ⟨decodeOfEncode (.init true), decodeOfEncode (.stat 4), decodeOfEncode (.putchar 0x61),
    decodeOfEncode (.push 2 0x62 1), decodeOfEncode .build, decodeOfEncode .compress, decodeOfEncode .decompress,
    by decide⟩

/-! ### Status word and response word -/

/-- Settles O10: each field is cut out of the concatenation at the place R38 gives it; `rcnt` and `wcnt` fit theirs. -/
theorem statusWordFields : Obligations.StatusWordFields := by
  intro s
  have hrcnt : s.rcnt.val % 2 ^ 4 = s.rcnt.val := Nat.mod_eq_of_lt (by omega)
  have hwcnt : s.wcnt.val % 2 ^ 3 = s.wcnt.val := Nat.mod_eq_of_lt (by omega)
  simp (disch := decide) only [statusWord, BitVec.extractLsb'_append_eq_of_add_le, BitVec.extractLsb'_append_eq_of_le,
    Nat.reduceSub, BitVec.extractLsb'_eq_self, BitVec.toNat_ofNat, hrcnt, hwcnt]
  simp only [BitVec.getLsbD_append, Nat.reduceLT, Nat.reduceSub, if_false, if_true, BitVec.getLsbD_ofBool,
    decide_true, Bool.true_and, and_self]

/-- Settles O11: each field is cut out of the concatenation at the place R103 gives it. -/
theorem responseWordFields : Obligations.ResponseWordFields := by
  intro r undelivered
  simp (disch := decide) only [responseWord, BitVec.extractLsb'_append_eq_of_add_le, BitVec.extractLsb'_append_eq_of_le,
      BitVec.extractLsb'_eq_self, Nat.reduceSub, true_and]
  intro x hx
  rw [hx]
  simp (disch := decide) only [BitVec.extractLsb'_append_eq_of_add_le, BitVec.extractLsb'_append_eq_of_le,
      BitVec.extractLsb'_eq_self, Nat.reduceSub, and_self]

end Sys2Proof.Machine
end

section
/-! The invariants (10_state.md R24, R32, R34; 43_tree_builder.md R191; the table bounds of 00_scope.md R6): each is kept
by everything a command is made of (`Kept`) and by the host's moves, hence by every step. -/

namespace Sys2Proof.Machine

/-- Kept by what a step does besides running a command (R300, R305): taking a move off the queue, the host's changes of
the streams, the reset signal. -/
structure HostKept (P : State → Prop) : Prop where
  inputs : ∀ s l, P s → P (s.setInputs l)
  source : ∀ s l, P s → P (s.setReader s.rbuf s.rcnt l)
  sink   : ∀ s l, P s → P (s.setWriter s.wbuf s.wcnt l)
  reset  : ∀ s, P s → P (resetUnits s)

theorem HostKept.hostMove {P : State → Prop} (k : HostKept P) (e : HostEvent) (s : State) (h : P s) : P (hostMove e s) := by
  cases e with
  | command w => exact h
  | srcReplace l => exact k.source s l h
  | srcAppend l => exact k.source s _ h
  | snkRemove a n => exact k.sink s _ h
  | snkClear => exact k.sink s [] h
  | reset => exact k.reset s h
  | resetDuring w n => exact h

theorem HostKept.step {P : State → Prop} (k : HostKept P) (hill : ∀ s, P s → P (illegalCommand s))
    (hexec : ∀ i s t, P s → exec i s = .next t → P t) {s t : State} (hs : P s) (h : step s = .next t) : P t :=
  step_kept k.inputs k.hostMove (fun s l m h => k.sink _ m (k.source s l h)) hill hexec hs h

/-- A property kept by the host and by everything a command is made of is kept by every step. -/
theorem Kept.step {P : State → Prop} (k : Kept P) (host : HostKept P) {s t : State} (hs : P s) (h : step s = .next t) :
    P t :=
  host.step (fun s h => k.finish s _ _ _ h) (fun _ _ _ => k.exec) hs h

/-! ### The writer -/

theorem writerInv_resetUnits (s : State) : WriterInv (resetUnits s) :=
  ⟨Nat.zero_lt_one, fun h => by cases h⟩

theorem hostKept_writerInv : HostKept WriterInv where
  inputs := fun _ _ h => h
  source := fun _ _ h => h
  sink := fun _ _ h => h
  reset := fun s _ => writerInv_resetUnits s

/-- Settles O22: `kept_writerInv` for the commands, `hostKept_writerInv` for the host. -/
theorem writerInvariantKept : Obligations.WriterInvariantKept := fun _ _ =>
  kept_writerInv.step hostKept_writerInv

/-! ### The queue -/

theorem hostKept_heapInv : HostKept HeapInv where
  inputs := fun _ _ h => h
  source := fun _ _ h => h
  sink := fun _ _ h => h
  reset := fun _ _ => heapInv_nil rfl

/-- Settles O30: `kept_heapInv` for the commands, `hostKept_heapInv` for the host. -/
theorem heapInvariantKept : Obligations.HeapInvariantKept := fun _ _ =>
  kept_heapInv.step hostKept_heapInv

/-! ### The frequency table -/

theorem freqInv_resetUnits (s : State) : FreqInv (resetUnits s) := fun b => by
  show ((Vector.replicate 256 (0 : Word)).get (symIndex b)).toNat = ([] : List Byte).count b
  rw [get_replicate_zero]; rfl

theorem hostKept_freqInv : HostKept FreqCap where
  inputs := fun _ _ h => h
  source := fun _ _ h => h
  sink := fun _ _ h => h
  reset := fun s h => ⟨h.1, freqInv_resetUnits s⟩

theorem inbufCap_le_of_tablesWf {s : State} (h : s.tablesWf = true) : s.inbufCap ≤ Config.inbufCapMax :=
  ((tablesWf_iff s).mp h).2.1

/-- Settles O34: with INBUF_CAP within its range no count wraps, and `FreqCap` adds that bound, which no step writes. -/
theorem frequencyInvariantKept : Obligations.FrequencyInvariantKept := fun _ _ hwf hfreq h =>
  (kept_freqInv.step hostKept_freqInv ⟨inbufCap_le_of_tablesWf hwf, hfreq⟩ h).2

/-! ### The tree -/

theorem hostKept_treeInv : HostKept TreeInv where
  inputs := fun _ _ h => treeInv_congr h rfl rfl rfl
  source := fun _ _ h => treeInv_congr h rfl rfl rfl
  sink := fun _ _ h => treeInv_congr h rfl rfl rfl
  reset := fun _ _ => treeInv_of (.inl rfl)

/-- Settles O54: `kept_treeInv` for the commands, `hostKept_treeInv` for the host. -/
theorem treeInvariantKept : Obligations.TreeInvariantKept := fun _ _ =>
  kept_treeInv.step hostKept_treeInv

/-! ### The table memories -/

theorem tablesWf_resetUnits {s : State} (h : s.tablesWf = true) : (resetUnits s).tablesWf = true := by
  obtain ⟨hpos, hmax, -⟩ := (tablesWf_iff s).mp h
  exact (tablesWf_iff _).mpr ⟨hpos, hmax, Nat.zero_le _, Nat.zero_le _, Nat.zero_le _, codesFit_replicate⟩

theorem hostKept_tables : HostKept fun s => s.tablesWf = true where
  inputs := fun _ _ h => h
  source := fun _ _ h => h
  sink := fun _ _ h => h
  reset := fun _ => tablesWf_resetUnits

/-- Settles O53: `kept_tables` for the commands, `hostKept_tables` for the host. -/
theorem tableBoundsKept : Obligations.TableBoundsKept := fun _ _ =>
  kept_tables.step hostKept_tables

/-! ### The state after reset -/

theorem tablesWf_reset : State.reset.tablesWf = true :=
  (tablesWf_iff _).mpr ⟨by decide, le_rfl, Nat.zero_le _, Nat.zero_le _, Nat.zero_le _, codesFit_replicate⟩

/-- Settles O56: the reset state is what `resetUnits` makes of itself, and the status registers are 0. -/
theorem resetMeetsInvariants : Obligations.ResetMeetsInvariants where
  writer := writerInv_resetUnits State.reset
  tables := tablesWf_reset
  heap := heapInv_nil rfl
  tree := treeInv_of (.inl rfl)
  freq := freqInv_resetUnits State.reset
  status := ⟨by decide, by decide⟩

end Sys2Proof.Machine
end

section
/-! COMPRESS and DECOMPRESS (44_codec_encode.md R225, R226; 45_codec_decode.md R255, R256): how their phases end is said in
Laws/Macro.lean; here the envelope's `Close()` and the epilogue follow, and the artifact of one is the input of the other. -/

namespace Sys2Proof.Machine

theorem HoldsTree.congr {s u : State} {t : Tree} (h : HoldsTree s t) (hempty : u.treeEmpty = s.treeEmpty)
    (hroot : u.root = s.root) (hnode : u.node = s.node) : HoldsTree u t :=
  ⟨hempty.trans h.present, h.top.trans hroot.symm, hnode ▸ h.records, h.owned⟩

/-! ### The bytes a writer leaves -/

theorem flatMap_msbBits_length (l : List Byte) : (l.flatMap msbBits).length = 8 * l.length := by
  rw [List.length_flatMap]
  simp only [msbBits_length, List.map_const', List.sum_replicate, smul_eq_mul]
  omega

theorem closeAtEnd_empty {s : State} (hw : s.wclosed = false) (h0 : s.wcnt = 0) :
    closeAtEnd s = { s with wclosed := true } := by
  rw [closeAtEnd, closeWriter_empty hw h0]

/-- Zeros from the last bit of a sequence to the next multiple of 8 (R146). -/
def padding (bits : List Bool) : List Bool := List.replicate ((8 - bits.length % 8) % 8) false

theorem padding_length_lt (bits : List Bool) : (padding bits).length < 8 := by
  rw [padding, List.length_replicate]
  exact Nat.mod_lt _ (by decide)

theorem padding_of_dvd {bits : List Bool} (h : 8 ∣ bits.length) : padding bits = [] := by
  rw [padding, Nat.mod_eq_zero_of_dvd h]; rfl

/-- After `Close()` the bytes appended since `snk` hold the bits put since then, padded with zeros (R146, R147). -/
theorem closed_bytes {snk : List Byte} {u v : State} {bits : List Bool} (hput : writerBits u = snk.flatMap msbBits ++ bits)
    (hgrew : snk <+: v.snk)
    (hclose : v.snk.flatMap msbBits = writerBits u ++ List.replicate ((8 - u.wcnt.val) % 8) false) :
    ∃ bytes, v.snk = snk ++ bytes ∧ bytes.flatMap msbBits = bits ++ padding bits := by
  obtain ⟨bytes, hbytes⟩ := hgrew
  refine ⟨bytes, hbytes.symm, ?_⟩
  have hlen := congrArg List.length hput
  rw [writerBits_length, List.length_append, flatMap_msbBits_length] at hlen
  have hpad : (8 - u.wcnt.val) % 8 = (8 - bits.length % 8) % 8 := by omega
  rw [← hbytes, hput, hpad, List.flatMap_append, List.append_assoc, List.append_cancel_left_eq] at hclose
  exact hclose

/-! ### COMPRESS -/

theorem exec_compress (s : State) : exec .compress s = runMacro compressPhases s := rfl

/-- Settles O43: FREQ fails, and the envelope closes a writer into which nothing was put. -/
theorem compressTooLong : Obligations.CompressTooLong := by
  intro s hover
  rw [exec_compress, runMacro, compressPhases_over hover]
  show Host.Outcome.next (takeError .capacity 1 (closeAtEnd _)) = _
  rw [closeAtEnd_empty] <;> rfl

/-- Settles O42: the phases put the artifact's bits (`compressPhases_ok`), and `Close()` pads them (`closed_bytes`). -/
theorem compressionLaw : Obligations.CompressionLaw := by
  intro s hfits
  obtain ⟨u, hrun, hopen, hbits, hsnk, hframe, hnone, hsome⟩ := compressPhases_ok hfits
  obtain ⟨hclose, hgrew, hclosed⟩ := closeAtEnd_ok hopen
  obtain ⟨artifact, hartifact, hartbits⟩ := closed_bytes hbits (hsnk.trans hgrew) hclose
  have hcount : (closeAtEnd u).count = BitVec.ofNat 32 s.src.length := by rw [hclosed, hframe]
  refine ⟨closeAtEnd u, artifact, ?_, hartifact, hartbits, ?_, fun h => ?_, fun t h => ?_⟩
  · rw [exec_compress, runMacro, hrun, ← hcount]; rfl
  · rw [hclosed, hframe]; rfl
  · obtain ⟨hempty, -, -, hcode⟩ := hnone h
    rw [hclosed]; exact ⟨hempty, hcode⟩
  · obtain ⟨hholds, hcode⟩ := hsome t h
    rw [hclosed]; exact ⟨hholds.congr rfl rfl rfl, hcode⟩

/-- Settles O44: by `compressionLaw` both outputs hold the padded artifact of the one input, and bits determine bytes. -/
theorem compressionDeterministic : Obligations.CompressionDeterministic := by
  intro s s' t t' hsrc hfits hfits' ht ht'
  obtain ⟨u, artifact, hu, hsnk, hbits, -⟩ := compressionLaw s hfits
  obtain ⟨u', artifact', hu', hsnk', hbits', -⟩ := compressionLaw s' hfits'
  have hsame : artifact' = artifact := flatMap_msbBits_injective (by rw [hbits', hbits, hsrc])
  rw [hu] at ht
  rw [hu'] at ht'
  injection ht with ht
  injection ht' with ht'
  subst ht ht' hsame
  exact ⟨artifact', hsnk, hsnk'⟩

/-! ### DECOMPRESS -/

theorem exec_decompress (s : State) : exec .decompress s = runMacro decompressPhases s := rfl

theorem writerInv_initUnits (d : Bool) (s : State) : WriterInv (initUnits d s) :=
  ⟨Nat.zero_lt_one, fun h => by cases h⟩

/-- INIT starts the envelope, so the writer invariant holds after it from every state (R24, R130). -/
theorem writerInv_of_decompress {s t : State} (h : exec .decompress s = .next t) : WriterInv t :=
  kept_writerInv.exec (i := .decompress) (writerInv_initUnits false s) h

theorem WriterInv.wbuf_eq_zero {s : State} (h : WriterInv s) (hc : s.wclosed = true) : s.wbuf = 0 := by
  have hlt := h.1
  rw [h.2 hc] at hlt
  exact BitVec.eq_of_toNat_eq (Nat.lt_one_iff.mp hlt)

/-- Settles O49: the phases read the tree, the count and the symbols (`decompressPhases_ok`); what was put is whole bytes,
so `Close()` pads nothing, and by the writer invariant it leaves an empty buffer. -/
theorem decompressDecodesArtifact : Obligations.DecompressDecodesArtifact := by
  intro s t n l rest hb hsize hlen hreads
  rw [List.append_assoc, List.append_assoc] at hb
  obtain ⟨u, hrun, hopen, hrest, hcnt, hsrc, hput, hsnk, hholds, hframe⟩ := decompressPhases_ok hb hsize hlen hreads
  obtain ⟨hclose, hgrew, hclosed⟩ := closeAtEnd_ok hopen
  have hcount : (closeAtEnd u).count = n := by rw [hclosed, hframe]
  have hexec : exec .decompress s = .next (completeCommand 7 (resultWord n) (closeAtEnd u)) := by
    rw [exec_decompress, runMacro, hrun, ← hcount]; rfl
  have hwbuf : (closeAtEnd u).wbuf = 0 :=
    (writerInv_of_decompress hexec).wbuf_eq_zero (by show (closeAtEnd u).wclosed = true; rw [hclosed])
  obtain ⟨bytes, hbytes, hbits⟩ := closed_bytes hput (hsnk.trans hgrew) hclose
  have hwhole : bytes = l.map Prod.fst := by
    refine flatMap_msbBits_injective ?_
    rw [hbits, padding_of_dvd, List.append_nil, List.flatMap_map]
    simp [List.length_flatMap]
  refine ⟨closeAtEnd u, t.renumber 0, hexec, by rw [hbytes, hwhole], ?_, ?_, ?_, ?_, t.renumber_sameShape 0, ?_⟩
  · rw [hclosed]; exact hrest
  · rw [hclosed]; exact hcnt
  · rw [hclosed]; exact hsrc
  · rw [hclosed]; exact hholds.congr rfl rfl rfl
  · rw [hwbuf] at hclosed
    rw [hclosed, hframe]; rfl

/-- Settles O50: if SRC begins with a tree, a count and that many symbols, `decompressDecodesArtifact`; else the phase that
fails, with its error (`decompressPhases_cases`), and then `Close()`. -/
theorem decompressAlwaysDefined : Obligations.DecompressAlwaysDefined := by
  intro s
  rcases decompressPhases_cases s with ⟨t, n, l, rest, hb, hsize, hlen, hreads⟩ |
    ⟨e, p, u, hrun, herr, hopen, -, -, htree, hframe⟩
  · rw [← List.append_assoc, ← List.append_assoc] at hb
    obtain ⟨u, -, hexec, -, -, -, -, -, -, hframe⟩ := decompressDecodesArtifact s t n l rest hb hsize hlen hreads
    rw [hframe] at hexec
    exact ⟨_, hexec, rfl, rfl, .head _, iff_of_false Bool.false_ne_true (show (7 : BitVec 4) ≠ 8 by decide), rfl⟩
  · obtain ⟨-, -, hclosed⟩ := closeAtEnd_ok hopen
    refine ⟨takeError e p (closeAtEnd u), by rw [exec_decompress, runMacro, hrun], ?_, ?_, ?_, ?_, ?_⟩
    · rw [hclosed]; rfl
    · rw [hclosed]; rfl
    · show (errCode e, p) ∈ _
      rcases herr with ⟨rfl, rfl | rfl | rfl⟩ | ⟨rfl, rfl⟩ <;> decide
    · have hempty : (takeError e p (closeAtEnd u)).treeEmpty = u.treeEmpty := by rw [hclosed]; rfl
      show _ ↔ p = phaseRtree
      rw [hempty]
      rcases htree with ⟨hp, htrue⟩ | ⟨hp, t, hholds⟩
      · exact iff_of_true htrue hp
      · exact iff_of_false (by rw [hholds.present]; decide) hp
    · rw [hclosed, hframe]; rfl

/-! ### The round trip -/

theorem mem_usedSymbols_inputFreq {input : List Byte} (hcap : input.length ≤ Config.inbufCapMax) {b : Byte} :
    b ∈ usedSymbols (inputFreq input) ↔ b ∈ input := by
  rw [mem_usedSymbols, ← List.count_pos_iff, ← inputFreq_toNat hcap, Nat.pos_iff_ne_zero, ne_eq, ne_eq,
    ← BitVec.toNat_inj]; rfl

/-- The tree of a frequency table has a leaf for each used symbol, hence at most 511 nodes (R195). -/
theorem huffmanTree_spec {f : Vector Word 256} {t : Tree} (h : huffmanTree f = some t) :
    t.symbols.Perm (usedSymbols f) ∧ t.size ≤ Config.nodeCap := by
  have hused : usedSymbols f ≠ [] := fun hnil => by rw [huffmanTree_none_iff.mpr hnil] at h; cases h
  obtain ⟨t', -, htree, -, -, -, -, hperm, -⟩ := buildTree_some (s := { State.reset with freq := f }) hused
  obtain rfl : t' = t := Option.some.inj (htree.symm.trans h)
  have hsize := t'.size_eq
  have hle := usedSymbols_length_le f
  have hleaves : t'.symbols.length = (usedSymbols f).length := hperm.length_eq
  exact ⟨hperm, by rw [Config.nodeCap]; omega⟩

/-- The artifact of an input is a tree, the count and, symbol by symbol, bits that DECODE reads as the input (R69 to
R72): the marker's tree and no symbol for the empty input. -/
theorem artifactBits_decodes {input : List Byte} (hcap : input.length ≤ Config.inbufCapMax) :
    ∃ (t : Tree) (l : List (Byte × List Bool)),
      artifactBits input = t.bits ++ msbBits (BitVec.ofNat 32 input.length) ++ l.flatMap Prod.snd
      ∧ t.size ≤ Config.nodeCap ∧ l.map Prod.fst = input ∧ ∀ p ∈ l, t.reads p.1 p.2 := by
  cases htree : huffmanTree (inputFreq input) with
  | none =>
    have hnil : input = [] := by
      refine List.eq_nil_iff_forall_not_mem.mpr fun b hb => ?_
      rw [← mem_usedSymbols_inputFreq hcap, huffmanTree_none_iff.mp htree] at hb
      exact List.not_mem_nil hb
    subst hnil
    refine ⟨.leaf 0 0, [], ?_, by decide, rfl, fun p hp => absurd hp List.not_mem_nil⟩
    rw [artifactBits_none htree, List.flatMap_nil, List.append_nil]; rfl
  | some t =>
    obtain ⟨hperm, hsize⟩ := huffmanTree_spec htree
    refine ⟨t, input.map fun b => (b, t.code b), ?_, hsize, ?_, fun p hp => ?_⟩
    · rw [artifactBits_some htree, List.flatMap_map]
    · rw [List.map_map]; exact List.map_id input
    · obtain ⟨b, hb, rfl⟩ := List.mem_map.mp hp
      exact Tree.code_reads (hperm.mem_iff.mpr ((mem_usedSymbols_inputFreq hcap).mpr hb))

/-- A reader that holds less than a byte and has left fewer than 8 bits before a whole number of bytes has taken no byte
of these (R140). -/
theorem src_eq_of_readerBits {u : State} {bytes more : List Byte} {pad : List Bool}
    (hbits : readerBits u = pad ++ more.flatMap msbBits) (hpad : pad.length < 8) (hcnt : u.rcnt.val < 8)
    (hsrc : u.src <:+ bytes ++ more) : u.src = more := by
  have hlen := congrArg List.length hbits
  rw [readerBits_length, bitsLeft, List.length_append, flatMap_msbBits_length] at hlen
  exact (List.suffix_of_suffix_length_le hsrc (List.suffix_append bytes more) (by omega)).eq_of_length (by omega)

/-- Settles O51: COMPRESS appends the padded artifact (`compressionLaw`), which begins with the bits of a tree, the count
and the input's symbols (`artifactBits_decodes`), so DECOMPRESS reads these back (`decompressDecodesArtifact`). -/
theorem roundTrip : Obligations.RoundTrip := by
  intro s t s2 artifact more hwf hfits ht hsnk hsrc
  have hcap : s.src.length ≤ Config.inbufCapMax := le_trans hfits ((tablesWf_iff s).mp hwf).2.1
  obtain ⟨u, bytes, hexec, hbytes, hbits, -⟩ := compressionLaw s hfits
  obtain rfl : bytes = artifact := by
    rw [hexec] at ht
    injection ht with ht
    rw [← ht] at hsnk
    exact List.append_cancel_left (hbytes.symm.trans hsnk)
  obtain ⟨tree, l, hartifact, hsize, hsymbols, hreads⟩ := artifactBits_decodes hcap
  have hcount : (BitVec.ofNat 32 s.src.length).toNat = s.src.length :=
    Nat.mod_eq_of_lt (by rw [Config.inbufCapMax] at hcap; omega)
  have hinput : s2.src.flatMap msbBits = tree.bits ++ msbBits (BitVec.ofNat 32 s.src.length) ++ l.flatMap Prod.snd
      ++ (padding (artifactBits s.src) ++ more.flatMap msbBits) := by
    rw [← hartifact, hsrc, List.flatMap_append, hbits, List.append_assoc]; rfl
  have hlen : l.length = (BitVec.ofNat 32 s.src.length).toNat := by rw [hcount, ← hsymbols, List.length_map]
  obtain ⟨u2, -, hexec2, hsnk2, hrest2, hcnt2, hsrc2, -, -, hframe2⟩ :=
    decompressDecodesArtifact s2 tree _ l _ hinput hsize hlen hreads
  refine ⟨_, hexec2, by rw [← hsymbols]; exact hsnk2, rfl, rfl, ?_, ?_⟩
  · show u2.count.toNat = _
    rw [hframe2]; exact hcount
  · exact src_eq_of_readerBits hrest2 (padding_length_lt _) hcnt2 (hsrc ▸ hsrc2)

end Sys2Proof.Machine
end

section
/-! RTREE (45_codec_decode.md R240, R241). -/

namespace Sys2Proof.Machine

theorem exec_rtree (s : State) : exec .rtree s = finishMicro (readTree s) fun _ t =>
    { tie := 0, node := t.root, result := t.nNodes.setWidth 32 } := rfl

theorem nNodes_setWidth {s : State} (h : s.node.length ≤ Config.nodeCap) :
    (s.nNodes.setWidth 32 : Word) = BitVec.ofNat 32 s.node.length := by
  rw [Config.nodeCap] at h
  apply BitVec.eq_of_toNat_eq
  rw [State.nNodes, BitVec.toNat_setWidth, BitVec.toNat_ofNat, BitVec.toNat_ofNat]
  omega

/-- RTREE reads no frequencies, so every record it writes has 0 (R240). -/
theorem Tree.records_freq (t : Tree) : ∀ r ∈ t.records, r.freq = 0 := by
  induction t with
  | leaf i b => intro r hr; rw [List.mem_singleton.mp hr]; rfl
  | inner i l r ihl ihr =>
    intro q hq
    rcases List.mem_cons.mp hq with rfl | hq
    · rfl
    · exact (List.mem_append.mp hq).elim (ihl q) (ihr q)

theorem nodeAt_mem {s : State} {l : List NodeRec} (h : s.node = l.map some) {i : Idx} {r : NodeRec}
    (hi : s.nodeAt i = some r) : r ∈ l := by
  rw [State.nodeAt, h, List.getElem?_map] at hi
  cases hl : l[i.toNat]? with
  | none => rw [hl] at hi; cases hi
  | some q =>
    rw [hl] at hi
    obtain rfl : q = r := Option.some.inj hi
    exact List.mem_of_getElem? hl

/-- Settles O46: `readTree_ok` on the bits of a tree that fits; on any others `readTree_cases` leaves only the failures,
each with the nodes and the part of a node consumed before it (`StopsInTree`). -/
theorem rtreeRebuildsTree : Obligations.RtreeRebuildsTree := by
  refine fun s => ⟨fun t rest hb hsize => ?_, fun hno => ?_⟩ <;> simp only [exec_rtree]
  · obtain ⟨u, hu, hrest, hholds, hframe, hcnt, hsrc⟩ := readTree_ok t hb hsize
    have hnode : u.node = (t.renumber 0).records.map some := by rw [hframe]
    have hlen : u.node.length = t.size := by rw [hnode, List.length_map, Tree.records_length, Tree.renumber_size]
    have hroot : u.root = 0 := by rw [hframe]
    refine ⟨u, t.renumber 0, ?_, ?_, hrest, hcnt, hsrc, hholds, t.renumber_sameShape 0, ?_, hlen, fun i r hi => ?_⟩
    · rw [hu, ← hlen, ← nNodes_setWidth (hlen ▸ hsize), ← hroot]; rfl
    · rw [← hnode] at hframe; exact hframe
    · rw [Tree.renumber_indices, List.range_eq_range']
    · exact Tree.records_freq _ r (nodeAt_mem hnode hi)
  · rcases readTree_cases s with ⟨t, u, -, hb, hsize, -⟩ | ⟨e, u, hu, ⟨t, k, part, hk, hb, hend⟩, hcap, hframe⟩
    · exact absurd ⟨_, hb.symm⟩ (hno t hsize)
    · simp only [State.setArena_node, List.length_nil, Nat.zero_add] at hend
      refine ⟨e, u, t, k, part, by rw [hu]; rfl, hk, hb, ?_, hframe⟩
      rcases hend with ⟨he, hdrained, ⟨hpart, hlen⟩ | ⟨hpart, hlen⟩⟩ | hfull
      · exact .inl ⟨he, hdrained, .inl ⟨hpart, hlen ▸ hcap, hlen⟩⟩
      · exact .inl ⟨he, hdrained, .inr ⟨hpart, by omega, hlen⟩⟩
      · exact .inr hfull

end Sys2Proof.Machine
end

section
/-! The laws of the queue (10_state.md R32; 42_priority_queue.md R170 to R174). -/

namespace Sys2Proof.Machine

/-- Settles O24: the two cases of `HeapPush(e)`, with `heapInsert_perm` and `heapInsert_ordered`. -/
theorem pushInsertsOnce : Obligations.PushInsertsOnce := by
  refine fun f tie node s => ⟨fun hfull => ?_, fun hcap => ?_⟩
  · rw [exec_push, heapPush_full _ hfull.ge]; rfl
  · exact ⟨heapInsert s.pqDesc s.heap _, by rw [exec_push, heapPush_ok _ hcap]; rfl, heapInsert_perm _ _ _,
      heapInsert_ordered _⟩

/-- Settles O26: the two cases of `HeapPop()`, with `heapRemove_perm` and `heapRemove_ordered`. -/
theorem popRemovesRoot : Obligations.PopRemovesRoot := by
  refine fun s => ⟨exec_pop_empty, fun e rest hs => ?_⟩
  refine ⟨heapRemove s.pqDesc s.heap, exec_pop_cons hs, ?_, heapRemove_ordered⟩
  rw [hs]; exact heapRemove_perm _ e rest

/-- Pushes that fit: each answers with no result, and the queue holds the elements besides its old ones (R174). -/
theorem runCommands_pushes (es : List Element) : ∀ {s : State}, s.heap.length + es.length ≤ Config.pqCap →
    heapOrdered s.pqDesc s.heap → ∃ t, runCommands (es.map fun e => .push e.freq e.tie e.node) s = .next t
      ∧ t.resps = s.resps ++ List.replicate es.length (okResponse resultNone) ∧ t.heap.Perm (es ++ s.heap)
      ∧ t.pqDesc = s.pqDesc ∧ heapOrdered t.pqDesc t.heap := by
  induction es with
  | nil => exact fun {s} _ hord => ⟨s, rfl, (List.append_nil _).symm, .refl _, rfl, hord⟩
  | cons e es ih =>
    intro s hcap hord
    rw [List.length_cons] at hcap
    obtain ⟨h, hexec, hperm, hkept⟩ := (pushInsertsOnce e.freq e.tie e.node s).2 (by omega)
    have hlen : h.length = s.heap.length + 1 := hperm.length_eq
    obtain ⟨t, hrun, hresps, hheap, hdesc, hordt⟩ :=
      ih (s := completeCommand 0 resultNone { s with heap := h }) (by show h.length + _ ≤ _; omega) (hkept hord)
    refine ⟨t, runCommands_cons_next.mpr ⟨_, hexec, hrun⟩, ?_, ?_, hdesc, hordt⟩
    · rw [hresps, List.length_cons, List.replicate_succ]; exact List.append_assoc _ [_] _
    · exact hheap.trans ((hperm.append_left es).trans List.perm_middle)

/-- Pops of a whole queue: they return its elements, no later one before an earlier one (R174). -/
theorem runCommands_pops (n : Nat) : ∀ {s : State}, s.heap.length = n → heapOrdered s.pqDesc s.heap →
    ∃ (t : State) (out : List Element), runCommands (List.replicate n .pop) s = .next t
      ∧ t.resps = s.resps ++ out.map (fun e => okResponse { tie := e.tie, node := e.node, result := e.freq })
      ∧ out.Perm s.heap ∧ (out.Pairwise fun a b => before s.pqDesc b a = false) ∧ t.heap = [] := by
  induction n with
  | zero =>
    intro s hlen _
    have hnil := List.length_eq_zero_iff.mp hlen
    exact ⟨s, [], rfl, (List.append_nil _).symm, hnil ▸ .refl _, .nil, hnil⟩
  | succ n ih =>
    intro s hlen hord
    obtain ⟨e, rest, hs⟩ := List.exists_cons_of_length_eq_add_one hlen
    obtain ⟨h, hexec, hperm, hkept⟩ := (popRemovesRoot s).2 e rest hs
    have hrest : h.length = n := by rw [hperm.length_eq]; rw [hs] at hlen; exact Nat.succ_injective hlen
    obtain ⟨t, out, hrun, hresps, hout, hpair, hempty⟩ :=
      ih (s := completeCommand 0 { tie := e.tie, node := e.node, result := e.freq } { s with heap := h }) hrest (hkept hord)
    have hleast : ∀ x ∈ out, before s.pqDesc x e = false := fun x hx => by
      rw [hs] at hord
      exact not_before_iff_rank_le.mpr
        (heapOrdered_head_le hord x (List.mem_cons_of_mem e ((hout.trans hperm).mem_iff.mp hx)))
    refine ⟨t, e :: out, runCommands_cons_next.mpr ⟨_, hexec, hrun⟩, ?_, ?_, .cons hleast hpair, hempty⟩
    · rw [hresps]; exact List.append_assoc _ [_] _
    · rw [hs]; exact (hout.trans hperm).cons e

/-- Settles O31: the pushes make a heap of the elements (`runCommands_pushes`), the pops empty it (`runCommands_pops`). -/
theorem queueLaw : Obligations.QueueLaw := by
  intro es s hempty hcap
  obtain ⟨u, hpush, hresps, hheap, hdesc, hord⟩ :=
    runCommands_pushes es (s := s) (by rw [hempty]; simpa using hcap) (heapInv_nil hempty)
  rw [hempty, List.append_nil] at hheap
  obtain ⟨t, out, hpop, hrespt, hout, hpair, hnil⟩ := runCommands_pops es.length hheap.length_eq hord
  exact ⟨t, out, runCommands_append_next.mpr ⟨u, hpush, hpop⟩, by rw [hrespt, hresps], hout.trans hheap, hdesc ▸ hpair, hnil⟩

end Sys2Proof.Machine
end

section
/-! The laws of FREQ, BUILD and CODES (43_tree_builder.md R191, R196; 44_codec_encode.md R211). -/

namespace Sys2Proof.Machine

/-! ### FREQ -/

theorem inLen_toNat {s : State} (h : s.inbuf.length ≤ Config.inbufCapMax) : s.inLen.toNat = s.inbuf.length := by
  rw [Config.inbufCapMax] at h
  rw [State.inLen, BitVec.toNat_ofNat]
  exact Nat.mod_eq_of_lt (by omega)

/-- R191: a table that counts the buffered input sums, as numbers, to its length, and no entry exceeds it. -/
theorem FreqInv.sum {s : State} (h : FreqInv s) :
    (allSymbols.map fun b => (s.freqAt b).toNat).sum = s.inbuf.length ∧ ∀ b, (s.freqAt b).toNat ≤ s.inbuf.length := by
  refine ⟨?_, fun b => by rw [h b]; exact List.count_le_length⟩
  rw [← sum_count s.inbuf]
  exact congrArg List.sum (List.map_congr_left fun b _ => h b)

/-- R191: a table filled from the buffered input sums to `in_len`, and no entry exceeds it. -/
theorem frequencySum_of_inputFreq {t : State} {l : List Byte} (hin : t.inbuf = l) (hfreq : t.freq = inputFreq l)
    (hcap : l.length ≤ Config.inbufCapMax) :
    (allSymbols.map fun b => (t.freqAt b).toNat).sum = t.inLen.toNat ∧ (∀ b, (t.freqAt b).toNat ≤ t.inLen.toNat)
    ∧ t.inLen.toNat = l.length := by
  subst hin
  have hcounts : FreqInv t := fun b => by rw [State.freqAt, hfreq, inputFreq_toNat hcap]
  rw [inLen_toNat hcap]
  exact ⟨hcounts.sum.1, hcounts.sum.2, rfl⟩

/-- Settles O33: FREQ's table is filled from what FREQ buffered (`freqCountsInput`), at most INBUF_CAP bytes. -/
theorem frequencySum : Obligations.FrequencySum := by
  intro s hwf
  have hmax : s.inbufCap ≤ Config.inbufCapMax := inbufCap_le_of_tablesWf hwf
  by_cases hfits : s.src.length ≤ s.inbufCap
  · obtain ⟨t, hexec, hin, hfreq, herr, hcount⟩ : ∃ t, exec .freq s = .next t ∧ t.inbuf = s.src
        ∧ t.freq = inputFreq s.src ∧ t.lastErr = 0 ∧ t.count = t.inLen :=
      ⟨_, (freqCountsInput s).1 hfits, rfl, rfl, rfl, rfl⟩
    obtain ⟨hsum, hle, hlen⟩ := frequencySum_of_inputFreq hin hfreq (le_trans hfits hmax)
    exact ⟨t, hexec, hsum, hle, fun _ => ⟨herr, hcount, hlen⟩, fun hover => absurd hfits (by omega)⟩
  · have hover : s.inbufCap < s.src.length := by omega
    have htake : (s.src.take s.inbufCap).length = s.inbufCap := List.length_take_of_le hover.le
    obtain ⟨t, hexec, hin, hfreq, herr, hcount⟩ : ∃ t, exec .freq s = .next t ∧ t.inbuf = s.src.take s.inbufCap
        ∧ t.freq = inputFreq (s.src.take s.inbufCap) ∧ t.lastErr = 4 ∧ t.count = 0 :=
      ⟨_, (freqCountsInput s).2 hover, rfl, rfl, rfl, rfl⟩
    obtain ⟨hsum, hle, hlen⟩ := frequencySum_of_inputFreq hin hfreq (htake.trans_le hmax)
    exact ⟨t, hexec, hsum, hle, fun h => absurd h hfits, fun _ => ⟨herr, hcount, hlen.trans htake⟩⟩

/-! ### BUILD -/

theorem recordOf_freq (f : Vector Word 256) (t : Tree) : (recordOf f t).freq = weight f t.symbols := by
  cases t with
  | leaf i b => exact (BitVec.add_zero _).symm
  | inner i l r => rfl

theorem Tree.self_mem_subtrees (t : Tree) : t ∈ t.subtrees := by
  cases t with
  | leaf i b => exact List.mem_singleton_self _
  | inner i l r => exact List.mem_cons_self

theorem mem_usedSymbols_of_mem {s : State} (h : FreqInv s) {b : Byte} (hb : b ∈ s.inbuf) : b ∈ usedSymbols s.freq := by
  rw [mem_usedSymbols]
  intro h0
  have hcount : (0 : Word).toNat = s.inbuf.count b := h0 ▸ h b
  exact (List.count_pos_iff.mpr hb).ne hcount

/-- Settles O36: the records BUILD writes hold the sums of the frequencies below (`buildMakesTree`); a sum of counts is the
number of bytes counted (`weight_toNat`), and every buffered byte is below the root. -/
theorem buildSumLaw : Obligations.BuildSumLaw := by
  intro s t hwf hfreq htree
  obtain ⟨-, hmax, hlen, -⟩ := (tablesWf_iff s).mp hwf
  have hused : usedSymbols s.freq ≠ [] := fun hnil => by rw [huffmanTree_none_iff.mpr hnil] at htree; cases htree
  obtain ⟨t', u, htree', hexec, -, hholds, hperm, -, -, -, hrecords⟩ := (buildMakesTree s).2 hused
  obtain rfl : t' = t := Option.some.inj (htree'.symm.trans htree)
  have hsum : ∀ v ∈ t'.subtrees,
      (recordOf s.freq v).freq.toNat = (s.inbuf.filter fun b => b ∈ v.symbols).length := fun v hv => by
    have hnodup : v.symbols.Nodup :=
      (subtrees_symbols t' v hv).nodup (hperm.nodup_iff.mpr (usedSymbols_nodup s.freq))
    rw [recordOf_freq, weight_toNat s.freq s.inbuf hfreq (by rw [Config.inbufCapMax] at hmax; omega) _ hnodup]
  have hroot : s.inbuf.filter (fun b => b ∈ t'.symbols) = s.inbuf :=
    List.filter_eq_self.mpr fun b hb => decide_eq_true (hperm.mem_iff.mpr (mem_usedSymbols_of_mem hfreq hb))
  refine ⟨u, hexec, hholds, fun v hv => ⟨_, hrecords v hv, hsum v hv⟩, recordOf s.freq t', ?_, ?_⟩
  · rw [← hholds.top]; exact hrecords t' t'.self_mem_subtrees
  · rw [hsum t' t'.self_mem_subtrees, hroot]

/-! ### CODES -/

/-- R210: a tree gives a code to the symbols of its leaves and to no other. -/
theorem Tree.code_ne_nil_iff (t : Tree) (b : Byte) : t.code b ≠ [] ↔ b ∈ t.symbols := by
  cases t with
  | leaf i c => by_cases hbc : b = c <;> simp [Tree.code, Tree.symbols, hbc]
  | inner i l r =>
    rcases Tree.code_inner (i := i) (l := l) (r := r) b with ⟨hmem, hpath⟩ | ⟨hmem, hcode⟩
    · exact iff_of_true (Tree.paths_ne_nil rfl _ hpath) hmem
    · exact iff_of_false (fun h => h hcode) hmem

/-- R211: no code of a tree is the beginning of another's. -/
theorem Tree.code_prefix (t : Tree) {b c : Byte} (hb : t.code b ≠ []) (h : t.code b <+: t.code c) : b = c := by
  have hc : t.code c ≠ [] := fun hnil => hb (List.prefix_nil.mp (hnil ▸ h))
  rw [Tree.code_ne_nil_iff] at hb hc
  cases t with
  | leaf i x => exact (List.mem_singleton.mp hb).trans (List.mem_singleton.mp hc).symm
  | inner i l r =>
    have hpath : ∀ {a : Byte}, a ∈ (Tree.inner i l r).symbols →
        (a, (Tree.inner i l r).code a) ∈ (Tree.inner i l r).paths :=
      fun {a} ha => (Tree.code_inner a).elim And.right fun hnot => absurd ha hnot.1
    exact congrArg Prod.fst (Tree.paths_prefix _ _ (hpath hb) _ (hpath hc) h)

/-- Settles O38: for an unused table neither BUILD nor CODES makes anything; for any other the codes are those of the tree
BUILD made (`buildMakesTree`, `codesAreTreePaths`), whose leaves are the used symbols. -/
theorem prefixLaw : Obligations.PrefixLaw := by
  intro s
  have hmem : ∀ b, b ∈ usedSymbols s.freq ↔ s.freqAt b ≠ 0 := fun _ => mem_usedSymbols
  by_cases hused : usedSymbols s.freq = []
  · obtain ⟨t, ht, hcode⟩ : ∃ t, runCommands [.build, .codes] s = .next t ∧ t.code = Vector.replicate 256 [] :=
      ⟨_, runCommands_cons_next.mpr ⟨_, (buildMakesTree s).1 hused,
        runCommands_singleton_next.mpr ((codesAreTreePaths _).1 rfl)⟩, rfl⟩
    have hnone : ∀ b, t.codeAt b = [] := fun b => by rw [State.codeAt, hcode, get_replicate_nil]
    refine ⟨t, ht, fun b => iff_of_false (fun h => h (hnone b)) ?_, fun b c hb => absurd (hnone b) hb⟩
    rw [← hmem, hused]; exact List.not_mem_nil
  · obtain ⟨tree, u, -, hbuild, -, hholds, hperm, hlen, -⟩ := (buildMakesTree s).2 hused
    have hcap : u.node.length ≤ Config.nodeCap := by
      have hle := usedSymbols_length_le s.freq
      rw [Config.nodeCap]; omega
    obtain ⟨code, hcodes, hcode⟩ := (codesAreTreePaths (completeCommand 0 _ u)).2 tree
      (hholds.congr rfl rfl rfl) hcap
    refine ⟨_, runCommands_cons_next.mpr ⟨_, hbuild, runCommands_singleton_next.mpr hcodes⟩, fun b => ?_, fun b c hb h => ?_⟩
    · show code.get (symIndex b) ≠ [] ↔ _
      rw [hcode, Tree.code_ne_nil_iff, hperm.mem_iff, hmem]
    · have hb' : tree.code b ≠ [] := hcode b ▸ hb
      have h' : code.get (symIndex b) <+: code.get (symIndex c) := h
      rw [hcode, hcode] at h'
      exact tree.code_prefix hb' h'

end Sys2Proof.Machine
end

section
/-! The laws of the bit reader and the bit writer (41_bitstream.md R147, R148). -/

namespace Sys2Proof.Machine

/-! ### The reader -/

/-- GETBITs of bits that are left: they return them in order and consume them (R140). -/
theorem runCommands_getbits (bits : List Bool) : ∀ {s : State} {rest : List Bool}, readerBits s = bits ++ rest →
    ∃ t, runCommands (List.replicate bits.length .getbit) s = .next t
      ∧ t.resps = s.resps ++ bits.map (fun b => okResponse (resultWord ((BitVec.ofBool b).setWidth 32)))
      ∧ readerBits t = rest ∧ t.src <:+ s.src ∧ (s.rcnt.val < 8 → t.rcnt.val < 8) := by
  induction bits with
  | nil => exact fun {s} _ h => ⟨s, rfl, (List.append_nil _).symm, h, List.suffix_refl _, id⟩
  | cons b bits ih =>
    intro s rest h
    obtain ⟨u, hu, hrest, honly, hcnt, hsrc⟩ := getBit_ok h
    have hexec : exec .getbit s = .next (completeCommand 0 (resultWord ((BitVec.ofBool b).setWidth 32)) u) := by
      rw [exec_getbit, hu]; rfl
    obtain ⟨t, hrun, hresps, hleft, hsuffix, hkept⟩ := ih (s := completeCommand 0 _ u) hrest
    have huresps : u.resps = s.resps := by rw [honly]; rfl
    refine ⟨t, runCommands_cons_next.mpr ⟨_, hexec, hrun⟩, ?_, hleft, hsuffix.trans hsrc, fun _ => hkept hcnt⟩
    rw [hresps, ← huresps]
    exact List.append_assoc _ [_] _

/-- Settles O16: from an exhausted buffer the first k bits left are the first k of SRC, and of the bytes of SRC that are
left the reader holds less than one (`runCommands_getbits`). -/
theorem readerLaw : Obligations.ReaderLaw := by
  intro s k h0 hk
  have hbits : readerBits s = s.src.flatMap msbBits := by rw [readerBits, h0]; rfl
  have hlen : (s.src.flatMap msbBits).length = 8 * s.src.length := flatMap_msbBits_length s.src
  have htake : ((s.src.flatMap msbBits).take k).length = k := List.length_take_of_le (hlen ▸ hk)
  obtain ⟨t, hrun, hresps, hleft, hsrc, hcnt⟩ := runCommands_getbits ((s.src.flatMap msbBits).take k)
    (hbits.trans (List.take_append_drop k _).symm)
  have hcnt8 : t.rcnt.val < 8 := hcnt (by rw [h0]; decide)
  have hcount : t.rcnt.val + 8 * t.src.length = 8 * s.src.length - k := by
    rw [← hlen, ← List.length_drop, ← hleft, readerBits_length, bitsLeft]
  rw [htake] at hrun
  refine ⟨t, hrun, ?_, ?_, fun hall => ?_⟩
  · rw [hresps, take_flatMap_msbBits s.src k hk, List.map_map]; rfl
  · rw [suffix_eq_drop hsrc]; congr 1; omega
  · have hnone : readerBits t = [] := by rw [hleft, hall, ← hlen, List.drop_length]
    rw [exec_getbit, getBit_eos hnone]; rfl

/-! ### The writer -/

/-- Puts on an open writer: their bits follow those already put (R143 to R145). -/
theorem runCommands_puts (is : List Instr) : ∀ {s : State}, (∀ i ∈ is, isPut i = true) → s.wclosed = false →
    ∃ t, runCommands is s = .next t ∧ writerBits t = writerBits s ++ is.flatMap putBitsOf ∧ t.wclosed = false
      ∧ s.snk <+: t.snk := by
  induction is with
  | nil => exact fun {s} _ hw => ⟨s, rfl, (List.append_nil _).symm, hw, List.prefix_refl _⟩
  | cons i is ih =>
    intro s hput hw
    obtain ⟨hi, his⟩ := List.forall_mem_cons.mp hput
    obtain ⟨u, hu, hbits, honly, hsnk⟩ := putBits_ok (putBitsOf i) hw
    have hexec : exec i s = .next (completeCommand 0 resultNone u) := by rw [exec_put hi, hu]; rfl
    obtain ⟨t, hrun, hbitst, hopen, hsnkt⟩ := ih (s := completeCommand 0 resultNone u) his (by rw [honly]; exact hw)
    refine ⟨t, runCommands_cons_next.mpr ⟨_, hexec, hrun⟩, ?_, hopen, hsnk.trans hsnkt⟩
    rw [hbitst, List.flatMap_cons, ← List.append_assoc, ← hbits]; rfl

theorem eq_getD_of_getElem?_append_replicate {bits : List Bool} {n k : Nat} {b : Bool}
    (h : (bits ++ List.replicate n false)[k]? = some b) : b = bits.getD k false := by
  by_cases hin : k < bits.length
  · rw [List.getElem?_append_left hin] at h
    rw [List.getD_eq_getElem?_getD, h]; rfl
  · rw [List.getElem?_append_right (by omega)] at h
    rw [List.getD_eq_default _ _ (by omega)]
    exact List.eq_of_mem_replicate (List.mem_of_getElem? h)

/-- Bytes whose bits are a sequence and its padding: how many there are, and each bit of theirs (R147). -/
theorem bytes_of_padded {bytes : List Byte} {bits : List Bool} (h : bytes.flatMap msbBits = bits ++ padding bits) :
    bytes.length = (bits.length + 7) / 8
    ∧ ∀ k, k < 8 * bytes.length → (bytes.getD (k / 8) 0).getLsbD (7 - k % 8) = bits.getD k false := by
  have hlen := congrArg List.length h
  rw [flatMap_msbBits_length, List.length_append, padding, List.length_replicate] at hlen
  refine ⟨by omega, fun k hk => ?_⟩
  refine eq_getD_of_getElem?_append_replicate (n := (8 - bits.length % 8) % 8) ?_
  rw [← flatMap_msbBits_getElem bytes k hk, h]; rfl

/-- Settles O21: the puts append their bits (`runCommands_puts`), CLOSE pads them to whole bytes (`closed_bytes`). -/
theorem writerLaw : Obligations.WriterLaw := by
  intro is s hput hw h0
  have hstart : writerBits s = s.snk.flatMap msbBits := by rw [writerBits, h0]; exact List.append_nil _
  obtain ⟨u, hrun, hbits, hopen, hsnk⟩ := runCommands_puts is hput hw
  obtain ⟨v, hv, hclosed, hv0, hclose, hgrew, -⟩ := closeWriter_ok hopen
  have hexec : exec .close u = .next (completeCommand 0 resultNone v) := by rw [exec_close, hv]; rfl
  obtain ⟨bytes, hbytes, hpadded⟩ := closed_bytes (hstart ▸ hbits) (hsnk.trans hgrew) hclose
  obtain ⟨hlen, hget⟩ := bytes_of_padded hpadded
  exact ⟨_, bytes, runCommands_append_next.mpr ⟨u, hrun, runCommands_singleton_next.mpr hexec⟩, hbytes, hlen, hget, hclosed,
    hv0⟩

end Sys2Proof.Machine
end

section
/-! How a command ends (40_control.md R132; 60_exceptions.md R276): the common epilogue, its one response, and the errors
each command can end with (60_exceptions.md R277). -/

namespace Sys2Proof.Machine

/-! ### The three kinds of commands -/

/-- A micro command other than STAT: one procedure that sees neither the status registers nor the responses, and then the
epilogue. -/
def RunsMicro (i : Instr) : Prop :=
  ∃ (α : Type) (r : State → Res α) (f : α → State → Result), Blind r ∧ ∀ s, exec i s = finishMicro (r s) f

theorem blind_heapTop : Blind heapTop := by
  intro s e p l
  cases hs : s.heap with
  | nil => rw [heapTop_empty hs, heapTop_empty (s := s.withStatus e p l) hs]; rfl
  | cons x rest => rw [heapTop_ok hs, heapTop_ok (s := s.withStatus e p l) hs]; rfl

/-- COMPRESS or DECOMPRESS: phases with procedures of the same sort, none numbered 7, in the envelope. -/
def RunsMacro (i : Instr) : Prop :=
  ∃ ps : List Phase, (∀ p ∈ ps, Blind p.run ∧ p.number ≠ 7) ∧ ∀ s, exec i s = runMacro ps s

theorem runsMacro_compress : RunsMacro .compress := by
  refine ⟨compressPhases, ?_, exec_compress⟩
  simp only [compressPhases, List.forall_mem_cons]
  exact ⟨⟨blind_analyze, by decide⟩, ⟨blind_buildTree, by decide⟩, ⟨blind_makeCodes, by decide⟩,
    ⟨blind_writeTree, by decide⟩, ⟨blind_writeCount, by decide⟩, ⟨blind_writePayload, by decide⟩, by simp⟩

theorem runsMacro_decompress : RunsMacro .decompress := by
  refine ⟨decompressPhases, ?_, exec_decompress⟩
  simp only [decompressPhases, List.forall_mem_cons]
  exact ⟨⟨blind_readTree, by decide⟩, ⟨blind_readCount, by decide⟩, ⟨blind_decodeSymbols, by decide⟩, by simp⟩

theorem runsMicro {i : Instr} (hstat : ∀ sel, i ≠ .stat sel) (hcompress : i ≠ .compress)
    (hdecompress : i ≠ .decompress) : RunsMicro i := by
  cases i with
  | stat sel => exact absurd rfl (hstat sel)
  | compress => exact absurd rfl hcompress
  | decompress => exact absurd rfl hdecompress
  | init d => exact ⟨Unit, fun s => .ok () (initUnits d s), fun _ _ => resultNone, fun _ _ _ _ => rfl, fun _ => rfl⟩
  | getbit => exact ⟨_, getBit, _, blind_getBit, fun _ => rfl⟩
  | getchar => exact ⟨_, getChar, _, blind_getBits 8 0, fun _ => rfl⟩
  | getint => exact ⟨_, getInt, _, blind_getBits 32 0, fun _ => rfl⟩
  | putbit b => exact ⟨_, putBit b, _, blind_putBit b, fun _ => rfl⟩
  | putchar v => exact ⟨_, putChar v, _, blind_putBits _, fun _ => rfl⟩
  | putint w => exact ⟨_, putInt w, _, blind_putBits _, fun _ => rfl⟩
  | close => exact ⟨_, closeWriter, _, blind_closeWriter, fun _ => rfl⟩
  | push f tie node => exact ⟨_, heapPush _, _, blind_heapPush _, fun _ => rfl⟩
  | top => exact ⟨_, heapTop, _, blind_heapTop, fun _ => rfl⟩
  | pop => exact ⟨_, heapPop, _, blind_heapPop, fun _ => rfl⟩
  | size => exact ⟨Unit, .ok (), fun _ u => resultWord (u.pqSize.setWidth 32), fun _ _ _ _ => rfl, fun _ => rfl⟩
  | freq => exact ⟨_, analyze, _, blind_analyze, fun _ => rfl⟩
  | build => exact ⟨_, buildTree, _, blind_buildTree, fun _ => rfl⟩
  | codes => exact ⟨_, makeCodes, _, blind_makeCodes, fun _ => rfl⟩
  | wtree => exact ⟨_, writeTree, _, blind_writeTree, fun _ => rfl⟩
  | wcount => exact ⟨_, writeCount, _, blind_writeCount, fun _ => rfl⟩
  | wpayload => exact ⟨_, writePayload, _, blind_writePayload, fun _ => rfl⟩
  | rtree => exact ⟨_, readTree, _, blind_readTree, fun _ => rfl⟩
  | rcount => exact ⟨_, readCount, _, blind_readCount, fun _ => rfl⟩
  | decode => exact ⟨_, decodeSymbols, _, blind_decodeSymbols, fun _ => rfl⟩

/-! ### The epilogue -/

/-- The command from `s` to `t` recorded its one response `r` (R103, R132, R276). -/
structure Recorded (s t : State) (r : Response) : Prop where
  resps  : t.resps = s.resps ++ [r]
  err    : t.lastErr = r.err
  phase  : r.phase = t.lastPhase
  result : r.result = none ↔ r.err ≠ 0

theorem recorded_completeCommand {s u : State} (h : u.resps = s.resps) (p : BitVec 4) (x : Result) :
    Recorded s (completeCommand p x u) { err := 0, phase := p, result := some x } :=
  ⟨h ▸ rfl, rfl, rfl, by simp⟩

theorem recorded_takeError {s u : State} (h : u.resps = s.resps) (e : Err) (p : BitVec 4) :
    Recorded s (takeError e p u) (errResponse e p) :=
  ⟨h ▸ rfl, rfl, rfl, iff_of_true rfl (errCode_ne_zero e)⟩

/-- R132: a micro command other than STAT records its response, with phase 0. -/
theorem RunsMicro.recorded {i : Instr} (hi : RunsMicro i) {s t : State} (h : exec i s = .next t) :
    ∃ r, Recorded s t r ∧ t.lastPhase = 0 := by
  obtain ⟨α, r, f, hblind, hexec⟩ := hi
  rw [hexec] at h
  have hresps := hblind.all_resps s
  rcases finishMicro_next h with ⟨a, u, hu, rfl⟩ | ⟨e, u, hu, rfl⟩ <;> rw [hu] at hresps
  · exact ⟨_, recorded_completeCommand hresps 0 _, rfl⟩
  · exact ⟨_, recorded_takeError hresps e 0, rfl⟩

theorem runPhases_failed_number {ps : List Phase} {s u : State} {e : Err} {q : BitVec 4}
    (h : runPhases ps s = .failed e q u) : ∃ p ∈ ps, p.number = q := by
  induction ps generalizing s with
  | nil => cases h
  | cons p ps ih =>
    rw [runPhases] at h
    cases hp : p.run s with
    | ok a v =>
      rw [hp] at h
      obtain ⟨p', hmem, hq⟩ := ih h
      exact ⟨p', List.mem_cons_of_mem p hmem, hq⟩
    | raised x v => rw [hp] at h; injection h with _ hq; exact ⟨p, List.mem_cons_self, hq⟩
    | stuck f => rw [hp] at h; cases h

/-- R225, R255: the envelope records its response, with phase 7 exactly if no phase failed. -/
theorem RunsMacro.recorded {i : Instr} (hi : RunsMacro i) {s t : State} (h : exec i s = .next t) :
    ∃ r, Recorded s t r ∧ (r.err = 0 ↔ t.lastPhase = 7) := by
  obtain ⟨ps, hps, hexec⟩ := hi
  rw [hexec] at h
  have hresps : (runPhases ps (initUnits false s)).All fun u => u.resps = s.resps :=
    runPhases_all ps (fun p hp v hv => ((hps p hp).1.all_resps v).mono fun u hu => hu.trans hv) _ rfl
  rcases runMacro_next h with ⟨u, hu, rfl⟩ | ⟨e, q, u, hu, rfl⟩ <;> rw [hu] at hresps
  · exact ⟨_, recorded_completeCommand ((closeAtEnd_resps u).trans hresps) 7 _, iff_of_true rfl rfl⟩
  · obtain ⟨p, hp, rfl⟩ := runPhases_failed_number hu
    exact ⟨_, recorded_takeError ((closeAtEnd_resps u).trans hresps) e _, iff_of_false (errCode_ne_zero e) (hps p hp).2⟩

/-- R131: every selector up to 4 shows a word. -/
theorem statValue_eq_some {sel : Word} (h : sel.toNat ≤ 4) (s : State) : ∃ v, statValue sel s = some v := by
  unfold statValue
  interval_cases sel.toNat <;> exact ⟨_, rfl⟩

theorem exec_stat_cases (sel : Word) (s : State) :
    (4 < sel.toNat ∧ exec (.stat sel) s = .next (illegalCommand s))
      ∨ (sel.toNat ≤ 4 ∧ ∃ v, exec (.stat sel) s = .next { s with
          resps := s.resps ++ [{ err := 0, phase := s.lastPhase, result := some (resultWord v) }] }) := by
  by_cases hsel : 4 < sel.toNat
  · exact .inl ⟨hsel, exec_stat_illegal hsel s⟩
  · obtain ⟨v, hv⟩ := statValue_eq_some (Nat.le_of_not_lt hsel) s
    exact .inr ⟨Nat.le_of_not_lt hsel, v, exec_stat_of_statValue hv⟩

/-- Settles O12: a command other than STAT records its response (`RunsMicro.recorded`, `RunsMacro.recorded`); STAT with an
illegal selector is the illegal command, and with another one it only sends its response. -/
theorem commandEpilogue : Obligations.CommandEpilogue := by
  intro i s t h
  by_cases hstat : ∃ sel, i = .stat sel
  · obtain ⟨sel, rfl⟩ := hstat
    rcases exec_stat_cases sel s with ⟨-, hexec⟩ | ⟨-, v, hexec⟩ <;> obtain rfl := Host.Outcome.next.inj (h.symm.trans hexec)
    · have hr := recorded_takeError (s := s) rfl .illegal 0
      exact ⟨_, hr.resps, hr.phase, hr.result, fun _ => hr.err, fun _ h0 => absurd h0 (errCode_ne_zero .illegal),
        fun _ _ _ => rfl, nofun⟩
    · exact ⟨_, rfl, rfl, by simp, fun hor => absurd rfl (hor.resolve_left fun hne => hne sel rfl), fun _ _ => rfl,
        fun hor => absurd rfl (hor.resolve_left fun hne => hne sel rfl), nofun⟩
  · have hne : ∀ sel, i ≠ .stat sel := fun sel hsel => hstat ⟨sel, hsel⟩
    by_cases hmacro : i = .compress ∨ i = .decompress
    · have hi : RunsMacro i := by rcases hmacro with rfl | rfl; exacts [runsMacro_compress, runsMacro_decompress]
      obtain ⟨r, hr, h7⟩ := hi.recorded h
      exact ⟨r, hr.resps, hr.phase, hr.result, fun _ => hr.err, fun hs => absurd hs hstat,
        fun _ hc hd => absurd hmacro (not_or.mpr ⟨hc, hd⟩), fun _ => h7⟩
    · obtain ⟨hc, hd⟩ := not_or.mp hmacro
      obtain ⟨r, hr, h0⟩ := (runsMicro hne hc hd).recorded h
      exact ⟨r, hr.resps, hr.phase, hr.result, fun _ => hr.err, fun hs => absurd hs hstat, fun _ _ _ => h0,
        fun hm => absurd hm hmacro⟩

/-! ### The errors of each command -/

/-- A command that ends normally sends a response without error. -/
theorem err_of_completeCommand {i : Instr} {s t u : State} {p : BitVec 4} {x : Result} (h : exec i s = .next t)
    (hexec : exec i s = .next (completeCommand p x u)) (hu : u.resps = s.resps) :
    ∃ r, t.resps = s.resps ++ [r] ∧ r.err = 0 := by
  obtain rfl := Host.Outcome.next.inj (h.symm.trans hexec)
  exact ⟨_, (recorded_completeCommand hu p x).resps, rfl⟩

/-- A command that takes an error sends a response with its code (R276). -/
theorem err_of_takeError {i : Instr} {s t u : State} {e : Err} {p : BitVec 4} (h : exec i s = .next t)
    (hexec : exec i s = .next (takeError e p u)) (hu : u.resps = s.resps) :
    ∃ r, t.resps = s.resps ++ [r] ∧ r.err = errCode e := by
  obtain rfl := Host.Outcome.next.inj (h.symm.trans hexec)
  exact ⟨_, (recorded_takeError hu e p).resps, rfl⟩

section Raised
variable {α : Type} {r : State → Res α} {f : α → State → Result} {s t : State}

theorem err_of_raises {Q : Err → Prop} (hb : Blind r) (hr : (r s).Raises Q) (h : finishMicro (r s) f = .next t) :
    ∃ x : Response, t.resps = s.resps ++ [x] ∧ (x.err = 0 ∨ ∃ e, Q e ∧ x.err = errCode e) := by
  obtain ⟨x, hx, -, -, hend⟩ := micro_errs hr (hb.all_resps s) h
  exact ⟨x, hx, hend.imp And.left fun ⟨e, _, _, he, hcode⟩ => ⟨e, he, hcode⟩⟩

/-- The readers fail only with EndOfStream. -/
theorem err_of_reader (hb : Blind r) (hr : (r s).Raises (· = .endOfStream)) (h : finishMicro (r s) f = .next t) :
    ∃ x : Response, t.resps = s.resps ++ [x] ∧ x.err ∈ [0, 2] := by
  obtain ⟨x, hx, h0 | ⟨e, rfl, hcode⟩⟩ := err_of_raises hb hr h
  · exact ⟨x, hx, h0 ▸ .head _⟩
  · exact ⟨x, hx, hcode ▸ .tail _ (.head _)⟩

/-- The writers fail only with Closed, and only on a closed writer. -/
theorem err_of_writer (hb : Blind r) (hr : (r s).Raises fun e => e = .closed ∧ s.wclosed = true)
    (h : finishMicro (r s) f = .next t) :
    ∃ x : Response, t.resps = s.resps ++ [x] ∧ x.err ∈ [0, 6] ∧ (x.err = 6 → s.wclosed = true) := by
  obtain ⟨x, hx, h0 | ⟨e, ⟨rfl, hw⟩, hcode⟩⟩ := err_of_raises hb hr h
  · exact ⟨x, hx, h0 ▸ .head _, fun h6 => absurd (h0.symm.trans h6) (by decide)⟩
  · exact ⟨x, hx, hcode ▸ .tail _ (.head _), fun _ => hw⟩

end Raised

/-- The commands that put a sequence of bits. -/
theorem err_of_putBits {i : Instr} {bits : List Bool} {s t : State} (h : exec i s = .next t)
    (hi : exec i s = finishMicro (putBits bits s) fun _ _ => resultNone) :
    ∃ x : Response, t.resps = s.resps ++ [x] ∧ x.err ∈ [0, 6] ∧ (x.err = 6 → s.wclosed = true) :=
  err_of_writer (blind_putBits bits) (putBits_raises bits s) (hi ▸ h)

theorem err_of_stat {sel : Word} {s t : State} (h : exec (.stat sel) s = .next t) :
    ∃ x : Response, t.resps = s.resps ++ [x] ∧ x.err = if sel.toNat ≤ 4 then 0 else 5 := by
  rcases exec_stat_cases sel s with ⟨hsel, hexec⟩ | ⟨hsel, v, hexec⟩
  · rw [if_neg (by omega)]; exact err_of_takeError h hexec rfl
  · rw [if_pos hsel]
    obtain rfl := Host.Outcome.next.inj (h.symm.trans hexec)
    exact ⟨_, rfl, rfl⟩

theorem err_of_push {f : Word} {tie node : Idx} {s t : State} (h : exec (.push f tie node) s = .next t) :
    ∃ x : Response, t.resps = s.resps ++ [x] ∧ x.err = if s.heap.length < Config.pqCap then 0 else 4 := by
  by_cases hcap : s.heap.length < Config.pqCap
  · obtain ⟨heap, hexec, -⟩ := (pushInsertsOnce f tie node s).2 hcap
    rw [if_pos hcap]; exact err_of_completeCommand h hexec rfl
  · rw [if_neg hcap]; exact err_of_takeError h (by rw [exec_push, heapPush_full _ (Nat.le_of_not_lt hcap)]; rfl) rfl

theorem err_of_top {s t : State} (h : exec .top s = .next t) :
    ∃ x : Response, t.resps = s.resps ++ [x] ∧ x.err = if s.heap = [] then 1 else 0 := by
  cases hs : s.heap with
  | nil => rw [if_pos rfl]; exact err_of_takeError h ((topReturnsRoot s).1 hs) rfl
  | cons e rest => rw [if_neg (List.cons_ne_nil e rest)]; exact err_of_completeCommand h ((topReturnsRoot s).2 e rest hs) rfl

theorem err_of_pop {s t : State} (h : exec .pop s = .next t) :
    ∃ x : Response, t.resps = s.resps ++ [x] ∧ x.err = if s.heap = [] then 1 else 0 := by
  cases hs : s.heap with
  | nil => rw [if_pos rfl]; exact err_of_takeError h (exec_pop_empty hs) rfl
  | cons e rest => rw [if_neg (List.cons_ne_nil e rest)]; exact err_of_completeCommand h (exec_pop_cons hs) rfl

theorem err_of_freq {s t : State} (h : exec .freq s = .next t) :
    ∃ x : Response, t.resps = s.resps ++ [x] ∧ x.err = if s.src.length ≤ s.inbufCap then 0 else 4 := by
  by_cases hfits : s.src.length ≤ s.inbufCap
  · rw [if_pos hfits]; exact err_of_completeCommand h ((freqCountsInput s).1 hfits) rfl
  · rw [if_neg hfits]; exact err_of_takeError h ((freqCountsInput s).2 (by omega)) rfl

theorem err_of_compress {s t : State} (h : exec .compress s = .next t) :
    ∃ x : Response, t.resps = s.resps ++ [x] ∧ x.err = if s.src.length ≤ s.inbufCap then 0 else 4 := by
  by_cases hfits : s.src.length ≤ s.inbufCap
  · obtain ⟨u, artifact, hexec, -, -, hframe, -⟩ := compressionLaw s hfits
    rw [if_pos hfits]; exact err_of_completeCommand h hexec (by rw [hframe])
  · rw [if_neg hfits]; exact err_of_takeError h (compressTooLong s (by omega)) rfl

theorem err_of_rtree {s t : State} (h : exec .rtree s = .next t) :
    ∃ x : Response, t.resps = s.resps ++ [x] ∧ x.err ∈ [0, 2, 4] := by
  obtain ⟨x, hx, h0 | ⟨e, rfl | rfl, hcode⟩⟩ := err_of_raises blind_readTree (readTree_raises s) h
  · exact ⟨x, hx, h0 ▸ .head _⟩
  · exact ⟨x, hx, hcode ▸ .tail _ (.head _)⟩
  · exact ⟨x, hx, hcode ▸ .tail _ (.tail _ (.head _))⟩

theorem err_of_decode {s t : State} (h : exec .decode s = .next t) :
    ∃ x : Response, t.resps = s.resps ++ [x] ∧ x.err ∈ [0, 2, 5, 6] ∧ (x.err = 5 ↔ s.count ≠ 0 ∧ s.treeEmpty = true)
      ∧ (x.err = 6 → s.wclosed = true) := by
  by_cases hillegal : s.count ≠ 0 ∧ s.treeEmpty = true
  · obtain ⟨x, hx, hcode⟩ := err_of_takeError h ((decodeWalksTree s).2.1 hillegal.1 hillegal.2) rfl
    refine ⟨x, hx, ?_⟩
    rw [hcode]
    exact ⟨by decide, iff_of_true rfl hillegal, fun h6 => absurd h6 (by decide)⟩
  · have hloop : decodeSymbols s = decodeLoop s.count.toNat s := if_neg hillegal
    have hraises := hloop ▸ decodeLoop_raises s.count.toNat s
    obtain ⟨x, hx, hend⟩ := err_of_raises blind_decodeSymbols hraises h
    refine ⟨x, hx, ?_⟩
    rcases hend with h0 | ⟨e, rfl | ⟨rfl, hw⟩, hcode⟩
    · rw [h0]; exact ⟨by decide, iff_of_false (by decide) hillegal, fun h6 => absurd h6 (by decide)⟩
    · rw [hcode]; exact ⟨by decide, iff_of_false (by decide) hillegal, fun h6 => absurd h6 (by decide)⟩
    · rw [hcode]; exact ⟨by decide, iff_of_false (by decide) hillegal, fun _ => hw⟩

theorem err_of_decompress {s t : State} (h : exec .decompress s = .next t) :
    ∃ x : Response, t.resps = s.resps ++ [x] ∧ x.err ∈ [0, 2, 4] := by
  obtain ⟨t', hexec, -, -, hend, -⟩ := decompressAlwaysDefined s
  obtain rfl := Host.Outcome.next.inj (h.symm.trans hexec)
  obtain ⟨x, hx, -⟩ := runsMacro_decompress.recorded h
  refine ⟨x, hx.resps, ?_⟩
  rw [← hx.err]
  simp only [List.mem_cons, List.not_mem_nil, or_false, Prod.mk.injEq] at hend
  rcases hend with ⟨he, -⟩ | ⟨he, -⟩ | ⟨he, -⟩ | ⟨he, -⟩ | ⟨he, -⟩ <;> rw [he] <;> decide

/-- R210: CODES has nothing to fail with. -/
theorem makeCodes_raises (s : State) : (makeCodes s).Raises fun _ => False := by
  rcases makeCodes_cases s with ⟨c, hc, -⟩ | ⟨f, hf⟩
  · rw [hc]; trivial
  · rw [hf]; trivial

/-- Settles O60: the commands with an exact condition by their two cases, the others by what their procedures raise. -/
theorem errorsOfCommands : Obligations.ErrorsOfCommands := by
  intro i s t h
  cases i with
  | init d => exact err_of_completeCommand h (exec_init d s) rfl
  | size => exact err_of_completeCommand h (exec_size s) rfl
  | build =>
    obtain ⟨u, hu, hframe, -⟩ := buildTree_frame s
    exact err_of_completeCommand h (exec_build_ok hu) (by rw [hframe])
  | codes =>
    obtain ⟨x, hx, h0 | ⟨e, he, -⟩⟩ := err_of_raises blind_makeCodes (makeCodes_raises s) h
    exacts [⟨x, hx, h0⟩, he.elim]
  | stat sel => exact err_of_stat h
  | getbit => exact err_of_reader blind_getBit (getBit_raises s) h
  | getchar => exact err_of_reader (blind_getBits 8 0) (getBits_raises 8 0 s) h
  | getint => exact err_of_reader (blind_getBits 32 0) (getBits_raises 32 0 s) h
  | rcount => exact err_of_reader blind_readCount (readCount_raises s) h
  | putbit b => exact err_of_putBits h (exec_put rfl s)
  | putchar v => exact err_of_putBits h (exec_put rfl s)
  | putint w => exact err_of_putBits h (exec_put rfl s)
  | close => exact err_of_writer blind_closeWriter (closeWriter_raises s) h
  | wtree => exact err_of_writer blind_writeTree (writeTree_raises s) h
  | wcount => exact err_of_putBits h (exec_wcount s)
  | wpayload => exact err_of_putBits h (exec_wpayload s)
  | push f tie node => exact err_of_push h
  | top => exact err_of_top h
  | pop => exact err_of_pop h
  | freq => exact err_of_freq h
  | compress => exact err_of_compress h
  | rtree => exact err_of_rtree h
  | decode => exact err_of_decode h
  | decompress => exact err_of_decompress h

end Sys2Proof.Machine
end

section
/-! What the commands leave of the state, errors included (10_state.md sections 2 to 8, 'Written by'), and the codes the
status registers can hold (30_encoding.md R106; 60_exceptions.md R271). -/

namespace Sys2Proof.Machine

/-! ### Status codes -/

/-- The error codes the machine produces (R271, R273). -/
def producedErrs : List (BitVec 4) := [0, 1, 2, 4, 5, 6]

theorem mem_producedErrs {l : List (BitVec 4)} {e : BitVec 4} (he : e ∈ l) (hl : l ⊆ producedErrs) : e ∈ producedErrs :=
  hl he

theorem err_produced {i : Instr} {s t : State} (h : exec i s = .next t) :
    ∃ r, t.resps = s.resps ++ [r] ∧ r.err ∈ producedErrs := by
  obtain ⟨r, hr, herr⟩ := errorsOfCommands i s t h
  refine ⟨r, hr, ?_⟩
  cases i with
  | init _ | size | build | codes => exact herr ▸ .head _
  | stat _ | push _ _ _ | top | pop | freq | compress => rw [herr]; split <;> decide
  | getbit | getchar | getint | rcount | rtree | decompress => exact mem_producedErrs herr (by decide)
  | putbit _ | putchar _ | putint _ | close | wtree | wcount | wpayload | decode =>
    exact mem_producedErrs herr.1 (by decide)

theorem lastPhase_of_compress {s t : State} (h : exec .compress s = .next t) : t.lastPhase = 7 ∨ t.lastPhase = 1 := by
  by_cases hfits : s.src.length ≤ s.inbufCap
  · obtain ⟨u, artifact, hexec, -⟩ := compressionLaw s hfits
    obtain rfl := Host.Outcome.next.inj (h.symm.trans hexec)
    exact .inl rfl
  · obtain rfl := Host.Outcome.next.inj (h.symm.trans (compressTooLong s (by omega)))
    exact .inr rfl

theorem lastPhase_of_decompress {s t : State} (h : exec .decompress s = .next t) : t.lastPhase ∈ [7, 8, 9, 10] := by
  obtain ⟨t', hexec, -, -, hend, -⟩ := decompressAlwaysDefined s
  obtain rfl := Host.Outcome.next.inj (h.symm.trans hexec)
  have hphase := List.mem_map_of_mem (f := Prod.snd) hend
  exact (by decide : ([7, 8, 9, 10, 8] : List (BitVec 4)) ⊆ [7, 8, 9, 10]) hphase

/-- R106: a command leaves 0 or one of the ten phase numbers in `last_phase`, or, a successful STAT, what was there. -/
theorem exec_statusInv {i : Instr} {s t : State} (hs : StatusInv s) (h : exec i s = .next t) : StatusInv t := by
  obtain ⟨r, hr, -, -, hrecorded, hstat, hmicro, -⟩ := commandEpilogue i s t h
  obtain ⟨r', hr', herr⟩ := err_produced h
  obtain rfl : r' = r := List.singleton_injective (List.append_cancel_left (hr'.symm.trans hr))
  by_cases hquiet : (∃ sel, i = .stat sel) ∧ r'.err = 0
  · rw [hstat hquiet.1 hquiet.2]; exact hs
  · have hwrites : (∀ sel, i ≠ .stat sel) ∨ r'.err ≠ 0 :=
      (not_and_or.mp hquiet).imp_left fun hne sel hsel => hne ⟨sel, hsel⟩
    refine ⟨hrecorded hwrites ▸ herr, ?_⟩
    by_cases hc : i = .compress
    · subst hc
      rcases lastPhase_of_compress h with h7 | h1
      · rw [h7]; decide
      · rw [h1]; decide
    · by_cases hd : i = .decompress
      · subst hd
        exact (by decide : ∀ p ∈ ([7, 8, 9, 10] : List (BitVec 4)), p.toNat ≤ 10) _ (lastPhase_of_decompress h)
      · rw [hmicro hwrites hc hd]; decide

theorem hostKept_statusInv : HostKept StatusInv where
  inputs := fun _ _ h => h
  source := fun _ _ h => h
  sink := fun _ _ h => h
  reset := fun _ _ => ⟨List.mem_cons_self, Nat.zero_le _⟩

theorem statusInv_illegalCommand (s : State) : StatusInv (illegalCommand s) := by
  constructor
  · show (5 : BitVec 4) ∈ producedErrs
    decide
  · exact Nat.zero_le _

/-- Settles O55: `exec_statusInv` for the commands, `hostKept_statusInv` for the host. -/
theorem statusCodesKept : Obligations.StatusCodesKept := fun _ _ =>
  hostKept_statusInv.step (fun s _ => statusInv_illegalCommand s) fun _ _ _ => exec_statusInv

/-! ### Streams -/

/-- From `s` to `u` the streams have only moved forward (R61, R62), and INBUF_CAP and the host's moves stay. -/
structure Onward (s u : State) : Prop where
  forward  : Forward s u
  inbufCap : u.inbufCap = s.inbufCap
  inputs   : u.inputs = s.inputs

theorem Onward.of_streams_eq {s u v : State} (h : Onward s u) (hsrc : v.src = u.src) (hsnk : v.snk = u.snk)
    (hcap : v.inbufCap = u.inbufCap) (hin : v.inputs = u.inputs) : Onward s v :=
  ⟨⟨hsrc ▸ h.forward.src, hsnk ▸ h.forward.snk⟩, hcap.trans h.inbufCap, hin.trans h.inputs⟩

theorem Onward.of_src {s u v : State} (h : Onward s u) (hsrc : v.src <:+ u.src) (hsnk : v.snk = u.snk)
    (hcap : v.inbufCap = u.inbufCap) (hin : v.inputs = u.inputs) : Onward s v :=
  ⟨h.forward.trans ⟨hsrc, hsnk ▸ List.prefix_refl _⟩, hcap.trans h.inbufCap, hin.trans h.inputs⟩

theorem Onward.of_snk {s u v : State} (h : Onward s u) (hsrc : v.src = u.src) (hsnk : u.snk <+: v.snk)
    (hcap : v.inbufCap = u.inbufCap) (hin : v.inputs = u.inputs) : Onward s v :=
  ⟨h.forward.trans ⟨hsrc ▸ List.suffix_refl _, hsnk⟩, hcap.trans h.inbufCap, hin.trans h.inputs⟩

theorem Res.All.and {α : Type} {P Q : State → Prop} {r : Res α} (hp : r.All P) (hq : r.All Q) :
    r.All fun u => P u ∧ Q u := by
  cases r with
  | ok a u => exact ⟨hp, hq⟩
  | raised e u => exact ⟨hp, hq⟩
  | stuck f => trivial

theorem kept_onward (s : State) : Kept (Onward s) where
  reader := fun _ _ _ _ h hl => h.of_src hl rfl rfl rfl
  put := fun b u h => ((putBit_writerOnly b u).and (putStable_snk u.snk b u (List.prefix_refl _))).mono fun v hv =>
    h.of_snk (by rw [hv.1]; rfl) hv.2 (by rw [hv.1]; rfl) (by rw [hv.1]; rfl)
  close := fun u h => ((closeWriter_frame u).and (closeWriter_snk u)).mono fun v hv =>
    h.of_snk (by rw [hv.1]) hv.2 (by rw [hv.1]) (by rw [hv.1])
  push := fun u e h => (push_all e u).mono fun v hv => by rw [hv]; exact h.of_streams_eq rfl rfl rfl rfl
  pop := fun u h => (pop_all u).mono fun v hv => by rw [hv]; exact h.of_streams_eq rfl rfl rfl rfl
  freq := fun u h => ((analyze_frame u).and (analyze_facts u)).mono fun v hv =>
    h.of_src hv.2.1 (by rw [hv.1]) (by rw [hv.1]) (by rw [hv.1])
  build := fun u h => by
    obtain ⟨v, hv, hframe, -⟩ := buildTree_frame u
    rw [hv, Res.All, hframe]; exact h.of_streams_eq rfl rfl rfl rfl
  codes := fun u h => (makeCodes_all u).mono fun v hv => by rw [hv.1]; exact h.of_streams_eq rfl rfl rfl rfl
  rtree := fun u h => ((readTree_facts u).and (readTree_src u)).mono fun v hv =>
    h.of_src hv.2 (by rw [hv.1.1]) (by rw [hv.1.1]) (by rw [hv.1.1])
  count := fun _ _ h => h.of_streams_eq rfl rfl rfl rfl
  init := fun _ _ h => h.of_streams_eq rfl rfl rfl rfl
  finish := fun _ _ _ _ h => h.of_streams_eq rfl rfl rfl rfl
  stat := fun _ _ h => h.of_streams_eq rfl rfl rfl rfl

theorem exec_onward {i : Instr} {s t : State} (h : exec i s = .next t) : Onward s t :=
  (kept_onward s).exec ⟨Forward.refl s, rfl, rfl⟩ h

/-- Settles O57: everything a command is made of only moves the streams forward (`kept_onward`). -/
theorem streamsMoveForward : Obligations.StreamsMoveForward := fun _ _ _ h =>
  have ht := exec_onward h
  ⟨ht.forward.src, ht.forward.snk, ht.inbufCap, ht.inputs⟩

/-! ### Frames -/

/-- A micro command leaves what its procedure leaves, but for the status registers and the responses; `last_phase` is 0. -/
theorem finishMicro_frame {α : Type} {P : State → Prop} {r : Res α} {f : α → State → Result} {t : State} (hr : r.All P)
    (h : finishMicro r f = .next t) : ∃ u e l, P u ∧ t = u.withStatus e 0 l := by
  rcases finishMicro_next h with ⟨a, u, hu, rfl⟩ | ⟨e, u, hu, rfl⟩ <;> rw [hu] at hr
  · exact ⟨u, 0, _, hr, State.endCommand_eq u 0 0 _⟩
  · exact ⟨u, errCode e, _, hr, State.endCommand_eq u (errCode e) 0 none⟩

section Frames
variable {α : Type} {r : Res α} {f : α → State → Result} {s t : State}

theorem frame_of_reader (hr : r.All (ReaderOnly s)) (h : finishMicro r f = .next t) : t = { s with
    rbuf := t.rbuf, rcnt := t.rcnt, src := t.src, lastErr := t.lastErr, lastPhase := 0, resps := t.resps } := by
  obtain ⟨u, e, l, hu, rfl⟩ := finishMicro_frame hr h
  conv_lhs => rw [hu]
  rfl

theorem frame_of_writer (hr : r.All (WriterOnly s)) (h : finishMicro r f = .next t) : t = { s with
    wbuf := t.wbuf, wcnt := t.wcnt, snk := t.snk, lastErr := t.lastErr, lastPhase := 0, resps := t.resps } := by
  obtain ⟨u, e, l, hu, rfl⟩ := finishMicro_frame hr h
  conv_lhs => rw [hu]
  rfl

theorem frame_of_heap (hr : r.All fun u => u = s.setHeap u.heap) (h : finishMicro r f = .next t) : t = { s with
    heap := t.heap, lastErr := t.lastErr, lastPhase := 0, resps := t.resps } := by
  obtain ⟨u, e, l, hu, rfl⟩ := finishMicro_frame hr h
  conv_lhs => rw [hu]
  rfl

end Frames

theorem putBits_writerOnly (bits : List Bool) (s : State) : (putBits bits s).All (WriterOnly s) :=
  putBits_all (putStable_writerOnly s) bits (WriterOnly.refl s)

theorem frame_of_put {i : Instr} {s t : State} (hi : isPut i = true ∨ i ∈ [Instr.wtree, .wcount, .wpayload])
    (h : exec i s = .next t) : t = { s with
      wbuf := t.wbuf, wcnt := t.wcnt, snk := t.snk, lastErr := t.lastErr, lastPhase := 0, resps := t.resps } := by
  rcases hi with hput | hmem
  · exact frame_of_writer (putBits_writerOnly _ s) (exec_put hput s ▸ h)
  · simp only [List.mem_cons, List.not_mem_nil, or_false] at hmem
    rcases hmem with rfl | rfl | rfl
    · exact frame_of_writer (writeTree_all (putStable_writerOnly s) (WriterOnly.refl s)) h
    · exact frame_of_writer (putBits_writerOnly _ s) h
    · exact frame_of_writer (putBits_writerOnly _ s) (exec_wpayload s ▸ h)

/-- RCOUNT's procedure changes the reader, SRC and `count` (R245). -/
theorem readCount_frame (s : State) :
    (readCount s).All fun u => u = (s.setReader u.rbuf u.rcnt u.src).setCount u.count := by
  refine readCount_all (fun u a n l hu _ => ?_) (fun u c hu => ?_) rfl
  · conv_lhs => rw [hu]
    rfl
  · conv_lhs => rw [hu]
    rfl

/-- Settles O58: the frame of each procedure (`getBits_all` to `readTree_facts`), and then the epilogue. -/
theorem streamCommandFrames : Obligations.StreamCommandFrames := by
  refine fun s t => ⟨fun i hi h => ?_, fun i hi h => frame_of_put hi h, fun h => ?_, fun h => ?_, fun h => ?_, fun h => ?_⟩
  · have hstable := readerStable_readerOnly s
    simp only [List.mem_cons, List.not_mem_nil, or_false] at hi
    rcases hi with rfl | rfl | rfl
    · exact frame_of_reader (getBit_all hstable (ReaderOnly.refl s)) h
    · exact frame_of_reader (getBits_all hstable 8 (ReaderOnly.refl s)) h
    · exact frame_of_reader (getBits_all hstable 32 (ReaderOnly.refl s)) h
  · obtain ⟨u, e, l, hu, rfl⟩ := finishMicro_frame (closeWriter_frame s) h
    conv_lhs => rw [hu]
    rfl
  · have hall := decodeSymbols_all (readerStable_streamsOnly s) (putStable_streamsOnly s) (StreamsOnly.refl s)
    obtain ⟨u, e, l, hu, rfl⟩ := finishMicro_frame hall h
    conv_lhs => rw [hu]
    rfl
  · obtain ⟨u, e, l, hu, rfl⟩ := finishMicro_frame (readCount_frame s) h
    conv_lhs => rw [hu]
    rfl
  · obtain ⟨u, e, l, ⟨hu, -⟩, rfl⟩ := finishMicro_frame (readTree_facts s) h
    conv_lhs => rw [hu]
    rfl

theorem heapTop_frame (s : State) : (heapTop s).All fun u => u = s := by
  rw [heapTop]; split <;> rfl

/-- Settles O59: the frame of each procedure (`heapTop_frame` to `makeCodes_cases`), and then the epilogue. -/
theorem tableCommandFrames : Obligations.TableCommandFrames := by
  refine fun s t => ⟨fun i hi h => ?_, fun i hi h => ?_, fun h => ?_, fun h => ?_, fun h => ?_⟩
  · simp only [List.mem_cons, List.not_mem_nil, or_false] at hi
    rcases hi with rfl | rfl
    · obtain ⟨u, e, l, rfl, rfl⟩ := finishMicro_frame (heapTop_frame s) h
      rfl
    · obtain rfl := Host.Outcome.next.inj (h.symm.trans (exec_size s))
      rfl
  · rcases hi with rfl | ⟨f, tie, node, rfl⟩
    · exact frame_of_heap (pop_all s) h
    · exact frame_of_heap (push_all _ s) h
  · obtain ⟨u, e, l, hu, rfl⟩ := finishMicro_frame (analyze_frame s) h
    conv_lhs => rw [hu]
    rfl
  · obtain ⟨u, hu, hframe, -⟩ := buildTree_frame s
    obtain rfl := Host.Outcome.next.inj (h.symm.trans (exec_build_ok hu))
    rw [hframe]; rfl
  · rcases makeCodes_cases s with ⟨c, hc, -⟩ | ⟨f, hf⟩ <;> rw [exec_codes] at h
    · rw [hc] at h
      obtain rfl := Host.Outcome.next.inj h
      rfl
    · rw [hf] at h
      cases h

end Sys2Proof.Machine
end

section
/-! The step (70_reset_and_hazards.md R300, R305, R310): what it serves, and that it always ends. -/

namespace Sys2Proof.Machine

/-! ### Commands and host moves -/

theorem step_command {s : State} {w : CmdWord} {rest : List HostEvent} (h : s.inputs = .command w :: rest) :
    step s = issue w (s.setInputs rest) := by
  rw [step, h]

theorem step_resetDuring {s : State} {w : CmdWord} {n : Nat} {rest : List HostEvent}
    (h : s.inputs = .resetDuring w n :: rest) : step s = abandon w n (s.setInputs rest) := by
  rw [step, h]

theorem issue_instr {w : CmdWord} {i : Instr} (h : decode w = .instr i) (s : State) : issue w s = exec i s := by
  rw [issue, h]

/-- Settles O5: `issue_instr` and `issue_reserved`. -/
theorem stepRunsDecodedCommand : Obligations.StepRunsDecodedCommand := fun s _ rest h =>
  ⟨fun _ hi => (step_command h).trans (issue_instr hi (s.setInputs rest)),
    fun _ hy => (step_command h).trans (issue_reserved hy (s.setInputs rest))⟩

/-! ### A reset during a command -/

theorem CutAt.congr_end {n : Nat} {s t u c : State} {a b : Nat} (h : CutAt n s u c a b) (hsrc : t.src = u.src)
    (hsnk : t.snk = u.snk) : CutAt n s t c a b :=
  ⟨h.src, hsnk ▸ h.snk, hsrc ▸ h.takenLe, hsnk ▸ h.writtenLe, by rw [h.sum, streamAccesses, streamAccesses, hsrc, hsnk]⟩

theorem cutCommand_eq_cutWhole {i : Instr} (hd : i ≠ .decode) (hm : i ≠ .decompress) (n : Nat) (s : State) :
    cutCommand i n s = cutWhole i n s := by
  cases i with
  | decode => exact absurd rfl hd
  | decompress => exact absurd rfl hm
  | _ => rfl

/-- How far a command cut after n accesses has got (R300): all bytes are taken before one is written, but that DECODE, and
DECOMPRESS after its tree and count, go symbol by symbol (R248). -/
theorem cutCommand_spec {i : Instr} {n : Nat} {s t c : State} (h : exec i s = .next t) (hc : cutCommand i n s = .next c) :
    ∃ taken written, CutAt n s t c taken written
      ∧ (i ≠ .decode → i ≠ .decompress → 0 < written → taken = s.src.length - t.src.length)
      ∧ (i = .decode → ∀ (tree : Tree) (l : List (Byte × List Bool)) (more : List Bool), HoldsTree s tree →
        (∀ p ∈ l, tree.reads p.1 p.2) → readerBits s = l.flatMap Prod.snd ++ more → l.length ≤ s.count.toNat →
        s.wclosed = false → DecodesInTurn l s.rcnt.val 0 taken written)
      ∧ (i = .decompress → ∀ (tree : Tree) (w : Word) (l : List (Byte × List Bool)) (more : List Bool),
        s.src.flatMap msbBits = tree.bits ++ msbBits w ++ l.flatMap Prod.snd ++ more → tree.size ≤ Config.nodeCap →
        (∀ p ∈ l, tree.reads p.1 p.2) → l.length ≤ w.toNat →
        DecodesInTurn l 0 (tree.bits.length + 32) taken written) := by
  by_cases hd : i = .decode
  · subst hd
    obtain ⟨e, hends, hsrc, hsnk⟩ := decode_ends h
    obtain ⟨taken, written, hcut, hturn⟩ := cutDecode_spec hc hends
    exact ⟨taken, written, hcut.congr_end hsrc hsnk, fun hne => absurd rfl hne,
      fun _ tree l more hholds hreads hb hlen hw => hturn tree l more hholds hw hreads hb hlen, nofun⟩
  · by_cases hm : i = .decompress
    · subst hm
      obtain ⟨e, hends, hsrc, hsnk⟩ := decompress_ends h
      obtain ⟨taken, written, hcut, hturn⟩ := cutDecompress_spec hc hends
      refine ⟨taken, written, hcut.congr_end hsrc hsnk, fun _ hne => absurd rfl hne, nofun,
        fun _ tree w l more hb => hturn tree w l more ?_⟩
      rw [hb, List.append_assoc, List.append_assoc]
    · rw [cutCommand_eq_cutWhole hd hm, cutWhole, h] at hc
      obtain rfl := Host.Outcome.next.inj hc
      obtain ⟨taken, written, hcut, hall⟩ := cutStreams_spec n (exec_onward h).forward
      exact ⟨taken, written, hcut, fun _ _ => hall, fun he => absurd he hd, fun he => absurd he hm⟩

theorem resetAt_eq (u s : State) : resetAt u s = { State.reset with
    inbufCap := s.inbufCap, src := u.src, snk := u.snk, inputs := s.inputs, resps := s.resps } := rfl

theorem abandon_reserved {w : CmdWord} {y : Reserved} (h : decode w = .reserved y) (n : Nat) (s : State) :
    abandon w n s = .next (resetAt s s) := by
  rw [abandon, h]

theorem abandon_instr {w : CmdWord} {i : Instr} {n : Nat} {s c : State} (h : decode w = .instr i)
    (hc : cutCommand i n s = .next c) : abandon w n s = .next (resetAt c s) := by
  simp only [abandon, h, hc]

/-- Settles O6: each move of the host is one arm of the step; a reset during a command leaves what the cut command has done
in the streams (`cutCommand_spec`). -/
theorem stepServesHost : Obligations.StepServesHost := by
  refine fun s rest => ⟨fun h => ?_, fun l h => ?_, fun l h => ?_, fun a n h => ?_, fun h => ?_, fun h => ?_,
    fun w n h => ⟨fun y hy => ?_, fun i t hi ht => ?_⟩⟩
  · rw [step, h]
  iterate 4 · rw [step, h]; rfl
  · rw [step_reset h]; rfl
  · rw [step_resetDuring h, abandon_reserved hy]; rfl
  · have ht : exec i (s.setInputs rest) = .next t := ht
    obtain ⟨c, hc⟩ := cutCommand_answers n ht
    obtain ⟨taken, written, hcut, hwhole, hdecode, hdecompress⟩ := cutCommand_spec ht hc
    refine ⟨taken, written, ?_, hcut.takenLe, hcut.writtenLe, hcut.sum, hwhole,
      fun hd tree l more hholds => hdecode hd tree l more (hholds.congr rfl rfl rfl), hdecompress⟩
    rw [step_resetDuring h, abandon_instr hi hc, resetAt_eq, hcut.src, hcut.snk]
    rfl

/-! ### Termination -/

theorem finishMicro_answers {α : Type} {r : Res α} {f : α → State → Result}
    (h : (∃ a u, r = .ok a u) ∨ ∃ e u, r = .raised e u) : ∃ t, finishMicro r f = .next t := by
  rcases h with ⟨a, u, rfl⟩ | ⟨e, u, rfl⟩
  · exact ⟨_, rfl⟩
  · exact ⟨_, rfl⟩

theorem exec_putBits_answers {i : Instr} {bits : List Bool} {s : State}
    (hi : exec i s = finishMicro (putBits bits s) fun _ _ => resultNone) : ∃ t, exec i s = .next t := by
  rw [hi]; exact finishMicro_answers (putBits_cases bits s)

theorem getBit_cases (s : State) : (∃ b u, getBit s = .ok b u) ∨ ∃ e u, getBit s = .raised e u := by
  cases h : readerBits s with
  | nil => exact .inr ⟨_, _, getBit_eos h⟩
  | cons b bs => obtain ⟨u, hu, -⟩ := getBit_ok h; exact .inl ⟨b, u, hu⟩

theorem TreeInv.cases {s : State} (h : TreeInv s) : s.treeEmpty = true ∨ ∃ t, HoldsTree s t := by
  cases he : s.treeEmpty with
  | true => exact .inl rfl
  | false => exact .inr (h he)

/-- R248, R310: a walk of DECODE ends, because every step of it takes a bit. -/
theorem decodeLoop_ends {s : State} {t : Tree} (h : HoldsTree s t) (n : Nat) :
    (∃ a u, decodeLoop n s = .ok a u) ∨ ∃ e u, decodeLoop n s = .raised e u := by
  cases hw : s.wclosed with
  | false =>
    rcases decodeLoop_cases n h hw with ⟨l, u, -, -, hu, -⟩ | ⟨l, u, more, -, -, hu, -⟩
    · exact .inl ⟨_, u, hu⟩
    · exact .inr ⟨_, u, hu⟩
  | true =>
    cases n with
    | zero => exact .inl ⟨_, s, rfl⟩
    | succ n =>
      rcases decodeLoop_closed n h hw with ⟨b, bits, u, -, hu, -⟩ | ⟨u, hu, -⟩
      · exact .inr ⟨_, u, hu⟩
      · exact .inr ⟨_, u, hu⟩

theorem exec_codes_answers {s : State} (hcap : s.node.length ≤ Config.nodeCap) (h : TreeInv s) :
    ∃ t, exec .codes s = .next t := by
  rcases h.cases with hempty | ⟨t, hholds⟩
  · exact ⟨_, (codesAreTreePaths s).1 hempty⟩
  · obtain ⟨c, hexec, -⟩ := (codesAreTreePaths s).2 t hholds hcap
    exact ⟨_, hexec⟩

theorem exec_wtree_answers {s : State} (hcap : s.node.length ≤ Config.nodeCap) (h : TreeInv s) :
    ∃ t, exec .wtree s = .next t := by
  rcases h.cases with hempty | ⟨t, hholds⟩
  · exact exec_putBits_answers (exec_wtree_empty hempty)
  · exact exec_putBits_answers (exec_wtree_tree hholds hcap)

theorem exec_decode_answers {s : State} (h : TreeInv s) : ∃ t, exec .decode s = .next t := by
  rcases h.cases with hempty | ⟨t, hholds⟩
  · by_cases h0 : s.count = 0
    · exact ⟨_, (decodeWalksTree s).1 h0⟩
    · exact ⟨_, (decodeWalksTree s).2.1 h0 hempty⟩
  · rw [exec_decode, decodeSymbols_tree hholds]
    exact finishMicro_answers (decodeLoop_ends hholds _)

theorem readTree_ends (s : State) : (∃ a u, readTree s = .ok a u) ∨ ∃ e u, readTree s = .raised e u := by
  rcases readTree_cases s with ⟨t, u, hu, -⟩ | ⟨e, u, hu, -⟩
  · exact .inl ⟨_, u, hu⟩
  · exact .inr ⟨e, u, hu⟩

/-- R310: within the table bounds, and with a tree where the state says so, every command ends. -/
theorem exec_answers {s : State} (hwf : s.tablesWf = true) (htree : TreeInv s) (i : Instr) : ∃ t, exec i s = .next t := by
  have hcap : s.node.length ≤ Config.nodeCap := ((tablesWf_iff s).mp hwf).2.2.2.2.1
  cases i with
  | init d => exact ⟨_, exec_init d s⟩
  | stat sel => rcases exec_stat_cases sel s with ⟨-, h⟩ | ⟨-, v, h⟩ <;> exact ⟨_, h⟩
  | getbit => exact finishMicro_answers (getBit_cases s)
  | getchar => exact finishMicro_answers (getBits_cases 8 0 s)
  | getint => exact finishMicro_answers (getBits_cases 32 0 s)
  | putbit b => exact exec_putBits_answers (exec_put rfl s)
  | putchar v => exact exec_putBits_answers (exec_put rfl s)
  | putint w => exact exec_putBits_answers (exec_put rfl s)
  | close =>
    rw [exec_close]
    cases hw : s.wclosed with
    | true => rw [closeWriter_closed hw]; exact ⟨_, rfl⟩
    | false => obtain ⟨u, hu, -⟩ := closeWriter_ok hw; rw [hu]; exact ⟨_, rfl⟩
  | push f tie node =>
    rw [exec_push, heapPush]
    split <;> exact ⟨_, rfl⟩
  | top => rw [exec_top, heapTop]; split <;> exact ⟨_, rfl⟩
  | pop => rw [exec_pop, heapPop]; split <;> exact ⟨_, rfl⟩
  | size => exact ⟨_, exec_size s⟩
  | freq => exact (frequencySum s hwf).imp fun _ h => h.1
  | build => obtain ⟨u, hu, -⟩ := buildTree_frame s; exact ⟨_, exec_build_ok hu⟩
  | codes => exact exec_codes_answers hcap htree
  | wtree => exact exec_wtree_answers hcap htree
  | wcount => exact exec_putBits_answers (exec_wcount s)
  | wpayload => exact exec_putBits_answers (exec_wpayload s)
  | compress =>
    by_cases hfits : s.src.length ≤ s.inbufCap
    · obtain ⟨u, artifact, h, -⟩ := compressionLaw s hfits; exact ⟨_, h⟩
    · exact ⟨_, compressTooLong s (by omega)⟩
  | rtree => exact finishMicro_answers (readTree_ends s)
  | rcount =>
    rw [exec_rcount, readCount]
    rcases getBits_cases 32 (0 : Word) s with ⟨w, u, hu⟩ | ⟨e, u, hu⟩ <;> rw [getInt, hu] <;> exact ⟨_, rfl⟩
  | decode => exact exec_decode_answers htree
  | decompress => exact (decompressAlwaysDefined s).imp fun _ h => h.1

/-- Settles O52: every command ends (`exec_answers`), hence a reset during one too (`abandon_answers`); the other steps run
no command. -/
theorem everyStepAnswers : Obligations.EveryStepAnswers := by
  intro s hwf htree
  have hexec : ∀ rest i, ∃ t, exec i (s.setInputs rest) = .next t := fun rest i =>
    exec_answers (hostKept_tables.inputs s rest hwf) (hostKept_treeInv.inputs s rest htree) i
  cases hin : s.inputs with
  | nil => exact ⟨_, (stepServesHost s []).1 hin⟩
  | cons e rest =>
    cases e with
    | command w =>
      rw [step_command hin]
      cases hw : decode w with
      | instr i => rw [issue_instr hw]; exact hexec rest i
      | reserved y => exact ⟨_, issue_reserved hw _⟩
    | resetDuring w n => rw [step_resetDuring hin]; exact abandon_answers w n (hexec rest)
    | _ => rw [step, hin]; exact ⟨_, rfl⟩

end Sys2Proof.Machine
end
